-- ==== Sys2Proof/Word.lean ====
section
/-! DEFINITION. The plain data words of the block: the byte and the binary32 number `Num`.
Only types stand here; every operation on them is in `Sys2Proof/Machine/Num.lean`. -/

namespace Sys2Proof

/-- A byte: "8 bits, an unsigned integer 0 to 255" (R8). -/
abbrev Byte := BitVec 8

/-- A `Num`: one IEEE 754 binary32 datum, held as its 32-bit pattern (R7 `NUM`, R9).
It is a structure and not an abbreviation of `BitVec 32`, so that no integer operation of `BitVec`
can be applied to a number by accident. -/
structure Num32 where
  bits : BitVec 32
deriving DecidableEq, Repr, Inhabited

/-- The arithmetic operations of R9 whose result may be a NaN; it only names the operation to the free
value `Config.nanBits`. -/
inductive NumOp where
  | add
  | mul
  | div
deriving DecidableEq, Repr

end Sys2Proof
end

