-- ==== Sys2Proof/Config.lean ====
section
/-! DEFINITION. What a build of the block fixes (R7), and the free values.

Every parameter of R7's table is a field of `Params`, and a `Params` is held in the machine's state, so
that every statement about a state is a statement about every value of them.  Two rows of the table are
not fields: `MAX_BODY` is derived (`maxBody`), and `GRIPPER_MECH` is "outside the block". -/

namespace Sys2Proof

/-- `CASCADE` (R7, R149): how LIFT uses the PID instances. -/
inductive Cascade where
  /-- direction is the sign of the error (R148); the default -/
  | off
  /-- direction is the sign of the position loop's output -/
  | pos
  /-- position loop over speed loop -/
  | posSpd
deriving DecidableEq, Repr

/-- `BODY_MATCH` (R7, R90): how the two gripper bodies without operand match. -/
inductive BodyMatch where
  /-- `PREFIX`, the value this hardware takes: trailing bytes are ignored -/
  | byPrefix
  /-- `EXACT`: the effective body must equal the literal -/
  | byWhole
deriving DecidableEq, Repr

/-- `NUM` (R7, R9): the number format.  R9 gives the operations for one format, so there is one value. -/
inductive NumFormat where
  /-- IEEE 754 binary32, round to nearest even, each operation rounded once -/
  | binary32
deriving DecidableEq, Repr

/-- `DIR_MAP` (R7, D11): which actuator direction a manual "up" is; "down" is the other one. -/
inductive DirMap where
  /-- Up = Forward, Down = Reverse: the value this hardware takes -/
  | upForward
  /-- Up = Reverse, Down = Forward: DESIGN CHOICE (log entry 4); the spec puts a swap outside the block
  (D11) -/
  | upReverse
deriving DecidableEq, Repr

/-- The build parameters, in the order of R7's table.  No step of the block writes them ("They do not
change while the block runs", R247). -/
structure Params where
  /-- `NUM`, the number format -/
  num : NumFormat
  /-- `DT_MIN`, the lower clamp bound of a time step, seconds -/
  dtMin : Num32
  /-- `DT_MAX`, the upper clamp bound of a time step, seconds -/
  dtMax : Num32
  /-- `FRAME_CAP`, bytes of the parser's buffer -/
  frameCap : Nat
  /-- `RXQ_SIZE`, slots of the byte ring -/
  rxqSize : Nat
  /-- `TOL`, the tolerance band -/
  tol : Num32
  /-- `TICK_PERIOD` in milliseconds: nominal, "used by no rule" -/
  tickPeriodMs : Nat
  /-- `TS_BITS`, width of the timestamp `now` -/
  tsBits : Nat
  /-- `TS_UNIT_S`, seconds per timestamp count -/
  tsUnitS : Num32
  /-- `PULSE_PER_MM`, OPEN (D31).  `some v`: the build's value is `v`.  `none`: the build has not been
  said; the value is then the free value `Config.openPulsePerMm`. -/
  pulsePerMm : Option Num32
  /-- `CNT_BITS`, width of the raw encoder counter -/
  cntBits : Nat
  /-- `ACC_BITS`, width of the signed pulse accumulator -/
  accBits : Nat
  /-- `N_PID`, number of PID instances -/
  nPid : Nat
  /-- `CASCADE` -/
  cascade : Cascade
  /-- `STOP_CANCELS_TARGET` -/
  stopCancelsTarget : Bool
  /-- `BODY_MATCH` -/
  bodyMatch : BodyMatch
  /-- `GRIP_POS_BITS`, width of the signed gripper position -/
  gripPosBits : Nat
  /-- `LINE_TERM`, the bytes after `$LIFTER:OK#` -/
  lineTerm : List Byte
  /-- `DIR_MAP` -/
  dirMap : DirMap
deriving DecidableEq, Repr

namespace Config

/-- The values of R7's table (the binary32 nearest 1e-6 and 0.1: R7, R115, R204); `PULSE_PER_MM` has no
default and stays open. -/
def defaults : Params where
  num := .binary32
  dtMin := ⟨0x358637BD⟩
  dtMax := ⟨0x3DCCCCCD⟩
  frameCap := 64
  rxqSize := 256
  tol := ⟨0x40A00000⟩
  tickPeriodMs := 10
  tsBits := 32
  tsUnitS := ⟨0x358637BD⟩
  pulsePerMm := none
  cntBits := 16
  accBits := 32
  nPid := 2
  cascade := .off
  stopCancelsTarget := true
  bodyMatch := .byPrefix
  gripPosBits := 32
  lineTerm := [0x0D, 0x0A]
  dirMap := .upForward

/-- FREE VALUE.  The sign and the payload of the NaN that an invalid operation gives: IEEE 754 leaves
both open and no rule of the spec states them.  Bit 22 is the sign, bits 21..0 the payload under the
quiet bit. -/
opaque nanBits : NumOp → BitVec 32 → BitVec 32 → BitVec 23

/-- FREE VALUE.  The build's `PULSE_PER_MM` where the parameters leave it open (R7 OPEN, D31). -/
opaque openPulsePerMm : Num32

/-- FREE VALUE.  The input `now` of the n-th main-loop pass that no scheduled event supplies (R38:
"free inputs: the model assumes nothing of them except their width"; `MAIN_STEP` reads its low `TS_BITS` bits). -/
opaque freeNow : Nat → Nat

/-- FREE VALUE.  The input `enc_cnt` of the n-th main-loop pass that no scheduled event supplies (R38;
`MAIN_STEP` reads its low `CNT_BITS` bits). -/
opaque freeCnt : Nat → Nat

end Config

end Sys2Proof
end

