-- ==== Sys2Proof/Syntax.lean ====
section
/-! DEFINITION. The instructions of the block: one constructor for each row of
`spec/opcode_table.json`, the wire commands (R61 to R63), the notification (R69) and the internal
operations (R73), with the small types their operands take. -/

namespace Sys2Proof

/-- A manual direction a command can carry (R70: "the only directions the wire can produce are up and
down"). -/
inductive UpDown where
  | up
  | down
deriving DecidableEq, Repr

/-- The decoder's output, R70. -/
inductive Command where
  | liftManual (d : UpDown)
  | liftSetDelta (v : Num32)
  | liftStop
  | gripperOpen
  | gripperClose
  /-- `p` a signed `GRIP_POS_BITS`-bit integer -/
  | gripperSetPosition (p : Int)
deriving DecidableEq, Repr

/-- The parser's state, R15: it selects the map that decodes a byte (R64). -/
inductive CfpState where
  | idle
  | capturing
deriving DecidableEq, Repr

/-- The index of the instance `PID_POS` (R111); an instance index is a number in `0..N_PID-1`. -/
abbrev pidPos : Nat := 0

/-- The index of the instance `PID_SPD` (R111). -/
abbrev pidSpd : Nat := 1

/-- Who invokes `PID_INIT` (R112 "boot code or PID client", R248 "the owner of the instance").  A client
may not touch an instance that `CASCADE` gives to LIFT (R111). -/
inductive Invoker where
  /-- boot code, or the main-loop context that owns the instance -/
  | owner
  /-- a PID client, an agent outside the block -/
  | client
deriving DecidableEq, Repr

/-- One constructor per row of the opcode table.  The widths are parameters (R7), so an integer operand is
a number: `now` and `cnt` name `TS_BITS` and `CNT_BITS` bits, `p` a signed `GRIP_POS_BITS`-bit integer;
`wellFormed` says they fit. -/
inductive Instr where
  /-- `LEG_STOP`, the byte `0x00` while `Idle` (R82) -/
  | legStop
  /-- `LEG_UP`, the byte `0x01` while `Idle` (R83) -/
  | legUp
  /-- `LEG_DOWN`, the byte `0x02` while `Idle` (R84) -/
  | legDown
  /-- `SOF`, the byte `0x24` (R85) -/
  | sof
  /-- `EOF`, the byte `0x23` while `Capturing` (R86) -/
  | eof
  /-- `F_LIFTER`, `$LIFTER:<operand>#`; the operand is every body byte after the literal (R93) -/
  | fLifter (operand : List Byte)
  /-- `F_GRIP_OPEN`, `$GRIPPER:OPEN<trailing>#` (R95) -/
  | fGripOpen (trailing : List Byte)
  /-- `F_GRIP_CLOSE`, `$GRIPPER:CLOSE<trailing>#` (R96) -/
  | fGripClose (trailing : List Byte)
  /-- `F_GRIP_POS`, `$GRIPPER:POS:<operand>#` (R98) -/
  | fGripPos (operand : List Byte)
  /-- `NOTIFY`, the output `$LIFTER:OK#` and `LINE_TERM` (R69, R152) -/
  | notify
  /-- `RXQ_PUSH(b)` (R44) -/
  | rxqPush (b : Byte)
  /-- `RXQ_POP` (R45) -/
  | rxqPop
  /-- `CFP_FEED(b)` (R81) -/
  | cfpFeed (b : Byte)
  /-- `PID_INIT(i, kp, ki, kd, out_limit, int_limit, alpha, int_threshold, dead_zone)` (R112) -/
  | pidInit (who : Invoker) (i : Nat) (kp ki kd outLimit intLimit alpha intThreshold deadZone : Num32)
  /-- `PID_CALC(i, target, measured, dt)` as a step of a PID client (R114, R111) -/
  | pidCalc (i : Nat) (target measured dt : Num32)
  /-- `CMD_DISPATCH(c)` (R141) -/
  | cmdDispatch (c : Command)
  /-- `CMD_LIFT_SET_DELTA(v)` (R142) -/
  | cmdLiftSetDelta (v : Num32)
  /-- `CMD_LIFT_MANUAL(d)` (R143) -/
  | cmdLiftManual (d : UpDown)
  /-- `CMD_LIFT_STOP()` (R144) -/
  | cmdLiftStop
  /-- `CMD_GRIPPER_OPEN()` (R153) -/
  | cmdGripperOpen
  /-- `CMD_GRIPPER_CLOSE()` (R154) -/
  | cmdGripperClose
  /-- `CMD_GRIPPER_SET_POSITION(p)` (R155) -/
  | cmdGripperSetPosition (p : Int)
  /-- `LIFT_UPDATE(dt)` (R146) -/
  | liftUpdate (dt : Num32)
  /-- `FSM_EVAL(exceeds)` (R171) -/
  | fsmEval (exceeds : Bool)
  /-- `ENC_SAMPLE(cnt, dt)` (R187) -/
  | encSample (cnt : Nat) (dt : Num32)
  /-- `TICK_IRQ` (R202) -/
  | tickIrq
  /-- `MAIN_STEP(now, enc_cnt)` (R203) -/
  | mainStep (now cnt : Nat)
  /-- `TICK_SERVICE(now, cnt)` (R204) -/
  | tickService (now cnt : Nat)
  /-- `RESET` (R240) -/
  | reset
deriving DecidableEq, Repr

/-- Why the wire decoder gives no instruction for a byte (R64, R67): no encoding traps, so each of these
is a byte the parser consumes without a command. -/
inductive DecodeReject where
  /-- there is no byte to decode -/
  | noByte
  /-- a byte with no meaning while `Idle`: consumed and ignored (R89) -/
  | ignoredByte (b : Byte)
  /-- a body byte of the frame being captured: stored, or overflow (R87, R88) -/
  | frameContent (b : Byte)
deriving DecidableEq, Repr

/-- One step of one agent, as the environment can make it happen (the table of R200).  `RESET` is not
among them: "It is not a step of the running block's step relation" (R240). -/
inductive Event where
  /-- the producer: the receive interrupt delivers `b` (`RXQ_PUSH`) -/
  | rxByte (b : Byte)
  /-- the tick source (`TICK_IRQ`) -/
  | tick
  /-- the main loop makes one pass with these inputs (`MAIN_STEP`) -/
  | mainPass (now cnt : Nat)
  /-- boot code or a PID client initialises an instance (`PID_INIT`) -/
  | pidInit (who : Invoker) (i : Nat) (kp ki kd outLimit intLimit alpha intThreshold deadZone : Num32)
  /-- a PID client computes (`PID_CALC`) -/
  | pidCalc (i : Nat) (target measured dt : Num32)
deriving DecidableEq, Repr

end Sys2Proof
end

