-- ==== Sys2Proof/Decode.lean ====
section
/-! DEFINITION. The wire decoder and, after it, the encoder (R60 to R72).

The protocol is modal: the parser's state selects the map (R64).  `decodeAt` reads the one byte a
main-loop pass consumes, together with what the parser has captured so far; `decode` reads a whole byte
stream and takes a complete frame as one instruction.  Both are total and reject by name; a rejected
byte is one the parser consumes without a command (R67). -/

namespace Sys2Proof

/-! ### Byte values (R60) -/

/-- `'$'`, the start delimiter. -/
def chSof : Byte := 0x24
/-- `'#'`, the terminator. -/
def chEof : Byte := 0x23
/-- `LEG_STOP` (R61). -/
def opStop : Byte := 0x00
/-- `LEG_UP` (R61). -/
def opUp : Byte := 0x01
/-- `LEG_DOWN` (R61). -/
def opDown : Byte := 0x02

/-- `"LIFTER:"` (R63). -/
def litLifter : List Byte := [0x4C, 0x49, 0x46, 0x54, 0x45, 0x52, 0x3A]
/-- `"GRIPPER:OPEN"` (R63). -/
def litGripOpen : List Byte :=
  [0x47, 0x52, 0x49, 0x50, 0x50, 0x45, 0x52, 0x3A, 0x4F, 0x50, 0x45, 0x4E]
/-- `"GRIPPER:CLOSE"` (R63). -/
def litGripClose : List Byte :=
  [0x47, 0x52, 0x49, 0x50, 0x50, 0x45, 0x52, 0x3A, 0x43, 0x4C, 0x4F, 0x53, 0x45]
/-- `"GRIPPER:POS:"` (R63). -/
def litGripPos : List Byte :=
  [0x47, 0x52, 0x49, 0x50, 0x50, 0x45, 0x52, 0x3A, 0x50, 0x4F, 0x53, 0x3A]
/-- `"$LIFTER:OK#"` (R69). -/
def litNotify : List Byte :=
  [0x24, 0x4C, 0x49, 0x46, 0x54, 0x45, 0x52, 0x3A, 0x4F, 0x4B, 0x23]

/-! ### The decoder -/

/-- `rest(s, p)` of R90: `s` without the literal `p`, where `p` begins it. -/
def stripLit : List Byte → List Byte → Option (List Byte)
  | [], s => some s
  | _ :: _, [] => none
  | p :: ps, b :: bs => if p = b then stripLit ps bs else none

/-- The frame instruction whose literal begins a body (R63); `none` is an unrecognised body (R99).  The
literals hold no `0x00`, so the effective body begins with one exactly when the body does. -/
def frameOf (body : List Byte) : Option Instr :=
  match stripLit litLifter body with
  | some r => some (.fLifter r)
  | none =>
    match stripLit litGripOpen body with
    | some r => some (.fGripOpen r)
    | none =>
      match stripLit litGripClose body with
      | some r => some (.fGripClose r)
      | none =>
        match stripLit litGripPos body with
        | some r => some (.fGripPos r)
        | none => none

/-- The instruction a main-loop pass reads (R64): the parser's state, the body captured so far and the
byte popped.  At a terminator a recognised body makes the frame's instruction, any other body the plain
terminator `EOF`. -/
def decodeAt (st : CfpState) (body : List Byte) (b : Byte) : Except DecodeReject Instr :=
  match st with
  | .idle =>
    if b = chSof then .ok .sof
    else if b = opStop then .ok .legStop
    else if b = opUp then .ok .legUp
    else if b = opDown then .ok .legDown
    else .error (.ignoredByte b)
  | .capturing =>
    if b = chSof then .ok .sof
    else if b = chEof then
      match frameOf body with
      | some i => .ok i
      | none => .ok .eof
    else .error (.frameContent b)

/-- The bytes up to the next terminator and those after it; `none` where a start delimiter or the end of
the bytes comes first (R62, R68). -/
def splitFrame : List Byte → Option (List Byte × List Byte)
  | [] => none
  | b :: bs =>
    if b = chEof then some ([], bs)
    else if b = chSof then none
    else
      match splitFrame bs with
      | some (body, rest) => some (b :: body, rest)
      | none => none

/-- The first instruction of a byte stream and the bytes after it.  A start delimiter that opens a
complete frame of at most `maxBody` body bytes with a recognised body is that frame's instruction; any
other start delimiter is `SOF` by itself. -/
def decode (maxBody : Nat) (st : CfpState) : List Byte → Except DecodeReject (Instr × List Byte)
  | [] => .error .noByte
  | b :: bs =>
    if b = chSof then
      match splitFrame bs with
      | some (body, rest) =>
        if body.length ≤ maxBody then
          match frameOf body with
          | some i => .ok (i, rest)
          | none => .ok (.sof, bs)
        else .ok (.sof, bs)
      | none => .ok (.sof, bs)
    else
      match decodeAt st [] b with
      | .ok i => .ok (i, bs)
      | .error r => .error r

/-! ### The opcode table's words -/

/-- The low `n` bytes of a number, least significant first. -/
def bytesLE : Nat → Nat → List Byte
  | 0, _ => []
  | n + 1, w => BitVec.ofNat 8 w :: bytesLE n (w / 256)

/-- The bytes of a table word in wire order.  A one-byte row is its byte.  A longer row is a frame, and
the table writes it as one big-endian number (R72), so the start delimiter is its most significant byte;
a word whose LEAST significant byte is the start delimiter is read first byte lowest.  No body holds a
start delimiter, so the two readings never compete. -/
def tableBytes (nbits w : Nat) : List Byte :=
  let le := bytesLE (nbits / 8) w
  if le.head? = some chSof then le else le.reverse

/-- The bytes given to the decoder for a table word: a row longer than one byte gives a frame's bytes up
to its operand, and the terminator follows the (empty) operand (R72). -/
def tableStream (nbits w : Nat) : List Byte :=
  if nbits ≤ 8 then tableBytes nbits w else tableBytes nbits w ++ [chEof]

/-- The instruction the decoder reads from a table word.  A row names the parser state its byte has that
meaning in (R72): the `Idle` map is tried first, then the `Capturing` map. -/
def decodeTableWord (nbits w : Nat) : Option Instr :=
  match decode (Config.defaults.frameCap - 1) .idle (tableStream nbits w) with
  | .ok (i, _) => some i
  | .error _ =>
    match decode (Config.defaults.frameCap - 1) .capturing (tableStream nbits w) with
    | .ok (i, _) => some i
    | .error _ => none

/-! ### The encoder -/

/-- `$<BODY>#` (R60). -/
def frameBytes (body : List Byte) : List Byte := chSof :: (body ++ [chEof])

/-- The notification's bytes: the string and the line terminator (R69). -/
def notifyBytes (lineTerm : List Byte) : List Byte := litNotify ++ lineTerm

/-- The bytes of an instruction on the wire; `none` for an internal operation, which has no encoding
(R73). `NOTIFY` is written with the default line terminator. -/
def encode : Instr → Option (List Byte)
  | .legStop => some [opStop]
  | .legUp => some [opUp]
  | .legDown => some [opDown]
  | .sof => some [chSof]
  | .eof => some [chEof]
  | .fLifter operand => some (frameBytes (litLifter ++ operand))
  | .fGripOpen trailing => some (frameBytes (litGripOpen ++ trailing))
  | .fGripClose trailing => some (frameBytes (litGripClose ++ trailing))
  | .fGripPos operand => some (frameBytes (litGripPos ++ operand))
  | .notify => some (notifyBytes Config.defaults.lineTerm)
  | .rxqPush _ => none
  | .rxqPop => none
  | .cfpFeed _ => none
  | .pidInit _ _ _ _ _ _ _ _ _ _ => none
  | .pidCalc _ _ _ _ => none
  | .cmdDispatch _ => none
  | .cmdLiftSetDelta _ => none
  | .cmdLiftManual _ => none
  | .cmdLiftStop => none
  | .cmdGripperOpen => none
  | .cmdGripperClose => none
  | .cmdGripperSetPosition _ => none
  | .liftUpdate _ => none
  | .fsmEval _ => none
  | .encSample _ _ => none
  | .tickIrq => none
  | .mainStep _ _ => none
  | .tickService _ _ => none
  | .reset => none

/-- The parser state the first byte of an instruction needs (the table's "state" column): the legacy
opcodes are read while `Idle`, a plain terminator while `Capturing`, a start delimiter in both. -/
def decodableIn (st : CfpState) : Instr → Bool
  | .legStop => decide (st = .idle)
  | .legUp => decide (st = .idle)
  | .legDown => decide (st = .idle)
  | .sof => true
  | .eof => decide (st = .capturing)
  | .fLifter _ => true
  | .fGripOpen _ => true
  | .fGripClose _ => true
  | .fGripPos _ => true
  | .notify => false
  | .rxqPush _ => false
  | .rxqPop => false
  | .cfpFeed _ => false
  | .pidInit _ _ _ _ _ _ _ _ _ _ => false
  | .pidCalc _ _ _ _ => false
  | .cmdDispatch _ => false
  | .cmdLiftSetDelta _ => false
  | .cmdLiftManual _ => false
  | .cmdLiftStop => false
  | .cmdGripperOpen => false
  | .cmdGripperClose => false
  | .cmdGripperSetPosition _ => false
  | .liftUpdate _ => false
  | .fsmEval _ => false
  | .encSample _ _ => false
  | .tickIrq => false
  | .mainStep _ _ => false
  | .tickService _ _ => false
  | .reset => false

end Sys2Proof
end

