-- ==== Sys2Proof/Machine/Num.lean ====
section
/-! DEFINITION. `Num` arithmetic: IEEE 754 binary32, every operation rounded once to nearest, ties to
even, no fused operation (R9, D1, D2).

Each operation computes the exact result over the integers and narrows at the end.  A finite number is
an integer count of units of 2^(-149), the smallest binary32 step, so sums and products are exact
integer arithmetic and one function, `roundMag`, does all the rounding.  Infinities and NaNs follow
IEEE 754 (R9: "a model either carries IEEE infinities through `clamp` ... or refuses; both are
admitted"): this model carries them. -/

namespace Sys2Proof.Machine

/-- The sign bit. -/
def numSign (x : Num32) : Bool := decide (2 ^ 31 ≤ x.bits.toNat)

/-- Exponent and fraction fields as one number: the patterns of one sign are ordered by it. -/
def numMag (x : Num32) : Nat := x.bits.toNat % 2 ^ 31

/-- The magnitude field of infinity; a larger one is a NaN. -/
def infMag : Nat := 0x7F800000

/-- The datum with a sign and a magnitude field. -/
def mkNum (neg : Bool) (mag : Nat) : Num32 :=
  ⟨BitVec.ofNat 32 ((if neg then 2 ^ 31 else 0) + mag)⟩

def numIsFinite (x : Num32) : Bool := decide (numMag x < infMag)
def numIsInf (x : Num32) : Bool := decide (numMag x = infMag)
def numIsNaN (x : Num32) : Bool := decide (infMag < numMag x)
def numIsZero (x : Num32) : Bool := decide (numMag x = 0)

/-- The `Num` value zero, positive zero (R9). -/
def numZero : Num32 := ⟨0x00000000⟩
/-- The `Num` value one (R9). -/
def numOne : Num32 := ⟨0x3F800000⟩

/-- The magnitude of a finite number in units of 2^(-149). -/
def numUnits (x : Num32) : Nat :=
  if numMag x / 2 ^ 23 = 0 then numMag x % 2 ^ 23
  else (2 ^ 23 + numMag x % 2 ^ 23) * 2 ^ (numMag x / 2 ^ 23 - 1)

/-- A finite number in units of 2^(-149), exactly. -/
def numInt (x : Num32) : Int :=
  if numSign x then -(numUnits x : Int) else (numUnits x : Int)

/-- The rational `n / d` in the quantum 2^q, rounded to nearest, ties to even. -/
def roundQuot (n d : Nat) (q : Int) : Nat :=
  let num := n * 2 ^ (-q).toNat
  let den := d * 2 ^ q.toNat
  let m := num / den
  let r := num % den
  if den < 2 * r ∨ (2 * r = den ∧ m % 2 = 1) then m + 1 else m

/-- The binary exponent of the positive rational `n / d`, the `e` with 2^e ≤ n/d < 2^(e+1), held within
-126 (below it the spacing of the numbers no longer shrinks) and 128 (from there on every value rounds
out of range). -/
def ratExp (n d : Nat) : Int :=
  let e : Int := min (max ((n.log2 : Int) - (d.log2 : Int)) (-126)) 128
  if n * 2 ^ (-e).toNat < d * 2 ^ e.toNat then max (e - 1) (-126) else e

/-- The magnitude field of the binary32 nearest to `n / d`, ties to even (R9); `infMag` when the value
rounds out of range.  The significand (with its leading one) is added to the exponent field less one,
so that a carry out of the significand and the subnormal range need no case of their own. -/
def roundMag (n d : Nat) : Nat :=
  if n = 0 then 0
  else
    let e := ratExp n d
    min ((e + 126).toNat * 2 ^ 23 + roundQuot n d (e - 23)) infMag

/-- The NaN an invalid operation gives: a quiet NaN, its sign and payload free (`Config.nanBits`). -/
def numNaN (op : NumOp) (a b : Num32) : Num32 :=
  let f := Config.nanBits op a.bits b.bits
  mkNum (decide (2 ^ 22 ≤ f.toNat)) (0x7FC00000 + f.toNat % 2 ^ 22)

/-- `-a`: "sign flip, exact" (R9). -/
def numNeg (a : Num32) : Num32 := mkNum (!numSign a) (numMag a)

/-- `abs(a)`: "magnitude, exact" (R9). -/
def numAbs (a : Num32) : Num32 := mkNum false (numMag a)

/-- `a + b` (R9).  An exact zero sum is +0 unless both operands are negative (round to nearest). -/
def numAdd (a b : Num32) : Num32 :=
  if numIsNaN a ∨ numIsNaN b then numNaN .add a b
  else if numIsInf a then
    if numIsInf b ∧ numSign a ≠ numSign b then numNaN .add a b else a
  else if numIsInf b then b
  else
    let v := numInt a + numInt b
    if v = 0 then mkNum (numSign a && numSign b) 0
    else mkNum (decide (v < 0)) (roundMag v.natAbs (2 ^ 149))

/-- `a - b` (R9): the sum with the flipped operand, one rounding. -/
def numSub (a b : Num32) : Num32 := numAdd a (numNeg b)

/-- `a * b` (R9). -/
def numMul (a b : Num32) : Num32 :=
  if numIsNaN a ∨ numIsNaN b then numNaN .mul a b
  else if numIsInf a ∨ numIsInf b then
    if numIsZero a ∨ numIsZero b then numNaN .mul a b
    else mkNum (numSign a != numSign b) infMag
  else mkNum (numSign a != numSign b) (roundMag (numUnits a * numUnits b) (2 ^ 149 * 2 ^ 149))

/-- `a / b` (R9). -/
def numDiv (a b : Num32) : Num32 :=
  if numIsNaN a ∨ numIsNaN b then numNaN .div a b
  else if numIsInf a then
    if numIsInf b then numNaN .div a b else mkNum (numSign a != numSign b) infMag
  else if numIsInf b then mkNum (numSign a != numSign b) 0
  else if numIsZero b then
    if numIsZero a then numNaN .div a b else mkNum (numSign a != numSign b) infMag
  else mkNum (numSign a != numSign b) (roundMag (numUnits a) (numUnits b))

/-- The place of a number that is not a NaN in the numeric order: `-0` and `+0` share the place 0. -/
def numKey (x : Num32) : Int := if numSign x then -(numMag x : Int) else (numMag x : Int)

/-- `a < b` (R9): numeric comparison, false when an operand is a NaN. -/
def numLt (a b : Num32) : Bool :=
  !numIsNaN a && !numIsNaN b && decide (numKey a < numKey b)

/-- `a <= b` (R9). -/
def numLe (a b : Num32) : Bool :=
  !numIsNaN a && !numIsNaN b && decide (numKey a ≤ numKey b)

/-- `a = b` (R9): "`-0 = +0`". -/
def numEq (a b : Num32) : Bool :=
  !numIsNaN a && !numIsNaN b && decide (numKey a = numKey b)

/-- `clamp(x, lo, hi)` (R9). -/
def numClamp (x lo hi : Num32) : Num32 :=
  if numLt x lo then lo else if numLt hi x then hi else x

/-- `i2n(k)`: "the integer `k` rounded to `Num`, nearest even" (R9). -/
def i2n (k : Int) : Num32 := mkNum (decide (k < 0)) (roundMag k.natAbs 1)

/-- `dec2n` (R9) of the rational `n / d` with a sign kept apart, so that a negated zero is negative zero
(R94). -/
def dec2n (neg : Bool) (n d : Nat) : Num32 := mkNum neg (roundMag n d)

/-- `PID_INIT`'s legal values (R19, R112): every operand finite, the limits, the threshold and the dead
zone not negative, `alpha` in 0 to 1. -/
def pidOperandsFinite (kp ki kd outLimit intLimit alpha intThreshold deadZone : Num32) : Bool :=
  numIsFinite kp && numIsFinite ki && numIsFinite kd && numIsFinite outLimit && numIsFinite intLimit &&
    numIsFinite alpha && numIsFinite intThreshold && numIsFinite deadZone

def pidRangesLegal (outLimit intLimit alpha intThreshold deadZone : Num32) : Bool :=
  !numLt outLimit numZero && !numLt intLimit numZero && !numLt alpha numZero && !numLt numOne alpha &&
    !numLt intThreshold numZero && !numLt deadZone numZero

end Sys2Proof.Machine
end

