-- ==== Sys2Proof/Machine/State.lean ====
section
/-! DEFINITION. The state of the block: every field of R13's table, unit by unit, and beside them the
build parameters and the fields of the model's own (the environment's schedule, the output trace, the
value last returned, the counter of the free inputs).  Plain data throughout. -/

namespace Sys2Proof.Machine

/-- One of the two byte storages (R39): (index, byte) pairs, indices strictly rising, no pair whose byte
is the one an unlisted index reads as.  The width of an index is the storage's size. -/
abbrev Memory := List Host.Cell

/-- What an unlisted index reads as: `0x00`.  R30 leaves both storages unspecified at reset and U8 says
"a model may initialise them to zero without changing any behaviour".  DESIGN CHOICE, unsafe: log entry
1. -/
def blankByte : Byte := 0x00

/-- RXQ, the byte ring (R14). -/
structure Rxq where
  /-- `rxq.buf[0..RXQ_SIZE)` -/
  buf : Memory
  /-- `rxq.head`, the slot the producer writes next -/
  head : Nat
  /-- `rxq.tail`, the slot the consumer reads next -/
  tail : Nat
deriving DecidableEq, Repr

/-- CFP, the command frame parser (R15). -/
structure Cfp where
  /-- `cfp.state` -/
  st : CfpState
  /-- `cfp.buf[0..FRAME_CAP)` -/
  buf : Memory
  /-- `cfp.idx`, the write index -/
  idx : Nat
deriving DecidableEq, Repr

/-- `lift.man`, the manual direction last commanded (R16). -/
inductive ManualDir where
  | stop
  | up
  | down
deriving DecidableEq, Repr

/-- LIFT's registers and flags (R16, R18). -/
structure Lift where
  /-- `lift.pos`, the position sample of the current tick -/
  pos : Num32
  /-- `lift.delta`, the relative target last captured -/
  delta : Num32
  /-- `lift.pending`, the flag "target pending" -/
  pending : Bool
  /-- `lift.target`, the absolute target, valid while `lift.active` -/
  target : Num32
  /-- `lift.active`, the flag "an absolute target is outstanding" -/
  active : Bool
  /-- `lift.man` -/
  man : ManualDir
deriving DecidableEq, Repr

/-- `fsm.state` (R24). -/
inductive FsmState where
  | idle
  | moving
deriving DecidableEq, Repr

/-- One PID instance (R19, R21): eight configuration registers, three accumulators, and whether
`PID_INIT` has ever initialised it (R114 "refuse if never initialised"). -/
structure Pid where
  kp : Num32
  ki : Num32
  kd : Num32
  outLimit : Num32
  intLimit : Num32
  alpha : Num32
  intThreshold : Num32
  deadZone : Num32
  integral : Num32
  lastMeasured : Num32
  lastFiltered : Num32
  inited : Bool
deriving DecidableEq, Repr

/-- ENC's registers (R22).  The widths are parameters (R7), so the two integer registers are numbers; the
writers keep them in range and `stateInv` says so. -/
structure Enc where
  /-- `enc.cnt_last`, the raw counter at the previous sample: unsigned, `CNT_BITS` bits -/
  cntLast : Nat
  /-- `enc.acc`, the accumulated pulse count: signed two's complement, `ACC_BITS` bits -/
  acc : Int
  /-- `enc.pos`, the position -/
  pos : Num32
  /-- `enc.spd`, the speed -/
  spd : Num32
deriving DecidableEq, Repr

/-- SEQ's registers (R23, R18). -/
structure SeqRegs where
  /-- `seq.tick_flag` -/
  tickFlag : Bool
  /-- `seq.t_last`, the timestamp of the previous tick service: unsigned, `TS_BITS` bits -/
  tLast : Nat
deriving DecidableEq, Repr

/-- The actuator's direction (R37). -/
inductive Dir where
  | stop
  | forward
  | reverse
deriving DecidableEq, Repr

/-- Which hook of an FSM state (R37). -/
inductive HookKind where
  | exit
  | entry
deriving DecidableEq, Repr

/-- The output events (R37). -/
inductive OutEvent where
  | actDir (d : Dir)
  | gripOpen
  | gripClose
  | gripSetPos (p : Int)
  | notify (bytes : List Byte)
  | hook (k : HookKind) (s : FsmState)
deriving DecidableEq, Repr

/-- `MotionMode` (R11), a derived view and not a register (R25). -/
inductive MotionMode where
  | idle
  | manualUp
  | manualDown
  | automatic
deriving DecidableEq, Repr

/-- The value an operation returned to its invoker, when the operation was a step of its own: `RXQ_POP`
returns an optional byte (R45), `CFP_FEED` an optional command (R80), `PID_CALC` a `Num` (R110). -/
inductive Ret where
  | none
  | byte (b : Option Byte)
  | command (c : Option Command)
  | num (v : Num32)
deriving DecidableEq, Repr

/-- The state. -/
structure State where
  /-- the build parameters (R7): configuration, written by no operation -/
  cfg : Params
  /-- RXQ (R14) -/
  rxq : Rxq
  /-- CFP (R15) -/
  cfp : Cfp
  /-- LIFT (R16, R18) -/
  lift : Lift
  /-- FSM, `fsm.state` (R24) -/
  fsm : FsmState
  /-- the PID instances, `pid[i]` at place `i` (R19 to R21, R111): `N_PID` of them -/
  pid : List Pid
  /-- ENC (R22) -/
  enc : Enc
  /-- SEQ (R23, R18) -/
  seq : SeqRegs
  /-- the output trace, oldest event first (R37): an observation, read by no operation -/
  trace : List OutEvent
  /-- the model's own: the steps the environment makes happen next, soonest first (R50, R200) -/
  sched : List Event
  /-- the model's own: the value last returned to an invoker -/
  ret : Ret
  /-- the model's own: how many main-loop passes have taken free inputs -/
  inputN : Nat
deriving DecidableEq, Repr

/-- Why the machine stops with a fault.  The block itself "is never halted" and nothing in it traps
(R215, R207); both constructors are the access to a storage index that R39 says does not exist, which no
reachable state makes (R47 "always a legal index").  Both are safe: the model stops where no rule gives
an effect. -/
inductive Fault where
  /-- an access to `rxq.buf` at an index not below `RXQ_SIZE`; raised by `RXQ_PUSH` and `RXQ_POP`; safe -/
  | ringIndex (i : Nat)
  /-- an access to `cfp.buf` at an index not below `FRAME_CAP`; raised by `CFP_FEED`; safe -/
  | frameIndex (i : Nat)
deriving DecidableEq, Repr

/-- Why an operation is refused: each constructor but the first is one of the spec's own `refuse`
conditions (93_implementation_defined.md, U1 to U16; R9) or names an instance the spec does not give.  All
are safe: the spec gives no meaning there. -/
inductive Refusal where
  /-- an instruction of the opcode table without a meaning yet; raised by `exec`'s arm; safe -/
  | notModelled (mnemonic : String)
  /-- U1, D3: a `Num` operand, or a `Num` register the operation reads, is an infinity or a NaN (R9, R112,
  R124); raised by `PID_INIT`, `PID_CALC`, `ENC_SAMPLE`, `CMD_LIFT_SET_DELTA` and `LIFT_UPDATE` (there for
  `dt`, `enc.pos`, a pending `lift.delta` and an active `lift.target`); safe -/
  | nonFiniteOperand
  /-- R9: a `Num` of the configuration the operation uses, `DT_MIN` or `DT_MAX`, is not finite; raised by
  `PID_CALC` and `ENC_SAMPLE`; safe -/
  | parametersNotFinite
  /-- R124: an accumulator of the instance is an infinity or a NaN, left by an earlier overflow ("the next
  call is outside the contract"); raised by `PID_CALC`; safe -/
  | nonFiniteAccumulator
  /-- the index names no instance in `0..N_PID-1` (R19, R111); raised by `PID_INIT` and `PID_CALC`; safe -/
  | pidNoSuchInstance
  /-- U2: `PID_CALC` on an instance `PID_INIT` never initialised (R114); safe -/
  | pidUninitialised
  /-- U3: a PID configuration outside its legal values (R19, R20, R112); raised by `PID_INIT` and
  `PID_CALC`; safe -/
  | pidIllegalConfig
  /-- U5: a PID client invokes an instance that `CASCADE` gives to LIFT (R111); raised by `PID_INIT` and
  `PID_CALC`; safe -/
  | pidOwnedByLift
  /-- U6: `PULSE_PER_MM` is not finite or not greater than zero (R190); raised by `ENC_SAMPLE`; safe -/
  | pulseScaleIllegal
  /-- U7: `TOL` is negative or not finite; raised by `LIFT_UPDATE`; safe -/
  | toleranceIllegal
  /-- U16: `RXQ_SIZE` is below 2 or `FRAME_CAP` below 14; raised by the ring and parser operations; safe -/
  | storageIllegal
deriving DecidableEq, Repr

/-- A PID instance after reset: no register has a value the spec states (R30), so each holds zero, and
the instance is not initialised, so `PID_CALC` refuses it (U2).  DESIGN CHOICE: log entry 2. -/
def Pid.atReset : Pid where
  kp := ⟨0⟩
  ki := ⟨0⟩
  kd := ⟨0⟩
  outLimit := ⟨0⟩
  intLimit := ⟨0⟩
  alpha := ⟨0⟩
  intThreshold := ⟨0⟩
  deadZone := ⟨0⟩
  integral := ⟨0⟩
  lastMeasured := ⟨0⟩
  lastFiltered := ⟨0⟩
  inited := false

/-- The machine right after reset: R30's table, with the parameters at R7's values.  Fields R30 calls
unspecified hold zero (log entries 1 to 3); the schedule is empty and the trace is empty (R240). -/
def State.reset : State where
  cfg := Config.defaults
  rxq := { buf := [], head := 0, tail := 0 }
  cfp := { st := .idle, buf := [], idx := 0 }
  lift := { pos := ⟨0⟩, delta := ⟨0⟩, pending := false, target := ⟨0⟩, active := false, man := .stop }
  fsm := .idle
  pid := List.replicate Config.defaults.nPid Pid.atReset
  enc := { cntLast := 0, acc := 0, pos := ⟨0⟩, spd := ⟨0⟩ }
  seq := { tickFlag := false, tLast := 0 }
  trace := []
  sched := []
  ret := .none
  inputN := 0

end Sys2Proof.Machine
end

