-- ==== Sys2Proof/Machine/Ops.lean ====
section
/-! DEFINITION. The named operations over the byte storages, the registers and the output trace, and the
way an operation stops.

There is no operation that takes an exception and none that returns from one: "There is none: no state
is saved, no mode changes, no vector is fetched" (R226), "nothing is restored because nothing was saved"
(R227).  An interrupt is a step of its own (`RXQ_PUSH`, `TICK_IRQ`). -/

namespace Sys2Proof.Machine

/-- Why an operation of the block has no result. -/
inductive Stop where
  | fault (f : Fault)
  | refused (r : Refusal)
deriving DecidableEq, Repr

/-- The outcome of an operation that computes the next state. -/
def finish (r : Except Stop State) : Host.Outcome State Fault Refusal :=
  match r with
  | .ok s => .next s
  | .error (.fault f) => .fault f
  | .error (.refused r) => .refused r

/-- Sequencing: the second operation runs on the first one's result. -/
def andThen {α β : Type} (r : Except Stop α) (f : α → Except Stop β) : Except Stop β :=
  match r with
  | .ok a => f a
  | .error e => .error e

/-- An operation that runs only where a spec precondition holds (`refuse` of R8). -/
def refuseUnless {α : Type} (c : Bool) (why : Refusal) (k : Except Stop α) : Except Stop α :=
  if c then k else .error (.refused why)

/-! ### Integers of a width (R8) -/

/-- The low `w` bits of an unsigned number: what a field of `w` bits holds of it. -/
def lowBits (w v : Nat) : Nat := v % 2 ^ w

/-- `k mod 2^w`, the non-negative remainder (R8). -/
def modPow (w : Nat) (k : Int) : Nat := (k % 2 ^ w).toNat

/-- `sext_w(v)`: the `w`-bit pattern `v` as a two's complement signed integer (R8): patterns from
`2^(w-1)` on are negative.  Compared twofold, so that a width of 0 is no special case. -/
def sextN (w v : Nat) : Int := if 2 * v < 2 ^ w then (v : Int) else (v : Int) - 2 ^ w

/-- `k` is a signed `w`-bit integer: `-2^(w-1) <= k <= 2^(w-1) - 1` (R66), compared twofold. -/
def inSigned (w : Nat) (k : Int) : Bool := decide (-(2 ^ w) ≤ 2 * k) && decide (2 * k < 2 ^ w)

/-! ### The byte storages (R39, R40) -/

/-- The byte at an index. -/
def memRead : Memory → Nat → Byte
  | [], _ => blankByte
  | (i, b) :: m, a => if i = a then b else memRead m a

/-- Removes the entry of an index, if there is one. -/
def memErase (a : Nat) : Memory → Memory
  | [] => []
  | (i, b) :: m => if i = a then m else (i, b) :: memErase a m

/-- Puts an entry in its place in the rising order, over the entry of that index if there is one. -/
def memInsert (a : Nat) (v : Byte) : Memory → Memory
  | [] => [(a, v)]
  | (i, b) :: m =>
    if a < i then (a, v) :: (i, b) :: m
    else if a = i then (a, v) :: m
    else (i, b) :: memInsert a v m

/-- Stores a byte, keeping the canonical form: a store of what the index already reads as leaves the
list as it is, and a store of the blank byte removes the entry. -/
def memWrite (m : Memory) (a : Nat) (v : Byte) : Memory :=
  if memRead m a = v then m
  else if v = blankByte then memErase a m
  else memInsert a v m

/-- Every index of a storage is below `n`. -/
def memBelow (n : Nat) (m : Memory) : Bool := m.all fun c => decide (c.1 < n)

/-- The canonical form: indices strictly rising, no blank entry. -/
def memWf : Memory → Bool
  | [] => true
  | (i, b) :: m => decide (b ≠ blankByte) && m.all (fun c => decide (i < c.1)) && memWf m

/-- The bytes `buf[0..n)`. -/
def memSlice (m : Memory) (n : Nat) : List Byte := (List.range n).map (memRead m)

/-- Stores the bytes of a list from an index on. -/
def memWriteList : Memory → Nat → List Byte → Memory
  | m, _, [] => m
  | m, a, b :: bs => memWriteList (memWrite m a b) (a + 1) bs

/-! ### The parameters -/

/-- `MAX_BODY` = `FRAME_CAP - 1` (R7). -/
def maxBody (cfg : Params) : Nat := cfg.frameCap - 1

/-- U16: the ring has at least 2 slots and the frame buffer at least 14 bytes. -/
def storageOk (cfg : Params) : Bool := decide (2 ≤ cfg.rxqSize) && decide (14 ≤ cfg.frameCap)

/-- U7: `TOL` is finite and not negative. -/
def tolOk (cfg : Params) : Bool := numIsFinite cfg.tol && !numLt cfg.tol numZero

/-- R9: the bounds of the time step, a configuration of `PID_CALC` and `ENC_SAMPLE`, are finite. -/
def dtBoundsFinite (cfg : Params) : Bool := numIsFinite cfg.dtMin && numIsFinite cfg.dtMax

/-- `PULSE_PER_MM`: the build's value, the free value where the build leaves it open (R7, D31). -/
def pulsePerMm (cfg : Params) : Num32 :=
  match cfg.pulsePerMm with
  | some v => v
  | none => Config.openPulsePerMm

/-- U6: `PULSE_PER_MM` is finite and greater than zero (R190). -/
def pulseOk (cfg : Params) : Bool := numIsFinite (pulsePerMm cfg) && numLt numZero (pulsePerMm cfg)

/-! ### Register access: one writer per unit -/

def setRxq (r : Rxq) (s : State) : State := { s with rxq := r }
def setCfp (c : Cfp) (s : State) : State := { s with cfp := c }
def setLift (l : Lift) (s : State) : State := { s with lift := l }
def setFsm (f : FsmState) (s : State) : State := { s with fsm := f }
def setEnc (e : Enc) (s : State) : State := { s with enc := e }
def setSeq (q : SeqRegs) (s : State) : State := { s with seq := q }
def setRet (r : Ret) (s : State) : State := { s with ret := r }
def setSched (es : List Event) (s : State) : State := { s with sched := es }
def setInputN (n : Nat) (s : State) : State := { s with inputN := n }

/-- There is an instance `i` (R111: `i` in `0..N_PID-1`). -/
def hasPid (i : Nat) (s : State) : Bool := decide (i < s.pid.length)

/-- `pid[i]` (R19, R21); an index without an instance reads as a register file after reset, and no
operation reads it there (`hasPid`). -/
def getPid (i : Nat) (s : State) : Pid := s.pid.getD i Pid.atReset

/-- Writes instance `i` and no other ("never shared across loops", R19). -/
def setPid (i : Nat) (p : Pid) (s : State) : State := { s with pid := s.pid.set i p }

/-- `emit E`: "appends the output event to the block's output trace" (R8, R37). -/
def emit (e : OutEvent) (s : State) : State := { s with trace := s.trace ++ [e] }

/-! ### RXQ (R44, R45) -/

/-- The index after `i` in a ring of `n` slots. -/
def ringNext (n i : Nat) : Nat := (i + 1) % n

/-- How many bytes the ring holds: `(head - tail) mod RXQ_SIZE` (R14). -/
def ringCount (cfg : Params) (r : Rxq) : Nat := (r.head + cfg.rxqSize - r.tail) % cfg.rxqSize

/-- The queued bytes, the next one to be popped first (R14, R48). -/
def ringBytes (cfg : Params) (r : Rxq) : List Byte :=
  (List.range (ringCount cfg r)).map fun k => memRead r.buf ((r.tail + k) % cfg.rxqSize)

/-- `RXQ_PUSH(b)` (R44): dropped without a signal when the ring is full (ERR4, R219). -/
def rxqPush (cfg : Params) (b : Byte) (r : Rxq) : Except Stop Rxq :=
  if ringNext cfg.rxqSize r.head = r.tail then .ok r
  else if r.head < cfg.rxqSize then
    .ok { r with buf := memWrite r.buf r.head b, head := ringNext cfg.rxqSize r.head }
  else .error (.fault (.ringIndex r.head))

/-- `RXQ_POP` (R45). -/
def rxqPop (cfg : Params) (r : Rxq) : Except Stop (Option Byte × Rxq) :=
  if r.head = r.tail then .ok (none, r)
  else if r.tail < cfg.rxqSize then
    .ok (some (memRead r.buf r.tail), { r with tail := ringNext cfg.rxqSize r.tail })
  else .error (.fault (.ringIndex r.tail))

end Sys2Proof.Machine
end

