-- ==== Sys2Proof/Machine/Pid.lean ====
section
/-! DEFINITION. The PID unit: `PID_INIT` and `PID_CALC` (R110 to R124), one function for each stage of
the datapath, evaluated exactly as R114 writes it. -/

namespace Sys2Proof.Machine

/-- S1 (R115): the time step clamped to `[DT_MIN, DT_MAX]`. -/
def clampDt (cfg : Params) (dt : Num32) : Num32 := numClamp dt cfg.dtMin cfg.dtMax

/-- S4 (R117): the raw derivative, on the measurement. -/
def pidRaw (p : Pid) (measured dtc : Num32) : Num32 :=
  numNeg (numDiv (numSub measured p.lastMeasured) dtc)

/-- S5 (R118): the low-pass filter. -/
def pidFilt (p : Pid) (raw : Num32) : Num32 :=
  numAdd (numMul p.alpha raw) (numMul (numSub numOne p.alpha) p.lastFiltered)

/-- S6 and S7 (R119): the accumulation and its clamp. -/
def pidAccum (p : Pid) (e dtc : Num32) : Num32 :=
  numClamp (numAdd p.integral (numMul e dtc)) (numNeg p.intLimit) p.intLimit

/-- S8 (R120): integral separation. -/
def pidSeparate (p : Pid) (e acc : Num32) : Num32 :=
  if !numEq p.intThreshold numZero && numLt p.intThreshold (numAbs e) then numZero else acc

/-- S9 (R121): the three-term sum, taken left to right. -/
def pidSum (p : Pid) (e acc filt : Num32) : Num32 :=
  numAdd (numAdd (numMul p.kp e) (numMul p.ki acc)) (numMul p.kd filt)

/-- S10 (R121): the output clamp. -/
def pidOut (p : Pid) (u : Num32) : Num32 := numClamp u (numNeg p.outLimit) p.outLimit

/-- `PID_CALC` (R114), stages S1 to S11, where the preconditions hold: the result, and the instance
after the commit. -/
def pidStages (cfg : Params) (p : Pid) (target measured dt : Num32) : Num32 × Pid :=
  let dtc := clampDt cfg dt
  let e := numSub target measured
  if numLt (numAbs e) p.deadZone then (numZero, p)
  else
    let filt := pidFilt p (pidRaw p measured dtc)
    let acc := pidSeparate p e (pidAccum p e dtc)
    (pidOut p (pidSum p e acc filt),
      { p with integral := acc, lastMeasured := measured, lastFiltered := filt })

/-- The instance's configuration is in its legal values (R19, R20). -/
def pidConfigLegal (p : Pid) : Bool :=
  pidOperandsFinite p.kp p.ki p.kd p.outLimit p.intLimit p.alpha p.intThreshold p.deadZone &&
    pidRangesLegal p.outLimit p.intLimit p.alpha p.intThreshold p.deadZone

/-- The instance's accumulators are finite (R124). -/
def pidAccumulatorsFinite (p : Pid) : Bool :=
  numIsFinite p.integral && numIsFinite p.lastMeasured && numIsFinite p.lastFiltered

/-- `PID_CALC` on one instance with its preconditions (R114, R124, U1 to U3; R9 for the bounds of the time
step). -/
def pidCalc (cfg : Params) (p : Pid) (target measured dt : Num32) : Except Stop (Num32 × Pid) :=
  refuseUnless p.inited .pidUninitialised <|
  refuseUnless (pidConfigLegal p) .pidIllegalConfig <|
  refuseUnless (dtBoundsFinite cfg) .parametersNotFinite <|
  refuseUnless (numIsFinite target && numIsFinite measured && numIsFinite dt) .nonFiniteOperand <|
  refuseUnless (pidAccumulatorsFinite p) .nonFiniteAccumulator <|
  .ok (pidStages cfg p target measured dt)

/-- `PID_INIT` on one instance (R112): the eight registers written, the three accumulators zeroed. -/
def pidInit (kp ki kd outLimit intLimit alpha intThreshold deadZone : Num32) : Except Stop Pid :=
  refuseUnless (pidOperandsFinite kp ki kd outLimit intLimit alpha intThreshold deadZone)
    .nonFiniteOperand <|
  refuseUnless (pidRangesLegal outLimit intLimit alpha intThreshold deadZone) .pidIllegalConfig <|
  .ok
    { kp := kp, ki := ki, kd := kd, outLimit := outLimit, intLimit := intLimit, alpha := alpha
      intThreshold := intThreshold, deadZone := deadZone
      integral := numZero, lastMeasured := numZero, lastFiltered := numZero, inited := true }

/-- LIFT invokes the instance, and only LIFT (R111): instance 0 with `CASCADE` = `POS`, both with
`POS_SPD`. -/
def ownedByLift (c : Cascade) (i : Nat) : Bool :=
  match c with
  | .off => false
  | .pos => decide (i = pidPos)
  | .posSpd => decide (i = pidPos) || decide (i = pidSpd)

/-- The invoker may touch the instance (R111, U5): its owner always, a client one that LIFT does not
own. -/
def mayInvoke (who : Invoker) (c : Cascade) (i : Nat) : Bool :=
  match who with
  | .owner => true
  | .client => !ownedByLift c i

/-- `PID_INIT` (R112). -/
def execPidInit (who : Invoker) (i : Nat)
    (kp ki kd outLimit intLimit alpha intThreshold deadZone : Num32) (s : State) :
    Host.Outcome State Fault Refusal :=
  finish <|
    refuseUnless (hasPid i s) .pidNoSuchInstance <|
    refuseUnless (mayInvoke who s.cfg.cascade i) .pidOwnedByLift <|
    andThen (pidInit kp ki kd outLimit intLimit alpha intThreshold deadZone) fun p =>
      .ok (setPid i p s)

/-- `PID_CALC` as a step of a PID client (R114, R111): the result goes to the client. -/
def execPidCalc (i : Nat) (target measured dt : Num32) (s : State) :
    Host.Outcome State Fault Refusal :=
  finish <|
    refuseUnless (hasPid i s) .pidNoSuchInstance <|
    refuseUnless (mayInvoke .client s.cfg.cascade i) .pidOwnedByLift <|
    andThen (pidCalc s.cfg (getPid i s) target measured dt) fun r =>
      .ok (setRet (.num r.1) (setPid i r.2 s))

end Sys2Proof.Machine
end

