-- ==== Sys2Proof/Machine/Encoder.lean ====
section
/-! DEFINITION. The encoder position accumulator and velocity estimator: `ENC_SAMPLE` (R187 to R191). -/

namespace Sys2Proof.Machine

/-- The wrap-aware delta `d` (R188): the difference of two samples modulo `2^CNT_BITS`, read as two's
complement. -/
def encDelta (cfg : Params) (cntLast cnt : Nat) : Int :=
  sextN cfg.cntBits (modPow cfg.cntBits ((cnt : Int) - cntLast))

/-- The accumulator after a delta (R189): wraps silently modulo `2^ACC_BITS`. -/
def encAccum (cfg : Params) (acc d : Int) : Int := sextN cfg.accBits (modPow cfg.accBits (acc + d))

/-- The position (R190). -/
def encPos (cfg : Params) (acc : Int) : Num32 := numDiv (i2n acc) (pulsePerMm cfg)

/-- The speed (R191). -/
def encSpd (cfg : Params) (d : Int) (dt : Num32) : Num32 :=
  numDiv (numDiv (i2n d) (pulsePerMm cfg)) (clampDt cfg dt)

/-- ENC's registers after a sample (R187); of a sample that does not fit its width the low bits are read
(log entry 20). -/
def encStages (cfg : Params) (cnt : Nat) (dt : Num32) (e : Enc) : Enc :=
  let d := encDelta cfg e.cntLast cnt
  let acc := encAccum cfg e.acc d
  { cntLast := lowBits cfg.cntBits cnt, acc := acc, pos := encPos cfg acc, spd := encSpd cfg d dt }

/-- `ENC_SAMPLE(cnt, dt)` (R187): total for every `cnt`, every finite `dt` and every finite
`PULSE_PER_MM > 0`; the bounds of the time step are finite (R9). -/
def encSample (cnt : Nat) (dt : Num32) (s : State) : Except Stop State :=
  refuseUnless (pulseOk s.cfg) .pulseScaleIllegal <|
  refuseUnless (dtBoundsFinite s.cfg) .parametersNotFinite <|
  refuseUnless (numIsFinite dt) .nonFiniteOperand <|
  .ok (setEnc (encStages s.cfg cnt dt s.enc) s)

/-- `ENC_SAMPLE` (R187). -/
def execEncSample (cnt : Nat) (dt : Num32) (s : State) : Host.Outcome State Fault Refusal :=
  finish (encSample cnt dt s)

end Sys2Proof.Machine
end

