-- ==== Sys2Proof/Machine/Fsm.lean ====
section
/-! DEFINITION. The supervisory state machine (R170 to R177). -/

namespace Sys2Proof.Machine

/-- The transition table (R170, R171). -/
def fsmNext (f : FsmState) (exceeds : Bool) : FsmState :=
  match f, exceeds with
  | .idle, true => .moving
  | .moving, false => .idle
  | .idle, false => .idle
  | .moving, true => .moving

/-- `FSM_EVAL(exceeds)` (R171): exit hook, switch, entry hook when the state changes; nothing when it
does not. -/
def fsmEval (exceeds : Bool) (s : State) : State :=
  let nxt := fsmNext s.fsm exceeds
  if nxt = s.fsm then s
  else emit (.hook .entry nxt) (setFsm nxt (emit (.hook .exit s.fsm) s))

/-- `FSM_EVAL` (R171). -/
def execFsmEval (exceeds : Bool) (s : State) : Host.Outcome State Fault Refusal :=
  .next (fsmEval exceeds s)

end Sys2Proof.Machine
end

