-- ==== Sys2Proof/Machine/Flags.lean ====
section
/-! DEFINITION. The block's three one-bit flags (R18).  "There are no condition codes: no operation sets
a flag as a side effect of arithmetic"; each flag has the writers R18 lists, and each writer is one
function here. -/

namespace Sys2Proof.Machine

/-- `seq.tick_flag <- true` (R202). -/
def raiseTick (q : SeqRegs) : SeqRegs := { q with tickFlag := true }

/-- `seq.tick_flag <- false` (R203). -/
def clearTick (q : SeqRegs) : SeqRegs := { q with tickFlag := false }

/-- `CMD_LIFT_SET_DELTA`: "captures `delta` and raises a 'target pending' flag" (R142). -/
def pendTarget (v : Num32) (l : Lift) : Lift := { l with delta := v, pending := true }

/-- `lift.pending <- false; lift.active <- false`: a stop that cancels the target (R144). -/
def cancelTarget (l : Lift) : Lift := { l with pending := false, active := false }

/-- Step 2 of `LIFT_UPDATE`: the pending delta becomes an absolute target, once (R145, R146). -/
def convertTarget (l : Lift) : Lift :=
  if l.pending then
    { l with target := numAdd l.pos l.delta, active := true, pending := false, delta := numZero }
  else l

/-- `lift.active <- false`: arrival (R151). -/
def clearTarget (l : Lift) : Lift := { l with active := false }

end Sys2Proof.Machine
end

