-- ==== Sys2Proof/Machine/Operands.lean ====
section
/-! DEFINITION. The operand forms of the wire: the numerals `DEC` and `INT` (R65, R66, R94, R97), the
effective body (R92) and the match of a body against the recognised literals (R90). -/

namespace Sys2Proof.Machine

/-- The digit a byte spells (R65 `DIGIT`). -/
def digitOf (b : Byte) : Option Nat :=
  if 0x30 ≤ b.toNat ∧ b.toNat ≤ 0x39 then some (b.toNat - 0x30) else none

/-- A leading `'+'` or `'-'` (R65 `SIGN?`): whether the numeral is negated, and the bytes after it. -/
def splitSign : List Byte → Bool × List Byte
  | [] => (false, [])
  | b :: bs => if b = 0x2D then (true, bs) else if b = 0x2B then (false, bs) else (false, b :: bs)

/-- The digits that begin a byte string, as (value, count), and the bytes after them; `acc` holds what
came before. -/
def splitDigits : Nat × Nat → List Byte → (Nat × Nat) × List Byte
  | acc, [] => (acc, [])
  | acc, b :: bs =>
    match digitOf b with
    | some d => splitDigits (acc.1 * 10 + d, acc.2 + 1) bs
    | none => (acc, b :: bs)

/-- The exact value a `DEC` numeral spells, as sign and decimal fraction `n / d` (R65):
`SIGN? DIGITS ('.' DIGITS)?`, and nothing after it. -/
def decValue (t : List Byte) : Option (Bool × Nat × Nat) :=
  let (neg, t1) := splitSign t
  let (intPart, t2) := splitDigits (0, 0) t1
  if intPart.2 = 0 then none
  else
    match t2 with
    | [] => some (neg, intPart.1, 1)
    | b :: t3 =>
      if b = 0x2E then
        let (all, t4) := splitDigits (intPart.1, 0) t3
        if all.2 = 0 then none
        else if t4 = [] then some (neg, all.1, 10 ^ all.2)
        else none
      else none

/-- `PARSE_DEC(t)` (R94): none when the grammar fails or the value rounds to infinity. -/
def parseDec (t : List Byte) : Option Num32 :=
  match decValue t with
  | none => none
  | some (neg, n, d) =>
    let v := dec2n neg n d
    if numIsFinite v then some v else none

/-- The exact value an `INT` numeral spells (R66): `SIGN? DIGITS`, and nothing after it. -/
def intValue (t : List Byte) : Option Int :=
  let (neg, t1) := splitSign t
  let (digits, t2) := splitDigits (0, 0) t1
  if digits.2 = 0 then none
  else if t2 = [] then some (if neg then -(digits.1 : Int) else (digits.1 : Int))
  else none

/-- `PARSE_INT(t)` (R97), `w` = `GRIP_POS_BITS`: none when the grammar fails or the value is out of the
signed range. -/
def parseInt (w : Nat) (t : List Byte) : Option Int :=
  match intValue t with
  | none => none
  | some k => if inSigned w k then some k else none

/-- `eff(body)`: "the longest prefix of body that contains no `0x00` byte" (R92). -/
def effBody (body : List Byte) : List Byte := body.takeWhile fun b => decide (b ≠ 0x00)

/-- `grip_match(s, p)` (R90). -/
def gripMatch (m : BodyMatch) (s lit : List Byte) : Bool :=
  match m with
  | .byPrefix => (stripLit lit s).isSome
  | .byWhole => decide (s = lit)

/-- `MATCH(body)` on the effective body (R90). -/
def matchEff (cfg : Params) (s : List Byte) : Option Command :=
  match stripLit litLifter s with
  | some t => (parseDec t).map Command.liftSetDelta
  | none =>
    if gripMatch cfg.bodyMatch s litGripOpen then some .gripperOpen
    else if gripMatch cfg.bodyMatch s litGripClose then some .gripperClose
    else
      match stripLit litGripPos s with
      | some t => (parseInt cfg.gripPosBits t).map Command.gripperSetPosition
      | none => none

/-- `MATCH(body)` (R90). -/
def matchBody (cfg : Params) (body : List Byte) : Option Command := matchEff cfg (effBody body)

end Sys2Proof.Machine
end

