-- ==== Sys2Proof/Machine/Parser.lean ====
section
/-! DEFINITION. The command frame parser: `CFP_FEED` (R81). -/

namespace Sys2Proof.Machine

/-- `CFP_FEED(b)` on the parser's own state (R81), arm by arm. -/
def cfpFeed (cfg : Params) (b : Byte) (c : Cfp) : Except Stop (Option Command × Cfp) :=
  match c.st with
  | .idle =>
    if b = chSof then .ok (none, { c with st := .capturing, idx := 0 })
    else if b = opStop then .ok (some .liftStop, c)
    else if b = opUp then .ok (some (.liftManual .up), c)
    else if b = opDown then .ok (some (.liftManual .down), c)
    else .ok (none, c)
  | .capturing =>
    if b = chSof then .ok (none, { c with idx := 0 })
    else if b = chEof then
      if c.idx < cfg.frameCap then
        let buf := memWrite c.buf c.idx 0x00
        .ok (matchBody cfg (memSlice buf c.idx), { st := .idle, buf := buf, idx := 0 })
      else .error (.fault (.frameIndex c.idx))
    else if c.idx < maxBody cfg then
      .ok (none, { c with buf := memWrite c.buf c.idx b, idx := c.idx + 1 })
    else .ok (none, { c with st := .idle, idx := 0 })

/-- `CFP_FEED(b)` on the whole state. -/
def feedByte (b : Byte) (s : State) : Except Stop (Option Command × State) :=
  refuseUnless (storageOk s.cfg) .storageIllegal
    (andThen (cfpFeed s.cfg b s.cfp) fun p => .ok (p.1, setCfp p.2 s))

/-- `CFP_FEED(b)` (R81): the command, if any, goes to the invoker. -/
def execCfpFeed (b : Byte) (s : State) : Host.Outcome State Fault Refusal :=
  finish (andThen (feedByte b s) fun p => .ok (setRet (.command p.1) p.2))

end Sys2Proof.Machine
end

