-- ==== Sys2Proof/Machine/Command.lean ====
section
/-! DEFINITION. What each decoded command does (R141 to R144, R153 to R155). -/

namespace Sys2Proof.Machine

/-- The manual direction a command sets (R143). -/
def manualOf : UpDown → ManualDir
  | .up => .up
  | .down => .down

/-- `CMD_LIFT_SET_DELTA(v)` (R142), `v` finite (R9, R70). -/
def liftSetDelta (v : Num32) (s : State) : Except Stop State :=
  refuseUnless (numIsFinite v) .nonFiniteOperand (.ok (setLift (pendTarget v s.lift) s))

/-- `CMD_LIFT_MANUAL(d)` (R143). -/
def liftManual (d : UpDown) (s : State) : State := setLift { s.lift with man := manualOf d } s

/-- `CMD_LIFT_STOP()` (R144). -/
def liftStop (s : State) : State :=
  let l := { s.lift with man := .stop }
  setLift (if s.cfg.stopCancelsTarget then cancelTarget l else l) s

/-- `CMD_GRIPPER_SET_POSITION(p)` (R155): `p`, a signed `GRIP_POS_BITS`-bit integer, is passed on
unchanged; of a number that does not fit the low bits are read (log entry 20). -/
def gripSetPosition (p : Int) (s : State) : State :=
  emit (.gripSetPos (sextN s.cfg.gripPosBits (modPow s.cfg.gripPosBits p))) s

/-- `CMD_DISPATCH(c)` (R141). -/
def dispatchCommand (c : Command) (s : State) : Except Stop State :=
  match c with
  | .liftManual d => .ok (liftManual d s)
  | .liftStop => .ok (liftStop s)
  | .liftSetDelta v => liftSetDelta v s
  | .gripperOpen => .ok (emit .gripOpen s)
  | .gripperClose => .ok (emit .gripClose s)
  | .gripperSetPosition p => .ok (gripSetPosition p s)

/-- One byte taken as `MAIN_STEP` takes it: fed to the parser, and the command it completes, if any,
dispatched in the same step (R203). -/
def consumeByte (b : Byte) (s : State) : Except Stop State :=
  andThen (feedByte b s) fun p =>
    match p.1 with
    | some c => dispatchCommand c p.2
    | none => .ok p.2

/-- Bytes taken one after another. -/
def consumeBytes : List Byte → State → Except Stop State
  | [], s => .ok s
  | b :: bs, s => andThen (consumeByte b s) fun s' => consumeBytes bs s'

/-- `CMD_DISPATCH(c)` (R141). -/
def execCmdDispatch (c : Command) (s : State) : Host.Outcome State Fault Refusal :=
  finish (dispatchCommand c s)

/-- `CMD_LIFT_SET_DELTA(v)` (R142). -/
def execCmdLiftSetDelta (v : Num32) (s : State) : Host.Outcome State Fault Refusal :=
  finish (liftSetDelta v s)

/-- `CMD_LIFT_MANUAL(d)` (R143). -/
def execCmdLiftManual (d : UpDown) (s : State) : Host.Outcome State Fault Refusal :=
  .next (liftManual d s)

/-- `CMD_LIFT_STOP()` (R144). -/
def execCmdLiftStop (s : State) : Host.Outcome State Fault Refusal := .next (liftStop s)

/-- `CMD_GRIPPER_OPEN()` (R153). -/
def execCmdGripperOpen (s : State) : Host.Outcome State Fault Refusal := .next (emit .gripOpen s)

/-- `CMD_GRIPPER_CLOSE()` (R154). -/
def execCmdGripperClose (s : State) : Host.Outcome State Fault Refusal := .next (emit .gripClose s)

/-- `CMD_GRIPPER_SET_POSITION(p)` (R155). -/
def execCmdGripperSetPosition (p : Int) (s : State) : Host.Outcome State Fault Refusal :=
  .next (gripSetPosition p s)

end Sys2Proof.Machine
end

