-- ==== Sys2Proof/Machine/Wire.lean ====
section
/-! DEFINITION. The meanings of the wire commands and of the notification.

A wire command is carried out by the parser taking its bytes in order, as `MAIN_STEP` takes them one by
one (R81, R203): its legal parser state, its corner cases in the other state (a legacy byte inside a
frame is content, R87; a terminator while `Idle` is ignored, R89) and its command all follow from that.
A frame instruction stands for the whole frame from its start delimiter to its terminator; at the byte
that completes the frame the body is already captured, and taking it again changes nothing. -/

namespace Sys2Proof.Machine

/-- `LEG_STOP` (R82). -/
def execLegStop (s : State) : Host.Outcome State Fault Refusal := finish (consumeByte opStop s)

/-- `LEG_UP` (R83). -/
def execLegUp (s : State) : Host.Outcome State Fault Refusal := finish (consumeByte opUp s)

/-- `LEG_DOWN` (R84). -/
def execLegDown (s : State) : Host.Outcome State Fault Refusal := finish (consumeByte opDown s)

/-- `SOF` (R85). -/
def execSof (s : State) : Host.Outcome State Fault Refusal := finish (consumeByte chSof s)

/-- `EOF` (R86). -/
def execEof (s : State) : Host.Outcome State Fault Refusal := finish (consumeByte chEof s)

/-- `F_LIFTER` (R93). -/
def execFLifter (operand : List Byte) (s : State) : Host.Outcome State Fault Refusal :=
  finish (consumeBytes (frameBytes (litLifter ++ operand)) s)

/-- `F_GRIP_OPEN` (R95). -/
def execFGripOpen (trailing : List Byte) (s : State) : Host.Outcome State Fault Refusal :=
  finish (consumeBytes (frameBytes (litGripOpen ++ trailing)) s)

/-- `F_GRIP_CLOSE` (R96). -/
def execFGripClose (trailing : List Byte) (s : State) : Host.Outcome State Fault Refusal :=
  finish (consumeBytes (frameBytes (litGripClose ++ trailing)) s)

/-- `F_GRIP_POS` (R98). -/
def execFGripPos (operand : List Byte) (s : State) : Host.Outcome State Fault Refusal :=
  finish (consumeBytes (frameBytes (litGripPos ++ operand)) s)

/-- The arrival notification (R152). -/
def notifyArrival (s : State) : State := emit (.notify (notifyBytes s.cfg.lineTerm)) s

/-- `NOTIFY` (R152): the one message the block sends. -/
def execNotify (s : State) : Host.Outcome State Fault Refusal := .next (notifyArrival s)

end Sys2Proof.Machine
end

