-- ==== Sys2Proof/Machine/Lift.lean ====
section
/-! DEFINITION. The lift controller's tick: `LIFT_UPDATE` (R146) and its branches, and the derived view
`MotionMode` (R25). -/

namespace Sys2Proof.Machine

/-- `mode(s)` (R25). -/
def motionMode (l : Lift) : MotionMode :=
  match l.man with
  | .up => .manualUp
  | .down => .manualDown
  | .stop => if l.pending || l.active then .automatic else .idle

/-- `dir_of` (R146), as `DIR_MAP` gives it (R7, D11); no direction where nothing is commanded. -/
def dirOf (m : DirMap) (d : ManualDir) : Option Dir :=
  match d, m with
  | .stop, _ => none
  | .up, .upForward => some .forward
  | .up, .upReverse => some .reverse
  | .down, .upForward => some .reverse
  | .down, .upReverse => some .forward

/-- `sign3(u)` (R149). -/
def sign3 (u : Num32) : Dir :=
  if numLt numZero u then .forward else if numLt u numZero then .reverse else .stop

/-- `PID_CALC` by LIFT on an instance it owns (R149). -/
def liftPid (i : Nat) (target measured dt : Num32) (s : State) : Except Stop (Num32 × State) :=
  refuseUnless (hasPid i s) .pidNoSuchInstance <|
  andThen (pidCalc s.cfg (getPid i s) target measured dt) fun r => .ok (r.1, setPid i r.2 s)

/-- `SEEK(err, dt)` (R148, R149). -/
def seek (err dt : Num32) (s : State) : Except Stop (Dir × State) :=
  match s.cfg.cascade with
  | .off => .ok (if numLt numZero err then .forward else .reverse, s)
  | .pos =>
    andThen (liftPid pidPos s.lift.target s.lift.pos dt s) fun r => .ok (sign3 r.1, r.2)
  | .posSpd =>
    andThen (liftPid pidPos s.lift.target s.lift.pos dt s) fun r =>
      andThen (liftPid pidSpd r.1 s.enc.spd dt r.2) fun q => .ok (sign3 q.1, q.2)

/-- Steps 1 and 2 of `LIFT_UPDATE` (R145): the position sample, then the conversion of a pending delta. -/
def liftSample (s : State) : State :=
  setLift (convertTarget { s.lift with pos := s.enc.pos }) s

/-- Step 4, arrival (R151). -/
def liftArrive (s : State) : State :=
  let s' := notifyArrival (emit (.actDir .stop) (fsmEval false s))
  setLift (clearTarget s'.lift) s'

/-- Step 5, the idle hold (R150). -/
def liftHold (s : State) : State := emit (.actDir .stop) (fsmEval false s)

/-- Step 4, seeking (R148, R149). -/
def liftSeek (err dt : Num32) (s : State) : Except Stop State :=
  andThen (seek err dt (fsmEval true s)) fun r => .ok (emit (.actDir r.1) r.2)

/-- The error of an active target (R146 step 4). -/
def liftError (l : Lift) : Num32 := numSub l.target l.pos

/-- Steps 3 to 5 of `LIFT_UPDATE` (R146): manual override, then an active target, then the idle hold. -/
def liftDecide (dt : Num32) (s : State) : Except Stop State :=
  match dirOf s.cfg.dirMap s.lift.man with
  | some d => .ok (emit (.actDir d) s)
  | none =>
    if s.lift.active then
      if numLt s.cfg.tol (numAbs (liftError s.lift)) then liftSeek (liftError s.lift) dt s
      else .ok (liftArrive s)
    else .ok (liftHold s)

/-- Every `Num` that enters a lift update is finite (R9, D3): `dt`, the position, a pending delta, and the
target of a tick that reads it.  A pending delta replaces the target unread (R142), and with a manual
direction no error is computed (R147).  A target that overflows as this tick forms it is an intermediate
of the tick and is carried (R9; log entry 10). -/
def liftInputsFinite (dt : Num32) (s : State) : Bool :=
  numIsFinite dt && numIsFinite s.enc.pos &&
    (if s.lift.pending then numIsFinite s.lift.delta
    else !(s.lift.active && decide (s.lift.man = .stop)) || numIsFinite s.lift.target)

/-- `LIFT_UPDATE(dt)` (R146); its inputs are finite (R9, D3) and `TOL` is legal (U7). -/
def liftUpdate (dt : Num32) (s : State) : Except Stop State :=
  refuseUnless (tolOk s.cfg) .toleranceIllegal <|
  refuseUnless (liftInputsFinite dt s) .nonFiniteOperand <|
  liftDecide dt (liftSample s)

/-- `LIFT_UPDATE` (R146). -/
def execLiftUpdate (dt : Num32) (s : State) : Host.Outcome State Fault Refusal :=
  finish (liftUpdate dt s)

end Sys2Proof.Machine
end

