-- ==== Sys2Proof/Machine/Ring.lean ====
section
/-! DEFINITION. The meanings of `RXQ_PUSH` and `RXQ_POP` (R44, R45). -/

namespace Sys2Proof.Machine

/-- The receive interrupt's step on the whole state: only the ring's producer side changes (R56). -/
def pushByte (b : Byte) (s : State) : Except Stop State :=
  refuseUnless (storageOk s.cfg) .storageIllegal
    (andThen (rxqPush s.cfg b s.rxq) fun r => .ok (setRxq r s))

/-- The main loop's pop on the whole state. -/
def popByte (s : State) : Except Stop (Option Byte × State) :=
  refuseUnless (storageOk s.cfg) .storageIllegal
    (andThen (rxqPop s.cfg s.rxq) fun p => .ok (p.1, setRxq p.2 s))

/-- `RXQ_PUSH(b)` (R44). -/
def execRxqPush (b : Byte) (s : State) : Host.Outcome State Fault Refusal := finish (pushByte b s)

/-- `RXQ_POP` (R45): the byte goes to the invoker. -/
def execRxqPop (s : State) : Host.Outcome State Fault Refusal :=
  finish (andThen (popByte s) fun p => .ok (setRet (.byte p.1) p.2))

end Sys2Proof.Machine
end

