-- ==== Sys2Proof/Machine/Sequencer.lean ====
section
/-! DEFINITION. The sequencer: `TICK_IRQ`, `MAIN_STEP`, `TICK_SERVICE` (R202 to R204), and `RESET`
(R240). -/

namespace Sys2Proof.Machine

/-- `dt` of a tick service (R204): the elapsed counts, wrap-safe, in seconds. -/
def tickDt (cfg : Params) (tLast now : Nat) : Num32 :=
  numMul (i2n (modPow cfg.tsBits ((now : Int) - tLast))) cfg.tsUnitS

/-- `TICK_SERVICE(now, cnt)` (R204); of a timestamp that does not fit its width the low bits are read (log
entry 20). -/
def tickService (now cnt : Nat) (s : State) : Except Stop State :=
  let dt := tickDt s.cfg s.seq.tLast now
  andThen (encSample cnt dt (setSeq { s.seq with tLast := lowBits s.cfg.tsBits now } s)) fun s' =>
    liftUpdate dt s'

/-- What a pass does when the ring is empty (R203): services a pending tick, else nothing. -/
def idlePass (now cnt : Nat) (s : State) : Except Stop State :=
  if s.seq.tickFlag then tickService now cnt (setSeq (clearTick s.seq) s) else .ok s

/-- `MAIN_STEP(now, enc_cnt)` (R203): one byte if there is one, else the tick. -/
def mainStep (now cnt : Nat) (s : State) : Except Stop State :=
  andThen (popByte s) fun p =>
    match p.1 with
    | some b => consumeByte b p.2
    | none => idlePass now cnt p.2

/-- `RESET` (R240): every field takes its value of R30's table and the trace is empty.  The parameters
are configuration and not state (R13), and `N_PID` says how many instances there are; the environment's schedule and the count of free inputs are not
the block's. -/
def resetState (s : State) : State :=
  { State.reset with
    cfg := s.cfg, pid := List.replicate s.cfg.nPid Pid.atReset, sched := s.sched, inputN := s.inputN }

/-- `TICK_IRQ` (R202). -/
def execTickIrq (s : State) : Host.Outcome State Fault Refusal := .next (setSeq (raiseTick s.seq) s)

/-- `MAIN_STEP` (R203). -/
def execMainStep (now cnt : Nat) (s : State) : Host.Outcome State Fault Refusal :=
  finish (mainStep now cnt s)

/-- `TICK_SERVICE` (R204). -/
def execTickService (now cnt : Nat) (s : State) : Host.Outcome State Fault Refusal :=
  finish (tickService now cnt s)

/-- `RESET` (R240). -/
def execReset (s : State) : Host.Outcome State Fault Refusal := .next (resetState s)

end Sys2Proof.Machine
end

