-- ==== Sys2Proof/Machine/Dispatch.lean ====
section
/-! DEFINITION. One arm for each instruction: the direct call of its meaning. -/

namespace Sys2Proof.Machine

def exec (i : Instr) (s : State) : Host.Outcome State Fault Refusal :=
  match i with
  | .legStop => Sys2Proof.Machine.execLegStop s
  | .legUp => Sys2Proof.Machine.execLegUp s
  | .legDown => Sys2Proof.Machine.execLegDown s
  | .sof => Sys2Proof.Machine.execSof s
  | .eof => Sys2Proof.Machine.execEof s
  | .fLifter operand => Sys2Proof.Machine.execFLifter operand s
  | .fGripOpen trailing => Sys2Proof.Machine.execFGripOpen trailing s
  | .fGripClose trailing => Sys2Proof.Machine.execFGripClose trailing s
  | .fGripPos operand => Sys2Proof.Machine.execFGripPos operand s
  | .notify => Sys2Proof.Machine.execNotify s
  | .rxqPush b => Sys2Proof.Machine.execRxqPush b s
  | .rxqPop => Sys2Proof.Machine.execRxqPop s
  | .cfpFeed b => Sys2Proof.Machine.execCfpFeed b s
  | .pidInit who j kp ki kd ol il al it dz => Sys2Proof.Machine.execPidInit who j kp ki kd ol il al it dz s
  | .pidCalc j target measured dt => Sys2Proof.Machine.execPidCalc j target measured dt s
  | .cmdDispatch c => Sys2Proof.Machine.execCmdDispatch c s
  | .cmdLiftSetDelta v => Sys2Proof.Machine.execCmdLiftSetDelta v s
  | .cmdLiftManual d => Sys2Proof.Machine.execCmdLiftManual d s
  | .cmdLiftStop => Sys2Proof.Machine.execCmdLiftStop s
  | .cmdGripperOpen => Sys2Proof.Machine.execCmdGripperOpen s
  | .cmdGripperClose => Sys2Proof.Machine.execCmdGripperClose s
  | .cmdGripperSetPosition p => Sys2Proof.Machine.execCmdGripperSetPosition p s
  | .liftUpdate dt => Sys2Proof.Machine.execLiftUpdate dt s
  | .fsmEval exceeds => Sys2Proof.Machine.execFsmEval exceeds s
  | .encSample cnt dt => Sys2Proof.Machine.execEncSample cnt dt s
  | .tickIrq => Sys2Proof.Machine.execTickIrq s
  | .mainStep now cnt => Sys2Proof.Machine.execMainStep now cnt s
  | .tickService now cnt => Sys2Proof.Machine.execTickService now cnt s
  | .reset => Sys2Proof.Machine.execReset s

end Sys2Proof.Machine
end

