-- ==== Sys2Proof/Machine/Fetch.lean ====
section
/-! DEFINITION. Which step comes next, and where an instruction's bytes stand for the main loop to take
them.

The block fetches no instructions from a memory (R17).  "What plays its part is the position in the
command stream and the decoder's mode": the next byte at `rxq.tail`, the parser's state and what it has
captured. -/

namespace Sys2Proof.Machine

/-- The operation an agent's step executes (R200). -/
def eventInstr : Event → Instr
  | .rxByte b => .rxqPush b
  | .tick => .tickIrq
  | .mainPass now cnt => .mainStep now cnt
  | .pidInit who i kp ki kd ol il al it dz => .pidInit who i kp ki kd ol il al it dz
  | .pidCalc i target measured dt => .pidCalc i target measured dt

/-- The next step: the first scheduled event, removed from the schedule.  With nothing scheduled the main
loop spins (R203, R232 "the main loop spins when idle and never sleeps") on inputs that are free values
(R38); log entry 5. -/
def nextOperation (s : State) : Instr × State :=
  match s.sched with
  | e :: es => (eventInstr e, setSched es s)
  | [] => (.mainStep (Config.freeNow s.inputN) (Config.freeCnt s.inputN), setInputN (s.inputN + 1) s)

/-- The parser as it stands before the last byte of an instruction, and that byte. -/
def fetchPlace (c : Cfp) (i : Instr) : Option (Cfp × Byte) :=
  match i with
  | .legStop => some ({ c with st := .idle, idx := 0 }, opStop)
  | .legUp => some ({ c with st := .idle, idx := 0 }, opUp)
  | .legDown => some ({ c with st := .idle, idx := 0 }, opDown)
  | .sof => some (c, chSof)
  | .eof => some ({ c with st := .capturing, idx := 0 }, chEof)
  | .fLifter r => some (captured (litLifter ++ r), chEof)
  | .fGripOpen r => some (captured (litGripOpen ++ r), chEof)
  | .fGripClose r => some (captured (litGripClose ++ r), chEof)
  | .fGripPos r => some (captured (litGripPos ++ r), chEof)
  | .notify => none
  | .rxqPush _ => none
  | .rxqPop => none
  | .cfpFeed _ => none
  | .pidInit _ _ _ _ _ _ _ _ _ _ => none
  | .pidCalc _ _ _ _ => none
  | .cmdDispatch _ => none
  | .cmdLiftSetDelta _ => none
  | .cmdLiftManual _ => none
  | .cmdLiftStop => none
  | .cmdGripperOpen => none
  | .cmdGripperClose => none
  | .cmdGripperSetPosition _ => none
  | .liftUpdate _ => none
  | .fsmEval _ => none
  | .encSample _ _ => none
  | .tickIrq => none
  | .mainStep _ _ => none
  | .tickService _ _ => none
  | .reset => none
where
  /-- the parser with a body captured -/
  captured (body : List Byte) : Cfp :=
    { st := .capturing, buf := memWriteList c.buf 0 body, idx := body.length }

/-- A byte as the only one in the ring, at the place the next pop reads. -/
def placeByte (cfg : Params) (b : Byte) (r : Rxq) : Rxq :=
  { r with buf := memWrite r.buf r.tail b, head := ringNext cfg.rxqSize r.tail }

/-- The state in which the very next step is a main-loop pass that takes the last byte of the table
word's instruction, the parser standing where the earlier bytes leave it.  A word the decoder refuses is
placed as its first byte. -/
def placeWord (nbits w : Nat) (s : State) : State :=
  let s' := setSched (.mainPass s.seq.tLast s.enc.cntLast :: s.sched) s
  match (decodeTableWord nbits w).bind (fetchPlace s.cfp) with
  | some (c, b) => setRxq (placeByte s.cfg b s.rxq) (setCfp c s')
  | none => setRxq (placeByte s.cfg (BitVec.ofNat 8 w) s.rxq) s'

end Sys2Proof.Machine
end

