-- ==== Sys2Proof/Machine/Step.lean ====
section
/-! DEFINITION. One step of the block: the next agent's operation, executed whole (R50). -/

namespace Sys2Proof.Machine

/-- One step (R50): the operation that comes next, run on the state. -/
def step (s : State) : Host.Outcome State Fault Refusal :=
  exec (nextOperation s).1 (nextOperation s).2

/-- The state whose very next step takes the table word's instruction (see `placeWord`). -/
def State.withFetchWord (s : State) (nbits w : Nat) : State := placeWord nbits w s

end Sys2Proof.Machine
end

