-- ==== Sys2Proof/WellFormed.lean ====
section
/-! DEFINITION. When an instruction is one the spec speaks of: the operand checks that the types leave
over.  A wire frame's operand holds no delimiter and fits the frame (R60, R62); a `Num` operand is finite
(R9, R70, R112, R124), a PID configuration is in its legal ranges (R19), a PID index names an instance
(R111), and an integer operand fits its width (R38, R66). -/

namespace Sys2Proof

open Sys2Proof.Machine

/-- No byte of a body is a delimiter (R60: "none of them `0x24` or `0x23`"). -/
def bodyClean (body : List Byte) : Bool :=
  body.all fun b => decide (b ≠ chSof) && decide (b ≠ chEof)

/-- A frame operand after a literal: no delimiter, and at most `maxBody` body bytes in all (R60, R68). -/
def operandFits (maxBody : Nat) (lit operand : List Byte) : Bool :=
  bodyClean operand && decide ((lit ++ operand).length ≤ maxBody)

/-- The operand check of a command (R70: "`LiftSetDelta(v)` with `v` a finite `Num`", "a signed
`GRIP_POS_BITS`-bit integer"). -/
def commandWellFormed (cfg : Params) : Command → Bool
  | .liftManual _ => true
  | .liftSetDelta v => numIsFinite v
  | .liftStop => true
  | .gripperOpen => true
  | .gripperClose => true
  | .gripperSetPosition p => inSigned cfg.gripPosBits p

/-- The operand checks of an instruction, for a build with these parameters. -/
def wellFormed (cfg : Params) : Instr → Bool
  | .legStop => true
  | .legUp => true
  | .legDown => true
  | .sof => true
  | .eof => true
  | .fLifter operand => operandFits (maxBody cfg) litLifter operand
  | .fGripOpen trailing => operandFits (maxBody cfg) litGripOpen trailing
  | .fGripClose trailing => operandFits (maxBody cfg) litGripClose trailing
  | .fGripPos operand => operandFits (maxBody cfg) litGripPos operand
  | .notify => true
  | .rxqPush _ => true
  | .rxqPop => true
  | .cfpFeed _ => true
  | .pidInit _ i kp ki kd ol il al it dz =>
      decide (i < cfg.nPid) && pidOperandsFinite kp ki kd ol il al it dz &&
        pidRangesLegal ol il al it dz
  | .pidCalc i t m dt =>
      decide (i < cfg.nPid) && numIsFinite t && numIsFinite m && numIsFinite dt
  | .cmdDispatch c => commandWellFormed cfg c
  | .cmdLiftSetDelta v => numIsFinite v
  | .cmdLiftManual _ => true
  | .cmdLiftStop => true
  | .cmdGripperOpen => true
  | .cmdGripperClose => true
  | .cmdGripperSetPosition p => inSigned cfg.gripPosBits p
  | .liftUpdate dt => numIsFinite dt
  | .fsmEval _ => true
  | .encSample cnt dt => decide (cnt < 2 ^ cfg.cntBits) && numIsFinite dt
  | .tickIrq => true
  | .mainStep now cnt => decide (now < 2 ^ cfg.tsBits) && decide (cnt < 2 ^ cfg.cntBits)
  | .tickService now cnt => decide (now < 2 ^ cfg.tsBits) && decide (cnt < 2 ^ cfg.cntBits)
  | .reset => true

end Sys2Proof
end

