-- ==== Sys2Proof/Safety.lean ====
section
/-! DEFINITION. What counts as a good state and a safe step, and the words the statements use. -/

namespace Sys2Proof.Machine

/-! ### The invariant (R26 and the canonical form of the storages) -/

/-- RXQ: both indices name slots (R14), and the storage is canonical and inside its range (R39). -/
def ringInv (cfg : Params) (r : Rxq) : Bool :=
  decide (r.head < cfg.rxqSize) && decide (r.tail < cfg.rxqSize) &&
    memWf r.buf && memBelow cfg.rxqSize r.buf

/-- CFP: `cfp.idx <= MAX_BODY`, and it is 0 while `Idle` (R26 (a)); the captured body holds no delimiter
(R60); the storage is canonical and inside its range. -/
def parserInv (cfg : Params) (c : Cfp) : Bool :=
  decide (c.idx ≤ maxBody cfg) && (decide (c.st ≠ .idle) || decide (c.idx = 0)) &&
    bodyClean (memSlice c.buf c.idx) && memWf c.buf && memBelow cfg.frameCap c.buf

/-- The parameters an invariant needs: legal storage sizes (U16) and bounds of the time step that are finite,
positive and in order (R7, R115). -/
def cfgInv (cfg : Params) : Bool :=
  storageOk cfg && dtBoundsFinite cfg && numLt numZero cfg.dtMin && numLe cfg.dtMin cfg.dtMax

/-- PID: an initialised instance holds a legal configuration (R19) and
`-int_limit <= integral <= +int_limit` (R26 (b)). -/
def pidInv (p : Pid) : Bool :=
  !p.inited || (pidConfigLegal p && numLe (numNeg p.intLimit) p.integral && numLe p.integral p.intLimit)

/-- ENC and SEQ: the integer registers fit their widths (R22, R23). -/
def widthInv (cfg : Params) (e : Enc) (q : SeqRegs) : Bool :=
  decide (e.cntLast < 2 ^ cfg.cntBits) && inSigned cfg.accBits e.acc && decide (q.tLast < 2 ^ cfg.tsBits)

/-- LIFT: a captured delta is finite (R70), and an outstanding target is no NaN. -/
def liftInv (l : Lift) : Bool :=
  (!l.pending || numIsFinite l.delta) && (!l.active || !numIsNaN l.target)

/-- The invariant of the block: beside the units' own, there are `N_PID` instances (R111). -/
def stateInv (s : State) : Bool :=
  cfgInv s.cfg && ringInv s.cfg s.rxq && parserInv s.cfg s.cfp &&
    decide (s.pid.length = s.cfg.nPid) && s.pid.all pidInv && liftInv s.lift &&
    widthInv s.cfg s.enc s.seq

/-! ### Words of the statements -/

/-- The event is an actuator direction. -/
def isActDir : OutEvent → Bool
  | .actDir _ => true
  | _ => false

/-- The event is an arrival notification. -/
def isNotify : OutEvent → Bool
  | .notify _ => true
  | _ => false

/-- The event is an FSM hook. -/
def isHook : OutEvent → Bool
  | .hook _ _ => true
  | _ => false

/-- A frame instruction's body. -/
def frameBody : Instr → Option (List Byte)
  | .fLifter r => some (litLifter ++ r)
  | .fGripOpen r => some (litGripOpen ++ r)
  | .fGripClose r => some (litGripClose ++ r)
  | .fGripPos r => some (litGripPos ++ r)
  | _ => none

/-- The parser after a whole frame with this body: the body stored from index 0, the NUL after it, and
the parser `Idle` (R85 to R87). -/
def afterFrame (body : List Byte) (c : Cfp) : Cfp :=
  { st := .idle, buf := memWrite (memWriteList c.buf 0 body) body.length 0x00, idx := 0 }

/-- The byte that spells a digit (R65). -/
def asciiDigit (d : Fin 10) : Byte := BitVec.ofNat 8 (0x30 + d.val)

/-- The number a list of digits spells, most significant first. -/
def digitsValue (ds : List (Fin 10)) : Nat := ds.foldl (fun a d => a * 10 + d.val) 0

/-- The bytes of an optional sign: none, `'+'` or `'-'` (R65). -/
def signBytes : Option Bool → List Byte
  | none => []
  | some false => [0x2B]
  | some true => [0x2D]

/-- The sign negates. -/
def signNeg : Option Bool → Bool
  | some true => true
  | _ => false

/-- One tick's lift update on a position sample the environment supplies (R193's view of ENC). -/
def tickAt (pos dt : Num32) (s : State) : Host.Outcome State Fault Refusal :=
  exec (.liftUpdate dt) (setEnc { s.enc with pos := pos } s)

/-- Lift updates on a list of position samples, one after another. -/
def ticksAt (dt : Num32) : List Num32 → State → Host.Outcome State Fault Refusal
  | [], s => .next s
  | p :: ps, s =>
    match tickAt p dt s with
    | .next s' => ticksAt dt ps s'
    | .fault f => .fault f
    | .refused r => .refused r

end Sys2Proof.Machine
end

