-- ==== Sys2Proof/Certificates/Slice0/Obligations.lean ====
section
/-! DEFINITION. The statements for the provers.  Each docstring names the rules of the spec it
formalises, or says what the statement rests on where it is the model's own. -/

open Sys2Proof Sys2Proof.Machine

/-! ### Encoding -/

/-- R61 to R63, R68: decoding the bytes of a well-formed wire instruction gives the instruction back and
leaves the bytes after it.  A lone start delimiter could open a frame with the bytes after it, so for
`SOF` the stream ends there. -/
def Obligations.DecodeOfEncode : Prop :=
  ∀ (cfg : Params) (st : CfpState) (i : Instr) (bs rest : List Byte),
    wellFormed cfg i = true → decodableIn st i = true → encode i = some bs → (i ≠ .sof ∨ rest = []) →
    decode (maxBody cfg) st (bs ++ rest) = .ok (i, rest)

/-- R64, R67, R68: every decoded instruction is well formed, is one the parser state admits, and its
encoding is exactly the bytes read. -/
def Obligations.EncodeOfDecode : Prop :=
  ∀ (cfg : Params) (st : CfpState) (i : Instr) (bs rest : List Byte),
    decode (maxBody cfg) st bs = .ok (i, rest) →
    wellFormed cfg i = true ∧ decodableIn st i = true ∧ ∃ pre, encode i = some pre ∧ bs = pre ++ rest

/-- R61 to R63: words written out from the spec's tables decode to the instructions they stand for. -/
def Obligations.DecodedWordsOfTheSpec : Prop :=
  decodeTableWord 8 0x00 = some .legStop ∧ decodeTableWord 8 0x01 = some .legUp ∧
  decodeTableWord 8 0x02 = some .legDown ∧ decodeTableWord 8 0x24 = some .sof ∧
  decodeTableWord 8 0x23 = some .eof ∧
  decode 63 .idle [0x24, 0x4C, 0x49, 0x46, 0x54, 0x45, 0x52, 0x3A, 0x31, 0x32, 0x2E, 0x35, 0x23] =
    .ok (.fLifter [0x31, 0x32, 0x2E, 0x35], []) ∧
  decode 63 .idle [0x24, 0x47, 0x52, 0x49, 0x50, 0x50, 0x45, 0x52, 0x3A, 0x4F, 0x50, 0x45, 0x4E, 0x23] =
    .ok (.fGripOpen [], []) ∧
  decode 63 .capturing
      [0x24, 0x47, 0x52, 0x49, 0x50, 0x50, 0x45, 0x52, 0x3A, 0x43, 0x4C, 0x4F, 0x53, 0x45, 0x23] =
    .ok (.fGripClose [], []) ∧
  decode 63 .idle
      [0x24, 0x47, 0x52, 0x49, 0x50, 0x50, 0x45, 0x52, 0x3A, 0x50, 0x4F, 0x53, 0x3A, 0x39, 0x30, 0x23] =
    .ok (.fGripPos [0x39, 0x30], [])

/-! ### Steps -/

/-- R50, R200: a step is the next agent's operation, run whole on the state: the producer's is
`RXQ_PUSH`, the tick source's `TICK_IRQ`, the main loop's `MAIN_STEP`, a PID client's (or the boot
code's) `PID_INIT` and a PID client's `PID_CALC`.  That the next agent is the head of a schedule, and that
the main loop spins on free inputs when nothing is scheduled, is the model's form (log entry 5). -/
def Obligations.StepRunsTheScheduledOperation : Prop :=
  (∀ (s : State) (es : List Event) (b : Byte), s.sched = .rxByte b :: es →
    step s = exec (.rxqPush b) (setSched es s)) ∧
  (∀ (s : State) (es : List Event), s.sched = .tick :: es →
    step s = exec .tickIrq (setSched es s)) ∧
  (∀ (s : State) (es : List Event) (now cnt : Nat), s.sched = .mainPass now cnt :: es →
    step s = exec (.mainStep now cnt) (setSched es s)) ∧
  (∀ (s : State) (es : List Event) (who : Invoker) (i : Nat) (kp ki kd ol il al it dz : Num32),
    s.sched = .pidInit who i kp ki kd ol il al it dz :: es →
    step s = exec (.pidInit who i kp ki kd ol il al it dz) (setSched es s)) ∧
  (∀ (s : State) (es : List Event) (i : Nat) (t m dt : Num32), s.sched = .pidCalc i t m dt :: es →
    step s = exec (.pidCalc i t m dt) (setSched es s)) ∧
  (∀ s : State, s.sched = [] →
    step s = exec (.mainStep (Config.freeNow s.inputN) (Config.freeCnt s.inputN))
      (setInputN (s.inputN + 1) s))

/-- R17, R64, R203: when the byte at `rxq.tail`, with the parser's state and what it has captured,
decodes to a well-formed instruction, a main-loop pass is that instruction run on the state whose ring
has given up the byte; so is the step that makes the pass.  The step's schedule and the reading of a
frame as one instruction are the model's form (log entries 5 and 11). -/
def Obligations.MainPassRunsTheDecodedInstruction : Prop :=
  ∀ (s : State) (now cnt : Nat) (b : Byte) (r : Rxq) (i : Instr),
    rxqPop s.cfg s.rxq = .ok (some b, r) →
    decodeAt s.cfp.st (memSlice s.cfp.buf s.cfp.idx) b = .ok i →
    wellFormed s.cfg i = true →
    exec (.mainStep now cnt) s = exec i (setRxq r s) ∧
    ∀ es, s.sched = .mainPass now cnt :: es → step s = exec i (setRxq r (setSched es s))

/-- R48, R101, R203: as many main-loop passes as there are bytes take the bytes at the front of the ring
one by one in arrival order, whatever the inputs of the passes, and do nothing else.  The schedule is the
model's form (log entry 5). -/
def Obligations.DrainFeedsTheParserInOrder : Prop :=
  ∀ (s : State) (bs more : List Byte) (ins : List (Nat × Nat)) (es : List Event),
    stateInv s = true → ringBytes s.cfg s.rxq = bs ++ more → ins.length = bs.length →
    s.sched = ins.map (fun p => Event.mainPass p.1 p.2) ++ es →
    Host.Core.run Sys2Proof.core bs.length s =
      finish (consumeBytes bs
        (setSched es
          (setRxq { s.rxq with tail := (s.rxq.tail + bs.length) % s.cfg.rxqSize } s)))

/-! ### The ring -/

/-- R44: a push stores the byte and then publishes it; on a full ring the byte is dropped and no state
changes.  Every slot but the one written reads as before. -/
def Obligations.PushStoresThenPublishes : Prop :=
  ∀ (s : State) (b : Byte), storageOk s.cfg = true → s.rxq.head < s.cfg.rxqSize →
    memWf s.rxq.buf = true →
    ((s.rxq.head + 1) % s.cfg.rxqSize = s.rxq.tail → exec (.rxqPush b) s = .next s) ∧
    ((s.rxq.head + 1) % s.cfg.rxqSize ≠ s.rxq.tail →
      exec (.rxqPush b) s = .next (setRxq
        { buf := memWrite s.rxq.buf s.rxq.head b
          head := (s.rxq.head + 1) % s.cfg.rxqSize
          tail := s.rxq.tail } s) ∧
      memRead (memWrite s.rxq.buf s.rxq.head b) s.rxq.head = b ∧
      ∀ a, a ≠ s.rxq.head → memRead (memWrite s.rxq.buf s.rxq.head b) a = memRead s.rxq.buf a)

/-- R45: a pop returns the byte at the tail and releases its slot; an empty ring returns `None` and
changes nothing.  The byte goes to the model's field for the value returned (log entry 6). -/
def Obligations.PopReturnsTheByteAtTheTail : Prop :=
  ∀ s : State, storageOk s.cfg = true → s.rxq.tail < s.cfg.rxqSize →
    (s.rxq.head = s.rxq.tail → exec .rxqPop s = .next (setRet (.byte none) s)) ∧
    (s.rxq.head ≠ s.rxq.tail →
      exec .rxqPop s = .next (setRet (.byte (some (memRead s.rxq.buf s.rxq.tail)))
        (setRxq { s.rxq with tail := (s.rxq.tail + 1) % s.cfg.rxqSize } s)))

/-- R14, R44, R45, R48: seen as the list of its queued bytes, the ring is a queue of at most
`RXQ_SIZE - 1` bytes: a push appends, or drops when the ring is full, and a pop takes the first. -/
def Obligations.RingIsFirstInFirstOut : Prop :=
  ∀ (s : State) (b : Byte), storageOk s.cfg = true → ringInv s.cfg s.rxq = true →
    (ringBytes s.cfg s.rxq).length ≤ s.cfg.rxqSize - 1 ∧
    (∃ t, exec (.rxqPush b) s = .next t ∧
      ringBytes t.cfg t.rxq =
        if (ringBytes s.cfg s.rxq).length = s.cfg.rxqSize - 1 then ringBytes s.cfg s.rxq
        else ringBytes s.cfg s.rxq ++ [b]) ∧
    (∃ t, exec .rxqPop s = .next t ∧
      t.ret = .byte (ringBytes s.cfg s.rxq).head? ∧
      ringBytes t.cfg t.rxq = (ringBytes s.cfg s.rxq).tail)

/-- R14, R17, R51 (c): a main-loop pass never changes `rxq.buf` or `rxq.head`, and moves `rxq.tail` by
one slot or not at all. -/
def Obligations.ConsumerNeverTouchesTheProducerSide : Prop :=
  ∀ (s t : State) (now cnt : Nat), exec (.mainStep now cnt) s = .next t →
    t.rxq.buf = s.rxq.buf ∧ t.rxq.head = s.rxq.head ∧
    ((s.rxq.head = s.rxq.tail ∧ t.rxq.tail = s.rxq.tail) ∨
      (s.rxq.head ≠ s.rxq.tail ∧ t.rxq.tail = (s.rxq.tail + 1) % s.cfg.rxqSize))

/-- R224, R227: a receive interrupt and a tick interrupt give the same state in either order. -/
def Obligations.InterruptStepsCommute : Prop :=
  ∀ (s : State) (b : Byte), storageOk s.cfg = true → s.rxq.head < s.cfg.rxqSize →
    ∃ t u v, exec (.rxqPush b) s = .next t ∧ exec .tickIrq t = .next v ∧
      exec .tickIrq s = .next u ∧ exec (.rxqPush b) u = .next v

/-! ### The parser -/

/-- R81, arm by arm: the command goes to the model's field for the value returned (log entry 6).  The
terminator's NUL is at `cfp.idx`, above what `MATCH` reads. -/
def Obligations.CfpFeedInFull : Prop :=
  ∀ (s : State) (b : Byte), storageOk s.cfg = true →
    (s.cfp.st = .idle →
      exec (.cfpFeed b) s = .next
        (if b = 0x24 then
          setRet (.command none) (setCfp { s.cfp with st := .capturing, idx := 0 } s)
        else if b = 0x00 then setRet (.command (some .liftStop)) s
        else if b = 0x01 then setRet (.command (some (.liftManual .up))) s
        else if b = 0x02 then setRet (.command (some (.liftManual .down))) s
        else setRet (.command none) s)) ∧
    (s.cfp.st = .capturing → s.cfp.idx ≤ s.cfg.frameCap - 1 →
      exec (.cfpFeed b) s = .next
        (if b = 0x24 then setRet (.command none) (setCfp { s.cfp with idx := 0 } s)
        else if b = 0x23 then
          setRet (.command (matchBody s.cfg (memSlice s.cfp.buf s.cfp.idx)))
            (setCfp { st := .idle, buf := memWrite s.cfp.buf s.cfp.idx 0x00, idx := 0 } s)
        else if s.cfp.idx < s.cfg.frameCap - 1 then
          setRet (.command none)
            (setCfp { s.cfp with buf := memWrite s.cfp.buf s.cfp.idx b, idx := s.cfp.idx + 1 } s)
        else setRet (.command none) (setCfp { s.cfp with st := .idle, idx := 0 } s)))

/-- R85, R102: the start delimiter brings the parser to `Capturing` at index 0 from every state, leaves
the buffer as it is, and does nothing else. -/
def Obligations.StartDelimiterRestartsTheCapture : Prop :=
  ∀ s : State, storageOk s.cfg = true →
    exec .sof s = .next (setCfp { s.cfp with st := .capturing, idx := 0 } s)

/-- R67, R86, R89, R99, R203: the terminator ends a capture whether or not the body matches, and the command
of a matching body is dispatched in the same step; while `Idle` it is ignored.  In both states it completes.
A body that begins with none of the four literals is dropped without a signal, with both values of
`BODY_MATCH`: only the parser changes.  What `MATCH` gives for the other bodies,
`CommandsComeOnlyFromOpcodesAndTerminators` says. -/
def Obligations.TerminatorEndsTheCapture : Prop :=
  ∀ s : State, storageOk s.cfg = true →
    (s.cfp.st = .idle → exec .eof s = .next s) ∧
    (s.cfp.st = .capturing → s.cfp.idx ≤ maxBody s.cfg →
      (∃ t, exec .eof s = .next t ∧ t.cfp.st = .idle ∧ t.cfp.idx = 0) ∧
      (∀ c, matchBody s.cfg (memSlice s.cfp.buf s.cfp.idx) = some c →
        exec .eof s = exec (.cmdDispatch c)
          (setCfp { st := .idle, buf := memWrite s.cfp.buf s.cfp.idx 0x00, idx := 0 } s)) ∧
      (matchBody s.cfg (memSlice s.cfp.buf s.cfp.idx) = none →
        exec .eof s =
          .next (setCfp { st := .idle, buf := memWrite s.cfp.buf s.cfp.idx 0x00, idx := 0 } s)) ∧
      (frameOf (memSlice s.cfp.buf s.cfp.idx) = none →
        exec .eof s =
          .next (setCfp { st := .idle, buf := memWrite s.cfp.buf s.cfp.idx 0x00, idx := 0 } s)) ∧
      (frameOf (memSlice s.cfp.buf s.cfp.idx) = none ↔
        ∀ lit ∈ [litLifter, litGripOpen, litGripClose, litGripPos], ∀ rest : List Byte,
          memSlice s.cfp.buf s.cfp.idx ≠ lit ++ rest))

/-- R82, R83, R84 with R143, R144, R203: while `Idle` each legacy opcode has its command's effect at
once, buffers nothing and leaves the parser as it is. -/
def Obligations.LegacyOpcodesActWhileIdle : Prop :=
  ∀ s : State, storageOk s.cfg = true → s.cfp.st = .idle →
    exec .legUp s = .next (setLift { s.lift with man := .up } s) ∧
    exec .legDown s = .next (setLift { s.lift with man := .down } s) ∧
    exec .legStop s = .next (setLift
      { s.lift with
        man := .stop
        pending := if s.cfg.stopCancelsTarget then false else s.lift.pending
        active := if s.cfg.stopCancelsTarget then false else s.lift.active } s)

/-- R87, R88: inside a frame a legacy byte is content: it is stored, or it overflows the frame, and no
command results. -/
def Obligations.LegacyBytesInsideAFrameAreContent : Prop :=
  ∀ (s : State) (b : Byte) (i : Instr), storageOk s.cfg = true → s.cfp.st = .capturing →
    ((i = .legStop ∧ b = 0x00) ∨ (i = .legUp ∧ b = 0x01) ∨ (i = .legDown ∧ b = 0x02)) →
    (s.cfp.idx < maxBody s.cfg →
      exec i s = .next
        (setCfp { s.cfp with buf := memWrite s.cfp.buf s.cfp.idx b, idx := s.cfp.idx + 1 } s)) ∧
    (maxBody s.cfg ≤ s.cfp.idx →
      exec i s = .next (setCfp { s.cfp with st := .idle, idx := 0 } s))

/-- R92, R93, R142: a complete `$LIFTER:` frame, taken from any parser state, leaves the parser `Idle`
with the body and its NUL in the buffer, and captures the numeral of the effective operand as a pending
delta, or nothing when it is no numeral in range; nothing else changes.  That the instruction stands for
the whole frame is the model's form (log entry 11). -/
def Obligations.LifterFrameSetsTheDelta : Prop :=
  ∀ (s : State) (operand : List Byte), storageOk s.cfg = true → memWf s.cfp.buf = true →
    operandFits (maxBody s.cfg) litLifter operand = true →
    exec (.fLifter operand) s = .next
      (match parseDec (effBody operand) with
        | some v =>
          setLift { s.lift with delta := v, pending := true }
            (setCfp (afterFrame (litLifter ++ operand) s.cfp) s)
        | none => setCfp (afterFrame (litLifter ++ operand) s.cfp) s)

/-- R92, R95, R96, R153, R154: a complete open or close frame emits its gripper event.  With
`BODY_MATCH` = `PREFIX` bytes after the literal are ignored; with `EXACT` an effective body longer than
the literal emits nothing.  Nothing else changes but the parser.  Whole frames: log entry 11. -/
def Obligations.GripperFramesWithoutOperand : Prop :=
  ∀ (s : State) (trailing : List Byte), storageOk s.cfg = true → memWf s.cfp.buf = true →
    (operandFits (maxBody s.cfg) litGripOpen trailing = true →
      exec (.fGripOpen trailing) s = .next
        (if s.cfg.bodyMatch = .byPrefix ∨ effBody trailing = [] then
          emit .gripOpen (setCfp (afterFrame (litGripOpen ++ trailing) s.cfp) s)
        else setCfp (afterFrame (litGripOpen ++ trailing) s.cfp) s)) ∧
    (operandFits (maxBody s.cfg) litGripClose trailing = true →
      exec (.fGripClose trailing) s = .next
        (if s.cfg.bodyMatch = .byPrefix ∨ effBody trailing = [] then
          emit .gripClose (setCfp (afterFrame (litGripClose ++ trailing) s.cfp) s)
        else setCfp (afterFrame (litGripClose ++ trailing) s.cfp) s))

/-- R92, R98, R155: a complete `$GRIPPER:POS:` frame emits the integer of the effective operand
unchanged, or nothing when it is no numeral in range.  Nothing else changes but the parser.  Whole
frames: log entry 11. -/
def Obligations.GripperPositionFrame : Prop :=
  ∀ (s : State) (operand : List Byte), storageOk s.cfg = true → memWf s.cfp.buf = true →
    operandFits (maxBody s.cfg) litGripPos operand = true →
    exec (.fGripPos operand) s = .next
      (match parseInt s.cfg.gripPosBits (effBody operand) with
        | some p => emit (.gripSetPos p) (setCfp (afterFrame (litGripPos ++ operand) s.cfp) s)
        | none => setCfp (afterFrame (litGripPos ++ operand) s.cfp) s)

/-- R47, R86, R87: after a frame the parser is `Idle` at index 0, the buffer holds the body from index 0,
where the matcher reads it, and a NUL after it, and every other byte reads as before. -/
def Obligations.FrameBufferAfterAFrame : Prop :=
  ∀ (c : Cfp) (body : List Byte) (k : Nat), memWf c.buf = true →
    (memRead (afterFrame body c).buf k =
      if h : k < body.length then body[k]
      else if k = body.length then 0x00
      else memRead c.buf k) ∧
    memSlice (afterFrame body c).buf body.length = body ∧
    (afterFrame body c).st = .idle ∧ (afterFrame body c).idx = 0

/-- R88: a frame whose body runs past `MAX_BODY` is abandoned at the byte that does not fit: no command
is emitted, the parser is `Idle` and nothing outside the parser changes; the bytes after it are read from
there. -/
def Obligations.OversizedFrameIsAbandoned : Prop :=
  ∀ (s : State) (body : List Byte), storageOk s.cfg = true → bodyClean body = true →
    body.length = maxBody s.cfg + 1 →
    ∃ c, consumeBytes (chSof :: body) s = .ok (setCfp c s) ∧ c.st = .idle ∧ c.idx = 0 ∧
      ∀ rest, consumeBytes (chSof :: (body ++ rest)) s = consumeBytes rest (setCfp c s)

/-- R81, R100: the parser returns a command only for a legacy opcode read while `Idle` or for a
terminator whose body matches, so at most one for each frame.  What a body matches is R90's `MATCH`, with
R63's literals and the effective operand, the longest part from the start without a `0x00` (R92): a lifter
body gives its numeral (R93); an open or close body its command, with `EXACT` only where nothing visible
follows the literal (R95, R96); a position body its integer (R98); every other body nothing (R99). -/
def Obligations.CommandsComeOnlyFromOpcodesAndTerminators : Prop :=
  (litLifter = [0x4C, 0x49, 0x46, 0x54, 0x45, 0x52, 0x3A] ∧
    litGripOpen = [0x47, 0x52, 0x49, 0x50, 0x50, 0x45, 0x52, 0x3A, 0x4F, 0x50, 0x45, 0x4E] ∧
    litGripClose = [0x47, 0x52, 0x49, 0x50, 0x50, 0x45, 0x52, 0x3A, 0x43, 0x4C, 0x4F, 0x53, 0x45] ∧
    litGripPos = [0x47, 0x52, 0x49, 0x50, 0x50, 0x45, 0x52, 0x3A, 0x50, 0x4F, 0x53, 0x3A]) ∧
  (∀ body : List Byte, 0x00 ∉ effBody body ∧
    ∃ hidden, body = effBody body ++ hidden ∧ (hidden = [] ∨ hidden.head? = some 0x00)) ∧
  (∀ (cfg : Params) (r : List Byte),
    matchBody cfg (litLifter ++ r) = (parseDec (effBody r)).map Command.liftSetDelta ∧
    matchBody cfg (litGripOpen ++ r) =
      (if cfg.bodyMatch = .byPrefix ∨ effBody r = [] then some .gripperOpen else none) ∧
    matchBody cfg (litGripClose ++ r) =
      (if cfg.bodyMatch = .byPrefix ∨ effBody r = [] then some .gripperClose else none) ∧
    matchBody cfg (litGripPos ++ r) =
      (parseInt cfg.gripPosBits (effBody r)).map Command.gripperSetPosition) ∧
  (∀ (cfg : Params) (body : List Byte),
    (∀ lit ∈ [litLifter, litGripOpen, litGripClose, litGripPos], ∀ rest : List Byte, body ≠ lit ++ rest) →
    matchBody cfg body = none) ∧
  ∀ (s t : State) (b : Byte) (c : Command), exec (.cfpFeed b) s = .next t →
    t.ret = .command (some c) →
    (s.cfp.st = .idle ∧ t.cfp = s.cfp ∧
      ((b = 0x00 ∧ c = .liftStop) ∨ (b = 0x01 ∧ c = .liftManual .up) ∨
        (b = 0x02 ∧ c = .liftManual .down))) ∨
    (s.cfp.st = .capturing ∧ b = 0x23 ∧ t.cfp.st = .idle ∧ t.cfp.idx = 0 ∧
      matchBody s.cfg (memSlice s.cfp.buf s.cfp.idx) = some c)

/-- R65, R94: a byte string has a `DEC` value exactly when it is an optional sign, one or more digits and
optionally a point with one or more digits; the value is the decimal rational it spells, as a sign, a
numerator and a power of ten.  `PARSE_DEC` answers exactly where there is a value and its rounding is
finite (for which values it is, `RoundingGivesTheNearest` says); the answer is the rounded magnitude with
the numeral's sign, so that a negated zero is negative zero. -/
def Obligations.DecNumeralGrammar : Prop :=
  (∀ (t : List Byte) (neg : Bool) (n d : Nat), decValue t = some (neg, n, d) ↔
    ∃ (sg : Option Bool) (ds fs : List (Fin 10)), ds ≠ [] ∧ neg = signNeg sg ∧
      n = digitsValue (ds ++ fs) ∧ d = 10 ^ fs.length ∧
      t = signBytes sg ++ ds.map asciiDigit ++
        (if fs = [] then [] else 0x2E :: fs.map asciiDigit)) ∧
  (∀ t : List Byte, decValue t = none → parseDec t = none) ∧
  (∀ (t : List Byte) (neg : Bool) (n d : Nat), decValue t = some (neg, n, d) →
    (roundMag n d < infMag →
      ∃ v, parseDec t = some v ∧ numMag v = roundMag n d ∧ numSign v = neg) ∧
    (infMag ≤ roundMag n d → parseDec t = none))

/-- R66, R97: a byte string parses as an `INT` exactly when it is an optional sign and one or more digits
and the integer it spells lies in the signed range of `GRIP_POS_BITS`; the result is that integer. -/
def Obligations.IntNumeralGrammarAndRange : Prop :=
  ∀ (w : Nat) (t : List Byte) (p : Int), 0 < w → (parseInt w t = some p ↔
    (-(2 ^ (w - 1)) ≤ p ∧ p ≤ 2 ^ (w - 1) - 1) ∧
    ∃ (sg : Option Bool) (ds : List (Fin 10)), ds ≠ [] ∧
      t = signBytes sg ++ ds.map asciiDigit ∧
      p = (if signNeg sg then -(digitsValue ds : Int) else (digitsValue ds : Int)))

/-! ### Commands -/

/-- R141: each command is routed to its operation, and a command the decoder can produce completes. -/
def Obligations.DispatchRoutesEachCommand : Prop :=
  ∀ (s : State) (d : UpDown) (v : Num32) (p : Int) (c : Command),
    exec (.cmdDispatch (.liftManual d)) s = exec (.cmdLiftManual d) s ∧
    exec (.cmdDispatch .liftStop) s = exec .cmdLiftStop s ∧
    exec (.cmdDispatch (.liftSetDelta v)) s = exec (.cmdLiftSetDelta v) s ∧
    exec (.cmdDispatch .gripperOpen) s = exec .cmdGripperOpen s ∧
    exec (.cmdDispatch .gripperClose) s = exec .cmdGripperClose s ∧
    exec (.cmdDispatch (.gripperSetPosition p)) s = exec (.cmdGripperSetPosition p) s ∧
    (commandWellFormed s.cfg c = true → ∃ t, exec (.cmdDispatch c) s = .next t)

/-- R142: the delta is captured and the flag "target pending" raised, whatever was pending before;
`lift.target`, `lift.active`, `lift.man` and everything else stay, and no event is emitted. -/
def Obligations.SetDeltaRaisesTargetPending : Prop :=
  ∀ (s : State) (v : Num32), numIsFinite v = true →
    exec (.cmdLiftSetDelta v) s =
      .next (setLift { s.lift with delta := v, pending := true } s)

/-- R143, R144: a manual command writes `lift.man` and nothing else; a stop makes it neutral and, with
`STOP_CANCELS_TARGET`, clears both target flags.  Neither emits an event. -/
def Obligations.ManualAndStopCommands : Prop :=
  ∀ s : State,
    exec (.cmdLiftManual .up) s = .next (setLift { s.lift with man := .up } s) ∧
    exec (.cmdLiftManual .down) s = .next (setLift { s.lift with man := .down } s) ∧
    (s.cfg.stopCancelsTarget = true →
      exec .cmdLiftStop s =
        .next (setLift { s.lift with man := .stop, pending := false, active := false } s)) ∧
    (s.cfg.stopCancelsTarget = false →
      exec .cmdLiftStop s = .next (setLift { s.lift with man := .stop } s))

/-- R155, and the effect R153 and R154 give: each gripper command appends its one event to the trace, its
operand (a signed `GRIP_POS_BITS`-bit integer) unchanged, and reads and writes no state. -/
def Obligations.GripperCommandsPassThrough : Prop :=
  ∀ (s : State) (p : Int), inSigned s.cfg.gripPosBits p = true →
    exec .cmdGripperOpen s = .next { s with trace := s.trace ++ [.gripOpen] } ∧
    exec .cmdGripperClose s = .next { s with trace := s.trace ++ [.gripClose] } ∧
    exec (.cmdGripperSetPosition p) s = .next { s with trace := s.trace ++ [.gripSetPos p] }

/-- R69, R152: the notification is the eleven bytes of `$LIFTER:OK#` and the line terminator, emitted as
one event. -/
def Obligations.NotifyEmitsTheArrivalBytes : Prop :=
  litNotify = [0x24, 0x4C, 0x49, 0x46, 0x54, 0x45, 0x52, 0x3A, 0x4F, 0x4B, 0x23] ∧
  ∀ s : State,
    exec .notify s = .next { s with
      trace := s.trace ++
        [.notify ([0x24, 0x4C, 0x49, 0x46, 0x54, 0x45, 0x52, 0x3A, 0x4F, 0x4B, 0x23] ++
          s.cfg.lineTerm)] }

/-! ### PID -/

/-- R112: `PID_INIT` with legal operands writes the eight configuration registers of its instance, zeroes
its three accumulators and touches nothing else.  The invoker is the owner, or a client on an instance
LIFT does not own (R111; who invokes is an operand of the model, log entry 14).  Read back, the instance
holds what was written, and every other instance reads as before. -/
def Obligations.PidInitWritesItsInstance : Prop :=
  ∀ (s : State) (who : Invoker) (i : Nat) (kp ki kd ol il al it dz : Num32), i < s.pid.length →
    pidOperandsFinite kp ki kd ol il al it dz = true → pidRangesLegal ol il al it dz = true →
    (who = .owner ∨ ownedByLift s.cfg.cascade i = false) →
    ∃ t, exec (.pidInit who i kp ki kd ol il al it dz) s = .next t ∧
      t = { s with pid := t.pid } ∧
      getPid i t =
        { kp := kp, ki := ki, kd := kd, outLimit := ol, intLimit := il, alpha := al
          intThreshold := it, deadZone := dz
          integral := numZero, lastMeasured := numZero, lastFiltered := numZero, inited := true } ∧
      t.pid.length = s.pid.length ∧ ∀ j, j ≠ i → getPid j t = getPid j s

/-- R9, R19, R111, R112, R114, R124: where the PID operations are refused: an index without an instance
(log entry 4), an operand that is not finite or a configuration out of its ranges, whoever the invoker is
that may touch the instance; a client on an instance that LIFT owns; and for `PID_CALC` an instance never
initialised, bounds of the time step that are not finite, and accumulators an overflow left not finite
(log entry 10).  The conditions are those of R19 and R111, written out first. -/
def Obligations.PidRefusals : Prop :=
  (∀ (kp ki kd ol il al it dz : Num32),
    (pidOperandsFinite kp ki kd ol il al it dz = true ↔
      ∀ x ∈ [kp, ki, kd, ol, il, al, it, dz], numIsFinite x = true) ∧
    (pidRangesLegal ol il al it dz = true ↔
      numLt ol numZero = false ∧ numLt il numZero = false ∧ numLt al numZero = false ∧
      numLt numOne al = false ∧ numLt it numZero = false ∧ numLt dz numZero = false)) ∧
  (∀ p : Pid,
    (pidConfigLegal p = true ↔
      pidOperandsFinite p.kp p.ki p.kd p.outLimit p.intLimit p.alpha p.intThreshold p.deadZone = true ∧
      pidRangesLegal p.outLimit p.intLimit p.alpha p.intThreshold p.deadZone = true) ∧
    (pidAccumulatorsFinite p = true ↔
      ∀ x ∈ [p.integral, p.lastMeasured, p.lastFiltered], numIsFinite x = true)) ∧
  (∀ (c : Cascade) (i : Nat),
    ownedByLift c i = true ↔ (c = .pos ∧ i = 0) ∨ (c = .posSpd ∧ (i = 0 ∨ i = 1))) ∧
  ∀ (s : State) (who : Invoker) (i : Nat) (kp ki kd ol il al it dz t m dt : Num32),
    (s.pid.length ≤ i →
      exec (.pidInit who i kp ki kd ol il al it dz) s = .refused .pidNoSuchInstance ∧
      exec (.pidCalc i t m dt) s = .refused .pidNoSuchInstance) ∧
    (i < s.pid.length → ownedByLift s.cfg.cascade i = true →
      exec (.pidInit .client i kp ki kd ol il al it dz) s = .refused .pidOwnedByLift ∧
      exec (.pidCalc i t m dt) s = .refused .pidOwnedByLift) ∧
    (i < s.pid.length → (who = .owner ∨ ownedByLift s.cfg.cascade i = false) →
      (pidOperandsFinite kp ki kd ol il al it dz = false →
        exec (.pidInit who i kp ki kd ol il al it dz) s = .refused .nonFiniteOperand) ∧
      (pidOperandsFinite kp ki kd ol il al it dz = true → pidRangesLegal ol il al it dz = false →
        exec (.pidInit who i kp ki kd ol il al it dz) s = .refused .pidIllegalConfig)) ∧
    (i < s.pid.length → ownedByLift s.cfg.cascade i = false → (getPid i s).inited = false →
      exec (.pidCalc i t m dt) s = .refused .pidUninitialised) ∧
    (i < s.pid.length → ownedByLift s.cfg.cascade i = false → (getPid i s).inited = true →
      (pidConfigLegal (getPid i s) = false →
        exec (.pidCalc i t m dt) s = .refused .pidIllegalConfig) ∧
      (pidConfigLegal (getPid i s) = true → dtBoundsFinite s.cfg = false →
        exec (.pidCalc i t m dt) s = .refused .parametersNotFinite) ∧
      (pidConfigLegal (getPid i s) = true → dtBoundsFinite s.cfg = true →
        (numIsFinite t && numIsFinite m && numIsFinite dt) = false →
        exec (.pidCalc i t m dt) s = .refused .nonFiniteOperand) ∧
      (pidConfigLegal (getPid i s) = true → dtBoundsFinite s.cfg = true →
        (numIsFinite t && numIsFinite m && numIsFinite dt) = true →
        pidAccumulatorsFinite (getPid i s) = false →
        exec (.pidCalc i t m dt) s = .refused .nonFiniteAccumulator))

/-- R114 to R122: `PID_CALC` by a client, outside the dead zone, every stage as the pseudocode writes it;
the result goes to the model's field for the value returned (log entry 6).  The functions that other
statements name for the whole computation and for its stages have these values.  That the call completes
and commits where an intermediate overflows, carrying the infinity or the NaN it gives, is the model's choice
(R9, R124 and U4 also let a model refuse: log entry 10; the NaN's bits are free, entry 9; a comparison with
one is false, entry 19), and so is the use of finite bounds of the time step that are not positive or not in
order (entry 4). -/
def Obligations.PidCalcInFull : Prop :=
  ∀ (s : State) (i : Nat) (p : Pid) (t m dt dtc e raw filt acc1 acc u : Num32),
    i < s.pid.length → getPid i s = p → ownedByLift s.cfg.cascade i = false → p.inited = true →
    pidConfigLegal p = true → dtBoundsFinite s.cfg = true → numIsFinite t = true →
    numIsFinite m = true → numIsFinite dt = true → pidAccumulatorsFinite p = true →
    dtc = numClamp dt s.cfg.dtMin s.cfg.dtMax →
    e = numSub t m →
    numLt (numAbs e) p.deadZone = false →
    raw = numNeg (numDiv (numSub m p.lastMeasured) dtc) →
    filt = numAdd (numMul p.alpha raw) (numMul (numSub numOne p.alpha) p.lastFiltered) →
    acc1 = numClamp (numAdd p.integral (numMul e dtc)) (numNeg p.intLimit) p.intLimit →
    acc = (if numEq p.intThreshold numZero = false ∧ numLt p.intThreshold (numAbs e) = true
      then numZero else acc1) →
    u = numAdd (numAdd (numMul p.kp e) (numMul p.ki acc)) (numMul p.kd filt) →
    exec (.pidCalc i t m dt) s = .next
      (setRet (.num (numClamp u (numNeg p.outLimit) p.outLimit))
        (setPid i { p with integral := acc, lastMeasured := m, lastFiltered := filt } s)) ∧
    pidStages s.cfg p t m dt =
      (numClamp u (numNeg p.outLimit) p.outLimit,
        { p with integral := acc, lastMeasured := m, lastFiltered := filt }) ∧
    pidRaw p m dtc = raw ∧ pidFilt p raw = filt ∧ pidAccum p e dtc = acc1 ∧
    pidSeparate p e acc1 = acc ∧ pidSum p e acc filt = u

/-- R116, R125 (c): in the dead zone the call returns zero and writes nothing, however often it is
repeated. -/
def Obligations.PidDeadZoneChangesNothing : Prop :=
  ∀ (s : State) (i : Nat) (t m dt : Num32) (es : List Event) (n : Nat), i < s.pid.length →
    ownedByLift s.cfg.cascade i = false → (getPid i s).inited = true →
    pidConfigLegal (getPid i s) = true → dtBoundsFinite s.cfg = true → numIsFinite t = true →
    numIsFinite m = true → numIsFinite dt = true → pidAccumulatorsFinite (getPid i s) = true →
    numLt (numAbs (numSub t m)) (getPid i s).deadZone = true →
    s.sched = List.replicate (n + 1) (.pidCalc i t m dt) ++ es →
    Host.Core.run Sys2Proof.core (n + 1) s = .next (setRet (.num numZero) (setSched es s)) ∧
    pidStages s.cfg (getPid i s) t m dt = (numZero, getPid i s)

/-- R119, R125 (b), R26 (b): whatever finite operands a call has and whatever overflows on the way, the
integral a call commits lies in `[-int_limit, +int_limit]`, for bounds of the time step that are positive
and in order, as R7's are (other bounds: log entry 4).  That overflows are carried is the choice R124 leaves (log
entry 10). -/
def Obligations.PidIntegralStaysWithinItsLimits : Prop :=
  ∀ (s t : State) (i : Nat) (target m dt : Num32),
    numLt numZero s.cfg.dtMin = true → numLe s.cfg.dtMin s.cfg.dtMax = true →
    exec (.pidCalc i target m dt) s = .next t →
    numLt (numAbs (numSub target m)) (getPid i s).deadZone = false →
    numLe (numNeg (getPid i s).intLimit) (getPid i t).integral = true ∧
    numLe (getPid i t).integral (getPid i s).intLimit = true

/-- R121, R125 (a): in the dead zone, and wherever the three-term sum is no NaN, the result lies in
`[-out_limit, +out_limit]`; where the sum is a NaN (an overflow met an opposite overflow or a zero factor,
R124) the result is a NaN.  The sum is that of the stages' own `e`, `acc` and `filt`.  That overflows are
carried is the choice R124 leaves (log entry 10); the NaN's bits are free (entry 9). -/
def Obligations.PidOutputStaysWithinItsLimits : Prop :=
  ∀ (s t : State) (i : Nat) (p : Pid) (target m dt dtc e filt acc : Num32),
    exec (.pidCalc i target m dt) s = .next t →
    p = getPid i s → dtc = numClamp dt s.cfg.dtMin s.cfg.dtMax → e = numSub target m →
    filt = pidFilt p (pidRaw p m dtc) → acc = pidSeparate p e (pidAccum p e dtc) →
    ∃ v, t.ret = .num v ∧
      (numLt (numAbs e) p.deadZone = true ∨ numIsNaN (pidSum p e acc filt) = false →
        numLe (numNeg p.outLimit) v = true ∧ numLe v p.outLimit = true) ∧
      (numLt (numAbs e) p.deadZone = false → numIsNaN (pidSum p e acc filt) = true →
        numIsNaN v = true)

/-! ### LIFT -/

/-- R25: the mode is a function of LIFT's registers, and a manual direction masks an outstanding
target. -/
def Obligations.ManualDirectionMasksTheTargetInTheMode : Prop :=
  ∀ l : Lift,
    (motionMode l = .manualUp ↔ l.man = .up) ∧ (motionMode l = .manualDown ↔ l.man = .down) ∧
    (motionMode l = .automatic ↔ l.man = .stop ∧ (l.pending = true ∨ l.active = true)) ∧
    (motionMode l = .idle ↔ l.man = .stop ∧ l.pending = false ∧ l.active = false)

/-- R145: step 1 copies the position sample; step 2 turns a pending delta into an absolute target
anchored at that sample, once; without a pending delta nothing else of LIFT changes.  Where the sum
overflows, that the target holds the infinity is the model's choice (log entry 10). -/
def Obligations.PendingDeltaBecomesTheTarget : Prop :=
  ∀ s : State,
    (s.lift.pending = true →
      liftSample s = setLift
        { pos := s.enc.pos, delta := numZero, pending := false
          target := numAdd s.enc.pos s.lift.delta, active := true, man := s.lift.man } s) ∧
    (s.lift.pending = false → liftSample s = setLift { s.lift with pos := s.enc.pos } s)

/-- R7, R146, R147: with a manual direction the tick emits exactly that direction, `Forward` for up and
`Reverse` for down with the spec's `DIR_MAP` (Up = Forward, Down = Reverse): no error is computed, the FSM is
not evaluated, no PID instance is invoked, no notification is emitted, and a target outlives it, whatever it
is.  The other branch of each clause, the exchanged directions, is the model's choice (log entry 4): the spec
gives `DIR_MAP` one value and puts a swap outside the block (D11).  So is it that the tick completes where
the sum that converts a pending delta overflows: R9 also lets a model refuse (log entry 10). -/
def Obligations.ManualOverrideIgnoresTheTarget : Prop :=
  ∀ (s : State) (dt : Num32), tolOk s.cfg = true → numIsFinite dt = true →
    numIsFinite s.enc.pos = true → (s.lift.pending = true → numIsFinite s.lift.delta = true) →
    (s.lift.man = .up → exec (.liftUpdate dt) s = .next
      (emit (.actDir (if s.cfg.dirMap = .upForward then .forward else .reverse)) (liftSample s))) ∧
    (s.lift.man = .down → exec (.liftUpdate dt) s = .next
      (emit (.actDir (if s.cfg.dirMap = .upForward then .reverse else .forward)) (liftSample s)))

/-- R148: without the PID layer, an error beyond the band drives toward the target: `Forward` when it is
positive, else `Reverse`; the FSM sees `exceeds = true` first, and the target stays.  That the tick completes,
with the sign of the infinity, where the converted target or the error overflows is the model's choice: R9
also lets a model refuse (log entry 10). -/
def Obligations.SeekingDrivesTowardTheTarget : Prop :=
  ∀ (s : State) (dt err : Num32), tolOk s.cfg = true → numIsFinite dt = true →
    numIsFinite s.enc.pos = true →
    (s.lift.pending = true → numIsFinite s.lift.delta = true) →
    (s.lift.pending = false → numIsFinite s.lift.target = true) →
    s.cfg.cascade = .off → s.lift.man = .stop →
    (liftSample s).lift.active = true →
    err = numSub (liftSample s).lift.target s.enc.pos →
    numLt s.cfg.tol (numAbs err) = true →
    exec (.liftUpdate dt) s = .next
      (emit (.actDir (if numLt numZero err = true then .forward else .reverse))
        (fsmEval true (liftSample s)))

/-- R149: through the PID layer the direction is the sign of the position loop's output, or of the speed
loop's output on the demand the position loop gives: `Forward` where it is above zero, `Reverse` where it
is below, else `Stop`.  The instances' accumulators are committed and the target stays.  What the loops
compute, `PidCalcInFull` and `PidDeadZoneChangesNothing` say.  That the tick completes where the error or an
intermediate of a loop overflows is the model's choice (R9, R124 and U4 also let a model refuse: log entry
10), and so is the `Stop` for a loop's output that is a NaN: its bits are free (entry 9) and its comparisons
are false (entry 19).  Finite bounds of the time step that are not positive or not in order: entry 4. -/
def Obligations.SeekingThroughThePidLayer : Prop :=
  ∀ (s : State) (dt : Num32) (p0 p1 : Pid) (q r : Num32 × Pid), tolOk s.cfg = true →
    dtBoundsFinite s.cfg = true → numIsFinite dt = true → numIsFinite s.enc.pos = true →
    (s.lift.pending = true → numIsFinite s.lift.delta = true) →
    s.lift.man = .stop → (liftSample s).lift.active = true →
    numLt s.cfg.tol (numAbs (numSub (liftSample s).lift.target s.enc.pos)) = true →
    numIsFinite (liftSample s).lift.target = true → 0 < s.pid.length → p0 = getPid 0 s →
    p0.inited = true → pidConfigLegal p0 = true → pidAccumulatorsFinite p0 = true →
    q = pidStages s.cfg p0 (liftSample s).lift.target s.enc.pos dt →
    (s.cfg.cascade = .pos →
      exec (.liftUpdate dt) s = .next
        (emit (.actDir (if numLt numZero q.1 = true then .forward
            else if numLt q.1 numZero = true then .reverse else .stop))
          (setPid 0 q.2 (fsmEval true (liftSample s))))) ∧
    (s.cfg.cascade = .posSpd → numIsFinite q.1 = true → numIsFinite s.enc.spd = true →
      1 < s.pid.length → p1 = getPid 1 s → p1.inited = true → pidConfigLegal p1 = true →
      pidAccumulatorsFinite p1 = true → r = pidStages s.cfg p1 q.1 s.enc.spd dt →
      exec (.liftUpdate dt) s = .next
        (emit (.actDir (if numLt numZero r.1 = true then .forward
            else if numLt r.1 numZero = true then .reverse else .stop))
          (setPid 1 r.2 (setPid 0 q.2 (fsmEval true (liftSample s))))))

/-- R151, R152: an error within the band (equality included) stops the actuator, emits one notification,
clears the active target and shows the FSM `exceeds = false` first; the PID layer is not invoked. -/
def Obligations.ArrivalStopsAndNotifies : Prop :=
  ∀ (s : State) (dt : Num32), tolOk s.cfg = true → numIsFinite dt = true →
    numIsFinite s.enc.pos = true →
    (s.lift.pending = true → numIsFinite s.lift.delta = true) →
    (s.lift.pending = false → numIsFinite s.lift.target = true) →
    s.lift.man = .stop → (liftSample s).lift.active = true →
    numLt s.cfg.tol (numAbs (numSub (liftSample s).lift.target s.enc.pos)) = false →
    exec (.liftUpdate dt) s = .next
      (setLift { (liftSample s).lift with active := false }
        (emit (.notify (litNotify ++ s.cfg.lineTerm))
          (emit (.actDir .stop) (fsmEval false (liftSample s)))))

/-- R150: with no manual direction and no target the tick emits `Stop`, on every such tick, and the FSM
sees `exceeds = false`. -/
def Obligations.IdleHoldStops : Prop :=
  ∀ (s : State) (dt : Num32), tolOk s.cfg = true → numIsFinite dt = true →
    numIsFinite s.enc.pos = true → s.lift.man = .stop → s.lift.pending = false →
    s.lift.active = false →
    exec (.liftUpdate dt) s = .next
      (emit (.actDir .stop) (fsmEval false (setLift { s.lift with pos := s.enc.pos } s)))

/-- R57, R156: in every cascade mode a lift update emits, in this order, the two hooks of one transition
(the exit hook of the state left, then the entry hook of the state entered) or no hook where the FSM stays,
exactly one actuator direction, and at most one notification, and that one only after a `Stop`. -/
def Obligations.OneActuatorEventPerTick : Prop :=
  ∀ (s t : State) (dt : Num32), exec (.liftUpdate dt) s = .next t →
    ∃ (hooks : List OutEvent) (d : Dir) (notes : List OutEvent),
      t.trace = s.trace ++ hooks ++ [.actDir d] ++ notes ∧
      ((hooks = [] ∧ t.fsm = s.fsm) ∨
        (hooks = [.hook .exit s.fsm, .hook .entry t.fsm] ∧ t.fsm ≠ s.fsm)) ∧
      (notes = [] ∨ notes = [.notify (litNotify ++ s.cfg.lineTerm)] ∧ d = .stop)

/-- R55, R56, R156: no other operation drives the actuator or moves the FSM: everything but `LIFT_UPDATE`,
the two steps that run it, `FSM_EVAL` and `RESET` only appends events, none of them an actuator
direction or a hook, and leaves `fsm.state` alone; a main-loop pass that finds a byte waiting does
too. -/
def Obligations.OnlyTheTickDrivesTheActuator : Prop :=
  ∀ (s t : State) (i : Instr), exec i s = .next t →
    (∀ dt, i ≠ .liftUpdate dt) → (∀ now cnt, i ≠ .tickService now cnt) →
    (∀ x, i ≠ .fsmEval x) → i ≠ .reset →
    ((∃ now cnt, i = .mainStep now cnt) → s.rxq.head ≠ s.rxq.tail) →
    t.fsm = s.fsm ∧ ∃ evs : List OutEvent,
      t.trace = s.trace ++ evs ∧ evs.all (fun e => !isActDir e && !isHook e) = true

/-- R157 (R148, R150, R151): with an active target, no manual direction, no PID layer and no further
command, every tick whose error is beyond the band drives toward the target, the first tick within it
stops and notifies once, and all later ticks only stop.  The position samples are given to the lift
updates directly, as R193 allows (log entry 18).  That a tick completes where the error overflows to an
infinity is the model's choice: R9 also lets a model refuse (log entry 10). -/
def Obligations.SeekUntilTheBandThenHold : Prop :=
  ∀ (s : State) (dt : Num32) (before : List Num32) (arrive : Num32) (after : List Num32),
    tolOk s.cfg = true → s.cfg.cascade = .off → numIsFinite dt = true → s.lift.man = .stop →
    s.lift.pending = false → s.lift.active = true → numIsFinite s.lift.target = true →
    (∀ p ∈ before, numIsFinite p = true ∧
      numLt s.cfg.tol (numAbs (numSub s.lift.target p)) = true) →
    (numIsFinite arrive = true ∧
      numLt s.cfg.tol (numAbs (numSub s.lift.target arrive)) = false) →
    (∀ p ∈ after, numIsFinite p = true) →
    ∃ t evs, ticksAt dt (before ++ arrive :: after) s = .next t ∧ t.trace = s.trace ++ evs ∧
      evs.filter (fun e => !isHook e) =
        before.map (fun p => OutEvent.actDir
          (if numLt numZero (numSub s.lift.target p) = true then .forward else .reverse)) ++
        [.actDir .stop, .notify (litNotify ++ s.cfg.lineTerm)] ++
        List.replicate after.length (.actDir .stop) ∧
      t.lift.active = false ∧ t.lift.pending = false ∧ t.fsm = .idle

/-! ### FSM -/

/-- R171, R173, R174, R175: the two transitions with their hooks, exit before entry, and the two cases
that change nothing.  `FSM_EVAL` is the evaluation a lift update makes. -/
def Obligations.FsmEvalFollowsTheTable : Prop :=
  ∀ s : State,
    (∀ x, exec (.fsmEval x) s = .next (fsmEval x s)) ∧
    (s.fsm = .idle → exec (.fsmEval true) s = .next { s with
      fsm := .moving, trace := s.trace ++ [.hook .exit .idle, .hook .entry .moving] }) ∧
    (s.fsm = .moving → exec (.fsmEval false) s = .next { s with
      fsm := .idle, trace := s.trace ++ [.hook .exit .moving, .hook .entry .idle] }) ∧
    (s.fsm = .idle → exec (.fsmEval false) s = .next s) ∧
    (s.fsm = .moving → exec (.fsmEval true) s = .next s)

/-- R26 (c), R177: in a lift update the FSM is left `Moving` by a tick that seeks, `Idle` by one that
arrives or holds, and as it was by a manual one, in every cascade mode.  Ticks whose converted target or
error overflows are among them by the model's choice (log entry 10). -/
def Obligations.FsmMovesWithTheErrorBand : Prop :=
  ∀ (s t : State) (dt : Num32), exec (.liftUpdate dt) s = .next t →
    (s.lift.man ≠ .stop → t.fsm = s.fsm) ∧
    (s.lift.man = .stop →
      (t.fsm = .moving ↔ (liftSample s).lift.active = true ∧
        numLt s.cfg.tol (numAbs (numSub (liftSample s).lift.target s.enc.pos)) = true))

/-! ### ENC and SEQ -/

/-- R187 to R191: `d` is the signed `CNT_BITS`-bit integer congruent to the difference of the samples, `acc`
the signed `ACC_BITS`-bit integer congruent to the accumulator plus `d`; the sample is kept, and position
and speed follow from `acc` and `d`; nothing else changes.  That the sample completes where a quotient
overflows is the model's choice (U4 also lets a model refuse: log entry 10), and so is the use of finite bounds
of the time step that are not positive or not in order (entry 4). -/
def Obligations.EncSampleInFull : Prop :=
  ∀ (s : State) (cnt : Nat) (d acc : Int) (dt : Num32), pulseOk s.cfg = true →
    dtBoundsFinite s.cfg = true → numIsFinite dt = true → cnt < 2 ^ s.cfg.cntBits →
    (-(2 ^ s.cfg.cntBits) ≤ 2 * d ∧ 2 * d < 2 ^ s.cfg.cntBits ∧
      ((cnt : Int) - s.enc.cntLast - d) % 2 ^ s.cfg.cntBits = 0) →
    (-(2 ^ s.cfg.accBits) ≤ 2 * acc ∧ 2 * acc < 2 ^ s.cfg.accBits ∧
      (s.enc.acc + d - acc) % 2 ^ s.cfg.accBits = 0) →
    exec (.encSample cnt dt) s = .next (setEnc
      { cntLast := cnt
        acc := acc
        pos := numDiv (i2n acc) (pulsePerMm s.cfg)
        spd := numDiv (numDiv (i2n d) (pulsePerMm s.cfg))
          (numClamp dt s.cfg.dtMin s.cfg.dtMax) } s)

/-- R188: the delta between a sample and the counter's value after a movement is the true movement exactly
when that lies in `-2^(CNT_BITS-1) .. 2^(CNT_BITS-1) - 1`, and in any case agrees with it modulo
`2^CNT_BITS`. -/
def Obligations.EncDeltaIsTheTrueMovement : Prop :=
  ∀ (cfg : Params) (cntLast cnt : Nat) (move : Int), 0 < cfg.cntBits →
    cnt = (((cntLast : Int) + move) % 2 ^ cfg.cntBits).toNat →
    (encDelta cfg cntLast cnt = move ↔
      -(2 ^ (cfg.cntBits - 1)) ≤ move ∧ move ≤ 2 ^ (cfg.cntBits - 1) - 1) ∧
    ∃ k : Int, encDelta cfg cntLast cnt = move + k * 2 ^ cfg.cntBits

/-- R202: the tick interrupt sets the flag and nothing else, however often it fires before the service. -/
def Obligations.TickIrqOnlySetsTheFlag : Prop :=
  ∀ s : State,
    exec .tickIrq s = .next { s with seq := { s.seq with tickFlag := true } } ∧
    (s.seq.tickFlag = true → exec .tickIrq s = .next s)

/-- R204: a tick service keeps the timestamp, samples the encoder and updates the lift on the elapsed
time, wrap-safe and in seconds; without the PID layer it completes whenever the parameters are legal and
the elapsed time, the position and the target it reads are finite.  With the PID layer it is the lift update
the first clause names.  That the elapsed time is finite at R7's width and unit, whatever the timestamps are,
is derived.  That the service completes where the speed, a converted target or an error overflows is the
model's choice (R9 and U4 also let a model refuse: log entry 10), and so is the use of finite bounds of the
time step that are not positive or not in order (entry 4). -/
def Obligations.TickServiceSamplesThenUpdates : Prop :=
  ∀ (s : State) (now cnt : Nat) (dt : Num32), now < 2 ^ s.cfg.tsBits →
    dt = numMul (i2n (((now : Int) - s.seq.tLast) % 2 ^ s.cfg.tsBits)) s.cfg.tsUnitS →
    (∀ t, exec (.encSample cnt dt) { s with seq := { s.seq with tLast := now } } = .next t →
      exec (.tickService now cnt) s = exec (.liftUpdate dt) t) ∧
    (s.cfg.tsBits = 32 → s.cfg.tsUnitS = ⟨0x358637BD⟩ → numIsFinite dt = true) ∧
    (pulseOk s.cfg = true → tolOk s.cfg = true → dtBoundsFinite s.cfg = true → s.cfg.cascade = .off →
      cnt < 2 ^ s.cfg.cntBits → numIsFinite dt = true →
      numIsFinite (encPos s.cfg (encAccum s.cfg s.enc.acc (encDelta s.cfg s.enc.cntLast cnt))) = true →
      (s.lift.pending = true → numIsFinite s.lift.delta = true) →
      (s.lift.pending = false → s.lift.active = true → s.lift.man = .stop →
        numIsFinite s.lift.target = true) →
      ∃ t, exec (.tickService now cnt) s = .next t ∧ t.seq = { s.seq with tLast := now } ∧
        t.enc.cntLast = cnt)

/-- R55, R203, R208: a pass takes one byte if there is one, and then the tick is not serviced: SEQ, ENC,
FSM and the PID instances stay as they are, and it completes whatever the byte is.  On an empty ring it
services a pending tick with the flag cleared, and without one it does nothing. -/
def Obligations.MainStepTakesAByteBeforeATick : Prop :=
  ∀ (s : State) (now cnt : Nat),
    (stateInv s = true → s.rxq.head ≠ s.rxq.tail →
      ∃ t, exec (.mainStep now cnt) s = .next t ∧ t.seq = s.seq ∧ t.enc = s.enc ∧ t.fsm = s.fsm ∧
        t.pid = s.pid ∧
        t.rxq = { s.rxq with tail := (s.rxq.tail + 1) % s.cfg.rxqSize }) ∧
    (storageOk s.cfg = true → s.rxq.head = s.rxq.tail → s.seq.tickFlag = true →
      exec (.mainStep now cnt) s =
        exec (.tickService now cnt) { s with seq := { s.seq with tickFlag := false } }) ∧
    (storageOk s.cfg = true → s.rxq.head = s.rxq.tail → s.seq.tickFlag = false →
      exec (.mainStep now cnt) s = .next s)

/-- R9, R149, R190, U1, U2, U6, U7, U16: where the other operations are refused: a `Num` operand, or a
`Num` register a lift update reads, that is not finite; a scale, a tolerance, bounds of the time step or a
storage size that is not legal; and a seek through a PID instance that does not exist or was never
initialised, instance 0 in both cascade modes and instance 1 in `POS_SPD`.  U6, U7 and U16 refuse such a
parameter at configuration time; that the model refuses it at the first operation that uses it is the
model's choice (log entry 4).  A target that overflows as this tick converts it is carried to the checks of
the PID layer by the model's choice (log entry 10).  What makes a parameter legal is written out first. -/
def Obligations.OtherRefusals : Prop :=
  (∀ cfg : Params,
    (storageOk cfg = true ↔ 2 ≤ cfg.rxqSize ∧ 14 ≤ cfg.frameCap) ∧ maxBody cfg = cfg.frameCap - 1 ∧
    (tolOk cfg = true ↔ numIsFinite cfg.tol = true ∧ numLt cfg.tol numZero = false) ∧
    (dtBoundsFinite cfg = true ↔ numIsFinite cfg.dtMin = true ∧ numIsFinite cfg.dtMax = true) ∧
    (pulseOk cfg = true ↔
      numIsFinite (pulsePerMm cfg) = true ∧ numLt numZero (pulsePerMm cfg) = true) ∧
    ∀ p, cfg.pulsePerMm = some p → pulsePerMm cfg = p) ∧
  ∀ (s : State) (b : Byte) (v dt : Num32) (now cnt : Nat) (operand : List Byte),
    (storageOk s.cfg = false →
      (∀ i ∈ [.rxqPush b, .rxqPop, .cfpFeed b, .mainStep now cnt, .legStop, .legUp, .legDown, .sof, .eof,
          .fLifter operand, .fGripOpen operand, .fGripClose operand, .fGripPos operand],
        exec i s = .refused .storageIllegal)) ∧
    (numIsFinite v = false →
      exec (.cmdLiftSetDelta v) s = .refused .nonFiniteOperand ∧
      exec (.cmdDispatch (.liftSetDelta v)) s = .refused .nonFiniteOperand) ∧
    (pulseOk s.cfg = false →
      exec (.encSample cnt dt) s = .refused .pulseScaleIllegal ∧
      exec (.tickService now cnt) s = .refused .pulseScaleIllegal) ∧
    (pulseOk s.cfg = true → dtBoundsFinite s.cfg = false →
      exec (.encSample cnt dt) s = .refused .parametersNotFinite ∧
      exec (.tickService now cnt) s = .refused .parametersNotFinite) ∧
    (pulseOk s.cfg = true → dtBoundsFinite s.cfg = true → numIsFinite dt = false →
      exec (.encSample cnt dt) s = .refused .nonFiniteOperand) ∧
    (tolOk s.cfg = false → exec (.liftUpdate dt) s = .refused .toleranceIllegal) ∧
    (tolOk s.cfg = true →
      (numIsFinite dt = false ∨ numIsFinite s.enc.pos = false ∨
        (s.lift.pending = true ∧ numIsFinite s.lift.delta = false) ∨
        (s.lift.pending = false ∧ s.lift.active = true ∧ s.lift.man = .stop ∧
          numIsFinite s.lift.target = false)) →
      exec (.liftUpdate dt) s = .refused .nonFiniteOperand) ∧
    (tolOk s.cfg = true → numIsFinite dt = true → numIsFinite s.enc.pos = true →
      (s.lift.pending = true → numIsFinite s.lift.delta = true) →
      (s.lift.pending = false → numIsFinite s.lift.target = true) →
      s.lift.man = .stop → (liftSample s).lift.active = true →
      numLt s.cfg.tol (numAbs (numSub (liftSample s).lift.target s.enc.pos)) = true →
      (s.cfg.cascade ≠ .off → s.pid.length = 0 →
        exec (.liftUpdate dt) s = .refused .pidNoSuchInstance) ∧
      (s.cfg.cascade ≠ .off → 0 < s.pid.length → (getPid 0 s).inited = false →
        exec (.liftUpdate dt) s = .refused .pidUninitialised) ∧
      (s.cfg.cascade = .posSpd → 0 < s.pid.length → (getPid 0 s).inited = true →
        pidConfigLegal (getPid 0 s) = true → dtBoundsFinite s.cfg = true →
        numIsFinite (liftSample s).lift.target = true → pidAccumulatorsFinite (getPid 0 s) = true →
        (s.pid.length = 1 → exec (.liftUpdate dt) s = .refused .pidNoSuchInstance) ∧
        (1 < s.pid.length → (getPid 1 s).inited = false →
          exec (.liftUpdate dt) s = .refused .pidUninitialised)))

/-! ### Reset and the whole machine -/

/-- R30, R240: what reset leaves in the fields R30 gives a value, from every state; the trace is empty
and no instance is initialised; the parameters stay.  That unspecified PID registers read as `not
initialised` and that the parameters stay are the model's (log entries 2 and 4).  R7: the parameters of
the reset state are the table's values, `PULSE_PER_MM` open. -/
def Obligations.ResetGivesTheTable : Prop :=
  (∀ s : State, ∃ t, exec .reset s = .next t ∧
    t.rxq.head = 0 ∧ t.rxq.tail = 0 ∧ t.cfp.st = .idle ∧ t.cfp.idx = 0 ∧
    t.lift.pending = false ∧ t.lift.active = false ∧ t.lift.man = .stop ∧ t.fsm = .idle ∧
    t.pid.length = s.cfg.nPid ∧ (∀ p ∈ t.pid, p.inited = false) ∧
    t.enc.cntLast = 0 ∧ t.enc.acc = 0 ∧ t.enc.pos = numZero ∧ t.enc.spd = numZero ∧
    t.seq.tickFlag = false ∧ t.seq.tLast = 0 ∧ t.trace = [] ∧ t.cfg = s.cfg) ∧
  State.reset.cfg =
    { num := .binary32, dtMin := ⟨0x358637BD⟩, dtMax := ⟨0x3DCCCCCD⟩, frameCap := 64, rxqSize := 256
      tol := ⟨0x40A00000⟩, tickPeriodMs := 10, tsBits := 32, tsUnitS := ⟨0x358637BD⟩, pulsePerMm := none
      cntBits := 16, accBits := 32, nPid := 2, cascade := .off, stopCancelsTarget := true
      bodyMatch := .byPrefix, gripPosBits := 32, lineTerm := [0x0D, 0x0A], dirMap := .upForward }

/-- The reset state meets the invariant.  Beside R26 the invariant asks for the storages' canonical form (log
entry 1), for legal parameters (entry 4), and of the numbers of LIFT what overflow may leave there (entry 10). -/
def Obligations.ResetStateMeetsTheInvariant : Prop := stateInv State.reset = true

/-- R26 (a), (b), (d) with the storages' canonical form: every step keeps the invariant, from every state
that meets it and for every schedule.  The canonical form is the model's (log entry 1), and so are the legal
parameters it asks for (entry 4) and the target that may be an infinity but no NaN (entry 10). -/
def Obligations.EveryStepKeepsTheInvariant : Prop :=
  ∀ s t : State, stateInv s = true → step s = .next t → stateInv t = true

/-- R26, as `EveryStepKeepsTheInvariant`, for every instruction executed by itself (log entries 1, 4, 10). -/
def Obligations.EveryInstructionKeepsTheInvariant : Prop :=
  ∀ (i : Instr) (s t : State), stateInv s = true → exec i s = .next t → stateInv t = true

/-- R47, R207, R215: from a state that meets the invariant no instruction faults: every storage access is
at a legal index.  The two faults are the model's own (log entry 15). -/
def Obligations.GoodStatesNeverFault : Prop :=
  ∀ (i : Instr) (s : State) (f : Fault), stateInv s = true → exec i s ≠ .fault f

/-- R247: no instruction and no step writes the parameters, which the model holds in the state (log
entry 4). -/
def Obligations.ParametersNeverChange : Prop :=
  (∀ (i : Instr) (s t : State), exec i s = .next t → t.cfg = s.cfg) ∧
  (∀ s t : State, step s = .next t → t.cfg = s.cfg)

/-- R9: `Num` arithmetic on finite operands.  A datum is a sign bit, an exponent field and a fraction field;
its value in units of `2^-149`, the least positive number, is a whole number.  The sum, the difference, the
product and the quotient (by a divisor that is not zero), and an integer converted, are the exact result
rounded once: the magnitude field is the rounding of the exact magnitude and the sign is the exact result's.
Negation and `abs` are exact; the comparisons and `clamp` compare the values, so that the two zeros are
equal.  The rounding gives the nearest binary32 of a non-negative rational, ties to even: the result is
finite exactly below `2^128 - 2^103`, half a unit in the last place above the largest finite number, and
else infinite; where it is finite, no finite magnitude is nearer, and one as near is the result itself or
leaves the result with an even significand.  The sign of an exact zero is IEEE 754's (log entry 19); that an
operation out of range gives the infinity, where R9 also lets a model refuse, is the model's choice (entry
10). -/
def Obligations.RoundingGivesTheNearest : Prop :=
  (infMag = 0x7F800000 ∧ numZero.bits = 0 ∧ numInt numZero = 0 ∧ numInt numOne = 2 ^ 149 ∧
    ∀ (neg : Bool) (m : Nat), m < 2 ^ 31 → numSign (mkNum neg m) = neg ∧ numMag (mkNum neg m) = m) ∧
  (∀ x : Num32,
    x.bits.toNat = (if numSign x = true then 2 ^ 31 else 0) + numMag x ∧ numMag x < 2 ^ 31 ∧
    (numIsFinite x = true ↔ numMag x < infMag) ∧ (numIsNaN x = true ↔ infMag < numMag x) ∧
    numInt x = (if numSign x = true then -1 else 1) * (numUnits x : Int) ∧
    ∀ E F : Nat, F < 2 ^ 23 → numMag x = E * 2 ^ 23 + F →
      numUnits x = if E = 0 then F else (2 ^ 23 + F) * 2 ^ (E - 1)) ∧
  (∀ a b : Num32, numIsFinite a = true → numIsFinite b = true →
    (numInt a + numInt b ≠ 0 →
      numMag (numAdd a b) = roundMag (numInt a + numInt b).natAbs (2 ^ 149) ∧
      (numSign (numAdd a b) = true ↔ numInt a + numInt b < 0)) ∧
    (numInt a + numInt b = 0 →
      numMag (numAdd a b) = 0 ∧ numSign (numAdd a b) = (numSign a && numSign b)) ∧
    (numInt a - numInt b ≠ 0 →
      numMag (numSub a b) = roundMag (numInt a - numInt b).natAbs (2 ^ 149) ∧
      (numSign (numSub a b) = true ↔ numInt a - numInt b < 0)) ∧
    (numInt a - numInt b = 0 →
      numMag (numSub a b) = 0 ∧ numSign (numSub a b) = (numSign a && !numSign b)) ∧
    (numMag (numMul a b) = roundMag (numInt a * numInt b).natAbs (2 ^ 149 * 2 ^ 149) ∧
      numSign (numMul a b) = (numSign a != numSign b)) ∧
    (numInt b ≠ 0 →
      numMag (numDiv a b) = roundMag (numInt a).natAbs (numInt b).natAbs ∧
      numSign (numDiv a b) = (numSign a != numSign b)) ∧
    (numMag (numNeg a) = numMag a ∧ numSign (numNeg a) = !numSign a ∧ numInt (numNeg a) = -numInt a) ∧
    (numMag (numAbs a) = numMag a ∧ numSign (numAbs a) = false ∧ numInt (numAbs a) = |numInt a|) ∧
    (numLt a b = true ↔ numInt a < numInt b) ∧ (numLe a b = true ↔ numInt a ≤ numInt b) ∧
    (numEq a b = true ↔ numInt a = numInt b) ∧
    ∀ x : Num32, numIsFinite x = true →
      numClamp x a b =
        if numInt x < numInt a then a else if numInt b < numInt x then b else x) ∧
  (∀ k : Int, numMag (i2n k) = roundMag k.natAbs 1 ∧ (numSign (i2n k) = true ↔ k < 0)) ∧
  (∀ n d : Nat, 0 < d →
    (roundMag n d < infMag ↔ n < d * (2 ^ 128 - 2 ^ 103)) ∧ roundMag n d ≤ infMag) ∧
  ∀ (n d m : Nat), 0 < d → roundMag n d < infMag → m < infMag →
    ((numUnits (mkNum false (roundMag n d)) : Int) * d - n * 2 ^ 149).natAbs ≤
      ((numUnits (mkNum false m) : Int) * d - n * 2 ^ 149).natAbs ∧
    (((numUnits (mkNum false (roundMag n d)) : Int) * d - n * 2 ^ 149).natAbs =
      ((numUnits (mkNum false m) : Int) * d - n * 2 ^ 149).natAbs →
      m = roundMag n d ∨ roundMag n d % 2 = 0)
end

