-- ==== Sys2Proof/Laws/Control.lean ====
section
/-! SUPPORT. How an operation stops or goes on: the laws of `andThen`, `refuseUnless` and `finish`. -/

namespace Sys2Proof.Machine

@[simp] theorem andThen_ok {α β : Type} (a : α) (f : α → Except Stop β) :
    andThen (.ok a) f = f a := rfl

@[simp] theorem andThen_error {α β : Type} (e : Stop) (f : α → Except Stop β) :
    andThen (.error e) f = .error e := rfl

/-- A sequence has a result exactly when both parts have one. -/
theorem andThen_eq_ok {α β : Type} {r : Except Stop α} {f : α → Except Stop β} {b : β} :
    andThen r f = .ok b ↔ ∃ a, r = .ok a ∧ f a = .ok b := by
  cases r with
  | ok a => simp
  | error e => simp

@[simp] theorem refuseUnless_true {α : Type} (why : Refusal) (k : Except Stop α) :
    refuseUnless true why k = k := rfl

@[simp] theorem refuseUnless_false {α : Type} (why : Refusal) (k : Except Stop α) :
    refuseUnless false why k = .error (.refused why) := rfl

/-- A guarded operation has a result exactly when the guard holds and it has one. -/
theorem refuseUnless_eq_ok {α : Type} {c : Bool} {why : Refusal} {k : Except Stop α} {a : α} :
    refuseUnless c why k = .ok a ↔ c = true ∧ k = .ok a := by
  cases c <;> simp

/-- A guarded operation faults exactly when the guard holds and it faults. -/
theorem refuseUnless_eq_fault {α : Type} {c : Bool} {why : Refusal} {k : Except Stop α} {f : Fault} :
    refuseUnless c why k = .error (.fault f) ↔ c = true ∧ k = .error (.fault f) := by
  cases c <;> simp

@[simp] theorem finish_ok (s : State) : finish (.ok s) = .next s := rfl

@[simp] theorem finish_fault (f : Fault) : finish (.error (.fault f)) = .fault f := rfl

@[simp] theorem finish_refused (r : Refusal) : finish (.error (.refused r)) = .refused r := rfl

/-- An outcome is a next state exactly when the operation has a result. -/
@[simp] theorem finish_eq_next {r : Except Stop State} {s : State} :
    finish r = .next s ↔ r = .ok s := by
  rcases r with ⟨⟨⟩ | ⟨⟩⟩ | _ <;> simp [finish]

/-- An outcome is a fault exactly when the operation faults. -/
@[simp] theorem finish_eq_fault {r : Except Stop State} {f : Fault} :
    finish r = .fault f ↔ r = .error (.fault f) := by
  rcases r with ⟨⟨⟩ | ⟨⟩⟩ | _ <;> simp [finish]

end Sys2Proof.Machine
end

