-- ==== Sys2Proof/Laws/Num.lean ====
section
/-! SUPPORT. The binary32 numbers: what the fields of a built number are, the order, when a result is not
a NaN, and what `clamp` gives. -/

namespace Sys2Proof.Machine

theorem numMag_lt (x : Num32) : numMag x < 2 ^ 31 := Nat.mod_lt _ (by decide)

@[simp] theorem numSign_mkNum (n : Bool) {m : Nat} (h : m < 2 ^ 31) : numSign (mkNum n m) = n := by
  cases n
  · simp only [numSign, mkNum, BitVec.toNat_ofNat, decide_eq_false_iff_not]
    simp only [Bool.false_eq_true, if_false]; omega
  · simp only [numSign, mkNum, BitVec.toNat_ofNat, decide_eq_true_eq]
    simp only [if_true]; omega

@[simp] theorem numMag_mkNum (n : Bool) {m : Nat} (h : m < 2 ^ 31) : numMag (mkNum n m) = m := by
  cases n
  · simp only [numMag, mkNum, BitVec.toNat_ofNat]
    simp only [Bool.false_eq_true, if_false]; omega
  · simp only [numMag, mkNum, BitVec.toNat_ofNat]
    simp only [if_true]; omega

theorem roundMag_le (n d : Nat) : roundMag n d ≤ infMag := by
  unfold roundMag
  split
  · exact Nat.zero_le _
  · exact Nat.min_le_right _ _

theorem roundMag_lt (n d : Nat) : roundMag n d < 2 ^ 31 :=
  lt_of_le_of_lt (roundMag_le n d) (by decide)

theorem infMag_lt : infMag < 2 ^ 31 := by decide

/-- A number whose magnitude field is at most infinity's is no NaN. -/
theorem notNaN_mkNum (n : Bool) {m : Nat} (h : m ≤ infMag) : numIsNaN (mkNum n m) = false := by
  have h' : m < 2 ^ 31 := lt_of_le_of_lt h infMag_lt
  simp only [numIsNaN, numMag_mkNum n h', decide_eq_false_iff_not]
  omega

/-- The free NaN is a NaN whatever the free value is. -/
@[simp] theorem numIsNaN_numNaN (op : NumOp) (a b : Num32) : numIsNaN (numNaN op a b) = true := by
  have h : 0x7FC00000 + (Config.nanBits op a.bits b.bits).toNat % 2 ^ 22 < 2 ^ 31 := by omega
  simp only [numIsNaN, numNaN, numMag_mkNum _ h, decide_eq_true_eq, infMag]
  omega

/-! ### Sign, magnitude and order -/

@[simp] theorem numMag_numNeg (x : Num32) : numMag (numNeg x) = numMag x :=
  numMag_mkNum _ (numMag_lt x)

@[simp] theorem numSign_numNeg (x : Num32) : numSign (numNeg x) = !numSign x :=
  numSign_mkNum _ (numMag_lt x)

@[simp] theorem numMag_numAbs (x : Num32) : numMag (numAbs x) = numMag x :=
  numMag_mkNum _ (numMag_lt x)

@[simp] theorem numSign_numAbs (x : Num32) : numSign (numAbs x) = false :=
  numSign_mkNum _ (numMag_lt x)

@[simp] theorem numIsNaN_numNeg (x : Num32) : numIsNaN (numNeg x) = numIsNaN x := by
  simp [numIsNaN]

@[simp] theorem numIsNaN_numAbs (x : Num32) : numIsNaN (numAbs x) = numIsNaN x := by
  simp [numIsNaN]

@[simp] theorem numIsFinite_numNeg (x : Num32) : numIsFinite (numNeg x) = numIsFinite x := by
  simp [numIsFinite]

@[simp] theorem numIsFinite_numAbs (x : Num32) : numIsFinite (numAbs x) = numIsFinite x := by
  simp [numIsFinite]

@[simp] theorem numIsInf_numNeg (x : Num32) : numIsInf (numNeg x) = numIsInf x := by
  simp [numIsInf]

@[simp] theorem numKey_numNeg (x : Num32) : numKey (numNeg x) = -numKey x := by
  simp only [numKey, numSign_numNeg, numMag_numNeg]
  cases numSign x <;> simp

@[simp] theorem numKey_numAbs (x : Num32) : numKey (numAbs x) = (numMag x : Int) := by
  simp [numKey]

@[simp] theorem numKey_numZero : numKey numZero = 0 := by decide
@[simp] theorem numIsNaN_numZero : numIsNaN numZero = false := by decide
@[simp] theorem numIsFinite_numZero : numIsFinite numZero = true := by decide

/-- A finite number is no NaN. -/
theorem notNaN_of_finite {x : Num32} (h : numIsFinite x = true) : numIsNaN x = false := by
  simp only [numIsFinite, decide_eq_true_eq] at h
  simp only [numIsNaN, decide_eq_false_iff_not]
  omega

theorem numLt_iff {a b : Num32} :
    numLt a b = true ↔ numIsNaN a = false ∧ numIsNaN b = false ∧ numKey a < numKey b := by
  simp [numLt, and_assoc]

theorem numLe_iff {a b : Num32} :
    numLe a b = true ↔ numIsNaN a = false ∧ numIsNaN b = false ∧ numKey a ≤ numKey b := by
  simp [numLe, and_assoc]

/-- Where neither operand is a NaN, not less means at least. -/
theorem numLe_of_not_numLt {a b : Num32} (ha : numIsNaN a = false) (hb : numIsNaN b = false)
    (h : numLt a b = false) : numLe b a = true := by
  rw [numLe_iff]
  refine ⟨hb, ha, ?_⟩
  by_contra hk
  have : numLt a b = true := numLt_iff.2 ⟨ha, hb, by omega⟩
  simp [h] at this

/-- A magnitude at most a finite number's is finite. -/
theorem finite_of_between {x lo hi : Num32} (hlo : numIsFinite lo = true) (hhi : numIsFinite hi = true)
    (h1 : numLe lo x = true) (h2 : numLe x hi = true) : numIsFinite x = true := by
  obtain ⟨_, _, hk1⟩ := numLe_iff.1 h1
  obtain ⟨_, _, hk2⟩ := numLe_iff.1 h2
  simp only [numIsFinite, decide_eq_true_eq] at *
  simp only [numKey] at hk1 hk2
  split at hk1 <;> split at hk1 <;> split at hk2 <;> simp_all <;> omega

/-! ### Clamp -/

/-- `clamp` of a number that is no NaN lies between its bounds. -/
theorem numClamp_between {x lo hi : Num32} (h : numLe lo hi = true) (hx : numIsNaN x = false) :
    numLe lo (numClamp x lo hi) = true ∧ numLe (numClamp x lo hi) hi = true := by
  obtain ⟨hl, hh, hk⟩ := numLe_iff.1 h
  unfold numClamp
  split
  · exact ⟨numLe_iff.2 ⟨hl, hl, le_rfl⟩, h⟩
  · rename_i h1
    split
    · exact ⟨h, numLe_iff.2 ⟨hh, hh, le_rfl⟩⟩
    · rename_i h2
      exact ⟨numLe_of_not_numLt hx hl (by simpa using h1), numLe_of_not_numLt hh hx (by simpa using h2)⟩

/-- `clamp` gives its argument or a bound. -/
theorem numClamp_cases (x lo hi : Num32) :
    numClamp x lo hi = lo ∨ numClamp x lo hi = hi ∨ numClamp x lo hi = x := by
  unfold numClamp
  split
  · exact .inl rfl
  · split
    · exact .inr (.inl rfl)
    · exact .inr (.inr rfl)

/-- A bound that is finite and not negative makes a symmetric interval. -/
theorem numLe_neg_self {l : Num32} (hf : numIsFinite l = true) (h : numLt l numZero = false) :
    numLe (numNeg l) l = true := by
  have hn := notNaN_of_finite hf
  obtain ⟨_, _, hk⟩ := numLe_iff.1 (numLe_of_not_numLt hn numIsNaN_numZero h)
  rw [numKey_numZero] at hk
  exact numLe_iff.2 ⟨by simpa using hn, hn, by rw [numKey_numNeg]; omega⟩

/-! ### When a result is no NaN -/

/-- A finite number added to one that is no NaN gives no NaN. -/
theorem notNaN_numAdd {a b : Num32} (ha : numIsFinite a = true) (hb : numIsNaN b = false) :
    numIsNaN (numAdd a b) = false := by
  have hna := notNaN_of_finite ha
  have hia : numIsInf a = false := by
    simp only [numIsFinite, decide_eq_true_eq] at ha
    simp only [numIsInf, decide_eq_false_iff_not]; omega
  unfold numAdd
  simp only [hna, hb, hia, Bool.false_eq_true, or_self, if_false]
  split
  · exact hb
  · split
    · exact notNaN_mkNum _ (Nat.zero_le _)
    · exact notNaN_mkNum _ (roundMag_le _ _)

/-- The difference of finite numbers is no NaN. -/
theorem notNaN_numSub {a b : Num32} (ha : numIsFinite a = true) (hb : numIsFinite b = true) :
    numIsNaN (numSub a b) = false :=
  notNaN_numAdd ha (by simpa using notNaN_of_finite hb)

/-- The product of a number that is no NaN with a finite one that is not zero is no NaN. -/
theorem notNaN_numMul {a b : Num32} (ha : numIsNaN a = false) (hb : numIsFinite b = true)
    (hz : numIsZero b = false) : numIsNaN (numMul a b) = false := by
  have hnb := notNaN_of_finite hb
  have hib : numIsInf b = false := by
    simp only [numIsFinite, decide_eq_true_eq] at hb
    simp only [numIsInf, decide_eq_false_iff_not]; omega
  unfold numMul
  simp only [ha, hnb, hib, hz, Bool.false_eq_true, or_self, or_false, if_false]
  split
  · rename_i hi
    have hza : numIsZero a = false := by
      simp only [numIsInf, decide_eq_true_eq] at hi
      simp only [numIsZero, decide_eq_false_iff_not, hi]; decide
    simp only [hza, Bool.false_eq_true, if_false]
    exact notNaN_mkNum _ le_rfl
  · exact notNaN_mkNum _ (roundMag_le _ _)

/-- A NaN in the first operand of a sum gives a NaN. -/
theorem numIsNaN_numAdd_left {a b : Num32} (h : numIsNaN a = true) : numIsNaN (numAdd a b) = true := by
  simp [numAdd, h]

/-- Zero times an infinity is a NaN. -/
theorem numIsNaN_numMul_zero_inf {a b : Num32} (ha : numIsZero a = true) (hb : numIsInf b = true) :
    numIsNaN (numMul a b) = true := by
  unfold numMul
  split
  · exact numIsNaN_numNaN _ _ _
  · simp [ha, hb]

/-- An integer converts to a number that is no NaN. -/
theorem notNaN_i2n (k : Int) : numIsNaN (i2n k) = false := notNaN_mkNum _ (roundMag_le _ _)

/-! ### Rounding -/

/-- Comparing with a power of two in whole numbers is comparing with it in the rationals. -/
theorem pow_lt_iff (n d : Nat) (k : Int) :
    n * 2 ^ (-k).toNat < d * 2 ^ k.toNat ↔ (n : ℚ) < d * 2 ^ k := by
  rcases le_total 0 k with h | h
  · obtain ⟨m, rfl⟩ := Int.eq_ofNat_of_zero_le h
    simp only [Int.toNat_natCast, zpow_natCast]
    have : (-(m : Int)).toNat = 0 := by omega
    rw [this, pow_zero, mul_one]
    norm_cast
  · obtain ⟨m, hm⟩ := Int.eq_ofNat_of_zero_le (neg_nonneg.2 h)
    obtain rfl : k = -(m : Int) := by omega
    have : (-(m : Int)).toNat = 0 := by omega
    rw [this]
    simp only [neg_neg, Int.toNat_natCast, pow_zero, mul_one, zpow_neg, zpow_natCast]
    rw [← div_eq_mul_inv, lt_div_iff₀ (by positivity)]
    exact_mod_cast Iff.rfl

/-- The bounds of a number by the power of two of its bit length. -/
theorem log2_bounds {n : Nat} (h : n ≠ 0) :
    (2 : ℚ) ^ (n.log2 : Int) ≤ n ∧ (n : ℚ) < 2 ^ ((n.log2 : Int) + 1) := by
  constructor
  · rw [zpow_natCast]; exact_mod_cast Nat.log2_self_le h
  · have := @Nat.lt_log2_self n
    have h2 : ((n.log2 : Int) + 1) = ((n.log2 + 1 : Nat) : Int) := by push_cast; ring
    rw [h2, zpow_natCast]; exact_mod_cast this

/-- What `ratExp` is: the binary exponent of `n / d`, held within -126 and 128. -/
theorem ratExp_spec {n d : Nat} (hn : n ≠ 0) (hd : 0 < d) :
    -126 ≤ ratExp n d ∧ ratExp n d ≤ 128 ∧
    (ratExp n d < 128 → (n : ℚ) < d * 2 ^ (ratExp n d + 1)) ∧
    (-126 < ratExp n d → (d : ℚ) * 2 ^ ratExp n d ≤ n) := by
  obtain ⟨hn1, hn2⟩ := log2_bounds hn
  obtain ⟨hd1, hd2⟩ := log2_bounds (Nat.ne_of_gt hd)
  have hdpos : (0 : ℚ) < d := by exact_mod_cast hd
  set a : Int := (n.log2 : Int) with ha
  set b : Int := (d.log2 : Int) with hb
  have up : ∀ k : Int, a - b ≤ k → (n : ℚ) < d * 2 ^ (k + 1) := by
    intro k hk
    calc (n : ℚ) < 2 ^ (a + 1) := hn2
      _ ≤ 2 ^ (b + (k + 1)) := zpow_le_zpow_right₀ (by norm_num) (by omega)
      _ = 2 ^ b * 2 ^ (k + 1) := zpow_add₀ (by norm_num) _ _
      _ ≤ d * 2 ^ (k + 1) := mul_le_mul_of_nonneg_right hd1 (by positivity)
  have dn : ∀ k : Int, k < a - b → (d : ℚ) * 2 ^ k ≤ n := by
    intro k hk
    calc (d : ℚ) * 2 ^ k ≤ 2 ^ (b + 1) * 2 ^ k := mul_le_mul_of_nonneg_right hd2.le (by positivity)
      _ = 2 ^ (b + 1 + k) := (zpow_add₀ (by norm_num) _ _).symm
      _ ≤ 2 ^ a := zpow_le_zpow_right₀ (by norm_num) (by omega)
      _ ≤ n := hn1
  unfold ratExp
  simp only [pow_lt_iff, ← ha, ← hb]
  generalize he : min (max (a - b) (-126)) 128 = e
  split_ifs with hlt
  · refine ⟨by omega, by omega, fun _ => ?_, fun h => ?_⟩
    · rcases le_total (e - 1) (-126) with h1 | h1
      · rw [max_eq_right h1]
        rcases eq_or_lt_of_le (show e ≤ -126 + 1 by omega) with h2 | h2
        · rw [h2] at hlt; exact hlt
        · exact up (-126) (by omega)
      · rw [max_eq_left h1, sub_add_cancel]; exact hlt
    · have : max (e - 1) (-126) = e - 1 := by omega
      rw [this]; exact dn _ (by omega)
  · refine ⟨by omega, by omega, fun h => up e (by omega), fun _ => ?_⟩
    exact not_lt.1 hlt

/-- A quotient in a quantum `2^q` is not rounded above a whole bound it stays below. -/
theorem roundQuot_le {n d : Nat} {q : Int} {k : Nat} (h : (n : ℚ) < d * 2 ^ q * k) :
    roundQuot n d q ≤ k := by
  have hq : n * 2 ^ (-q).toNat < (d * 2 ^ q.toNat) * k := by
    have := (pow_lt_iff n (d * k) q).2 (by push_cast; linarith)
    calc _ < _ := this
      _ = _ := by ring
  have : n * 2 ^ (-q).toNat / (d * 2 ^ q.toNat) < k := Nat.div_lt_of_lt_mul hq
  unfold roundQuot
  simp only
  split <;> omega

/-- A rational below `2^127` rounds to a finite number. -/
theorem roundMag_finite {n d : Nat} (hd : 0 < d) (h : n < d * 2 ^ 127) : roundMag n d < infMag := by
  unfold roundMag
  split
  · decide
  · rename_i hn
    obtain ⟨h1, h2, h3, h4⟩ := ratExp_spec hn hd
    have hdpos : (0 : ℚ) < d := by exact_mod_cast hd
    have he : ratExp n d < 127 := by
      by_contra hge
      have hle := h4 (by omega)
      have h5 : (d : ℚ) * 2 ^ (127 : Int) ≤ d * 2 ^ ratExp n d :=
        mul_le_mul_of_nonneg_left (zpow_le_zpow_right₀ (by norm_num) (by omega)) hdpos.le
      have h6 : (n : ℚ) < d * 2 ^ (127 : Int) := by exact_mod_cast h
      linarith
    have hr : roundQuot n d (ratExp n d - 23) ≤ 2 ^ 24 := by
      apply roundQuot_le
      have := h3 (by omega)
      calc (n : ℚ) < d * 2 ^ (ratExp n d + 1) := this
        _ = d * 2 ^ (ratExp n d - 23) * ((2 ^ 24 : Nat) : ℚ) := by
          rw [show ratExp n d + 1 = (ratExp n d - 23) + 24 by ring, zpow_add₀ (by norm_num)]
          push_cast; rw [mul_assoc]
    simp only
    have : (ratExp n d + 126).toNat ≤ 252 := by omega
    have hinf : infMag = 255 * 2 ^ 23 := by decide
    omega

/-- A built number with a finite magnitude field is finite. -/
theorem numIsFinite_mkNum (neg : Bool) {m : Nat} (h : m < infMag) : numIsFinite (mkNum neg m) = true := by
  simp only [numIsFinite, numMag_mkNum neg (lt_trans h infMag_lt), decide_eq_true_eq]
  exact h

/-- An integer of at most 126 bits converts to a finite number. -/
theorem numIsFinite_i2n {k : Int} (h : k.natAbs < 2 ^ 127) : numIsFinite (i2n k) = true :=
  numIsFinite_mkNum _ (roundMag_finite (by decide) (by omega))

/-- A finite number is below `2^277` units, that is below `2^128`. -/
theorem numUnits_lt {x : Num32} (h : numIsFinite x = true) : numUnits x < 2 ^ 277 := by
  simp only [numIsFinite, decide_eq_true_eq] at h
  have hinf : infMag = 255 * 2 ^ 23 := by decide
  have hf : numMag x % 2 ^ 23 < 2 ^ 23 := Nat.mod_lt _ (by decide)
  unfold numUnits
  split
  · exact lt_of_lt_of_le hf (Nat.pow_le_pow_right (by decide) (by decide))
  · have he : numMag x / 2 ^ 23 - 1 ≤ 253 := by omega
    calc (2 ^ 23 + numMag x % 2 ^ 23) * 2 ^ (numMag x / 2 ^ 23 - 1)
        < 2 ^ 24 * 2 ^ (numMag x / 2 ^ 23 - 1) := Nat.mul_lt_mul_of_pos_right (by omega) (by positivity)
      _ ≤ 2 ^ 24 * 2 ^ 253 := Nat.mul_le_mul_left _ (Nat.pow_le_pow_right (by norm_num) he)
      _ = 2 ^ (24 + 253) := (pow_add _ _ _).symm

/-! ### Values -/

/-- The next magnitude field has a larger value. -/
theorem numUnits_lt_succ {x y : Num32} (h : numMag y = numMag x + 1) : numUnits x < numUnits y := by
  unfold numUnits
  rw [h]
  by_cases hc : numMag x % 2 ^ 23 = 2 ^ 23 - 1
  · rw [show (numMag x + 1) / 2 ^ 23 = numMag x / 2 ^ 23 + 1 by omega,
      show (numMag x + 1) % 2 ^ 23 = 0 by omega, hc]
    cases numMag x / 2 ^ 23 with
    | zero => decide
    | succ k =>
      simp only [Nat.succ_ne_zero, if_false, Nat.add_sub_cancel, pow_succ]
      have : 0 < 2 ^ k := by positivity
      omega
  · rw [show (numMag x + 1) / 2 ^ 23 = numMag x / 2 ^ 23 by omega,
      show (numMag x + 1) % 2 ^ 23 = numMag x % 2 ^ 23 + 1 by omega]
    split
    · omega
    · exact Nat.mul_lt_mul_of_pos_right (by omega) (by positivity)

/-- The values of one sign are ordered as their magnitude fields. -/
theorem numUnits_lt_of_numMag_lt {x y : Num32} (h : numMag x < numMag y) : numUnits x < numUnits y := by
  obtain ⟨k, hk⟩ := Nat.exists_eq_add_of_lt h
  induction k generalizing y with
  | zero => exact numUnits_lt_succ hk
  | succ k ih =>
    have hy := numMag_lt y
    have hz : numMag (mkNum false (numMag x + k + 1)) = numMag x + k + 1 :=
      numMag_mkNum _ (by omega)
    exact lt_trans (ih (by omega) hz) (numUnits_lt_succ (by omega))

/-- A finite number is no infinity. -/
theorem notInf_of_finite {x : Num32} (h : numIsFinite x = true) : numIsInf x = false := by
  simp only [numIsFinite, decide_eq_true_eq] at h
  simp only [numIsInf, decide_eq_false_iff_not]
  omega

/-- Everything the sum of finite numbers can be. -/
theorem numAdd_of_finite {a b : Num32} (ha : numIsFinite a = true) (hb : numIsFinite b = true) :
    numAdd a b =
      if numInt a + numInt b = 0 then mkNum (numSign a && numSign b) 0
      else mkNum (decide (numInt a + numInt b < 0)) (roundMag (numInt a + numInt b).natAbs (2 ^ 149)) := by
  simp [numAdd, notNaN_of_finite ha, notNaN_of_finite hb, notInf_of_finite ha, notInf_of_finite hb]

end Sys2Proof.Machine
end

