-- ==== Sys2Proof/Laws/State.lean ====
section
/-! SUPPORT. What each writer of the state leaves in each field: one lemma per field per writer, true by
`rfl`, so that no proof unfolds a record update. -/

namespace Sys2Proof.Machine

@[simp] theorem setRxq_cfg (r : Rxq) (s : State) : (setRxq r s).cfg = s.cfg := rfl
@[simp] theorem setRxq_rxq (r : Rxq) (s : State) : (setRxq r s).rxq = r := rfl
@[simp] theorem setRxq_cfp (r : Rxq) (s : State) : (setRxq r s).cfp = s.cfp := rfl
@[simp] theorem setRxq_lift (r : Rxq) (s : State) : (setRxq r s).lift = s.lift := rfl
@[simp] theorem setRxq_fsm (r : Rxq) (s : State) : (setRxq r s).fsm = s.fsm := rfl
@[simp] theorem setRxq_pid (r : Rxq) (s : State) : (setRxq r s).pid = s.pid := rfl
@[simp] theorem setRxq_enc (r : Rxq) (s : State) : (setRxq r s).enc = s.enc := rfl
@[simp] theorem setRxq_seq (r : Rxq) (s : State) : (setRxq r s).seq = s.seq := rfl
@[simp] theorem setRxq_trace (r : Rxq) (s : State) : (setRxq r s).trace = s.trace := rfl
@[simp] theorem setRxq_sched (r : Rxq) (s : State) : (setRxq r s).sched = s.sched := rfl
@[simp] theorem setRxq_ret (r : Rxq) (s : State) : (setRxq r s).ret = s.ret := rfl
@[simp] theorem setRxq_inputN (r : Rxq) (s : State) : (setRxq r s).inputN = s.inputN := rfl

@[simp] theorem setCfp_cfg (c : Cfp) (s : State) : (setCfp c s).cfg = s.cfg := rfl
@[simp] theorem setCfp_rxq (c : Cfp) (s : State) : (setCfp c s).rxq = s.rxq := rfl
@[simp] theorem setCfp_cfp (c : Cfp) (s : State) : (setCfp c s).cfp = c := rfl
@[simp] theorem setCfp_lift (c : Cfp) (s : State) : (setCfp c s).lift = s.lift := rfl
@[simp] theorem setCfp_fsm (c : Cfp) (s : State) : (setCfp c s).fsm = s.fsm := rfl
@[simp] theorem setCfp_pid (c : Cfp) (s : State) : (setCfp c s).pid = s.pid := rfl
@[simp] theorem setCfp_enc (c : Cfp) (s : State) : (setCfp c s).enc = s.enc := rfl
@[simp] theorem setCfp_seq (c : Cfp) (s : State) : (setCfp c s).seq = s.seq := rfl
@[simp] theorem setCfp_trace (c : Cfp) (s : State) : (setCfp c s).trace = s.trace := rfl
@[simp] theorem setCfp_sched (c : Cfp) (s : State) : (setCfp c s).sched = s.sched := rfl
@[simp] theorem setCfp_ret (c : Cfp) (s : State) : (setCfp c s).ret = s.ret := rfl
@[simp] theorem setCfp_inputN (c : Cfp) (s : State) : (setCfp c s).inputN = s.inputN := rfl

@[simp] theorem setLift_cfg (l : Lift) (s : State) : (setLift l s).cfg = s.cfg := rfl
@[simp] theorem setLift_rxq (l : Lift) (s : State) : (setLift l s).rxq = s.rxq := rfl
@[simp] theorem setLift_cfp (l : Lift) (s : State) : (setLift l s).cfp = s.cfp := rfl
@[simp] theorem setLift_lift (l : Lift) (s : State) : (setLift l s).lift = l := rfl
@[simp] theorem setLift_fsm (l : Lift) (s : State) : (setLift l s).fsm = s.fsm := rfl
@[simp] theorem setLift_pid (l : Lift) (s : State) : (setLift l s).pid = s.pid := rfl
@[simp] theorem setLift_enc (l : Lift) (s : State) : (setLift l s).enc = s.enc := rfl
@[simp] theorem setLift_seq (l : Lift) (s : State) : (setLift l s).seq = s.seq := rfl
@[simp] theorem setLift_trace (l : Lift) (s : State) : (setLift l s).trace = s.trace := rfl
@[simp] theorem setLift_sched (l : Lift) (s : State) : (setLift l s).sched = s.sched := rfl
@[simp] theorem setLift_ret (l : Lift) (s : State) : (setLift l s).ret = s.ret := rfl
@[simp] theorem setLift_inputN (l : Lift) (s : State) : (setLift l s).inputN = s.inputN := rfl

@[simp] theorem setFsm_cfg (f : FsmState) (s : State) : (setFsm f s).cfg = s.cfg := rfl
@[simp] theorem setFsm_rxq (f : FsmState) (s : State) : (setFsm f s).rxq = s.rxq := rfl
@[simp] theorem setFsm_cfp (f : FsmState) (s : State) : (setFsm f s).cfp = s.cfp := rfl
@[simp] theorem setFsm_lift (f : FsmState) (s : State) : (setFsm f s).lift = s.lift := rfl
@[simp] theorem setFsm_fsm (f : FsmState) (s : State) : (setFsm f s).fsm = f := rfl
@[simp] theorem setFsm_pid (f : FsmState) (s : State) : (setFsm f s).pid = s.pid := rfl
@[simp] theorem setFsm_enc (f : FsmState) (s : State) : (setFsm f s).enc = s.enc := rfl
@[simp] theorem setFsm_seq (f : FsmState) (s : State) : (setFsm f s).seq = s.seq := rfl
@[simp] theorem setFsm_trace (f : FsmState) (s : State) : (setFsm f s).trace = s.trace := rfl
@[simp] theorem setFsm_sched (f : FsmState) (s : State) : (setFsm f s).sched = s.sched := rfl
@[simp] theorem setFsm_ret (f : FsmState) (s : State) : (setFsm f s).ret = s.ret := rfl
@[simp] theorem setFsm_inputN (f : FsmState) (s : State) : (setFsm f s).inputN = s.inputN := rfl

@[simp] theorem setEnc_cfg (e : Enc) (s : State) : (setEnc e s).cfg = s.cfg := rfl
@[simp] theorem setEnc_rxq (e : Enc) (s : State) : (setEnc e s).rxq = s.rxq := rfl
@[simp] theorem setEnc_cfp (e : Enc) (s : State) : (setEnc e s).cfp = s.cfp := rfl
@[simp] theorem setEnc_lift (e : Enc) (s : State) : (setEnc e s).lift = s.lift := rfl
@[simp] theorem setEnc_fsm (e : Enc) (s : State) : (setEnc e s).fsm = s.fsm := rfl
@[simp] theorem setEnc_pid (e : Enc) (s : State) : (setEnc e s).pid = s.pid := rfl
@[simp] theorem setEnc_enc (e : Enc) (s : State) : (setEnc e s).enc = e := rfl
@[simp] theorem setEnc_seq (e : Enc) (s : State) : (setEnc e s).seq = s.seq := rfl
@[simp] theorem setEnc_trace (e : Enc) (s : State) : (setEnc e s).trace = s.trace := rfl
@[simp] theorem setEnc_sched (e : Enc) (s : State) : (setEnc e s).sched = s.sched := rfl
@[simp] theorem setEnc_ret (e : Enc) (s : State) : (setEnc e s).ret = s.ret := rfl
@[simp] theorem setEnc_inputN (e : Enc) (s : State) : (setEnc e s).inputN = s.inputN := rfl

@[simp] theorem setSeq_cfg (q : SeqRegs) (s : State) : (setSeq q s).cfg = s.cfg := rfl
@[simp] theorem setSeq_rxq (q : SeqRegs) (s : State) : (setSeq q s).rxq = s.rxq := rfl
@[simp] theorem setSeq_cfp (q : SeqRegs) (s : State) : (setSeq q s).cfp = s.cfp := rfl
@[simp] theorem setSeq_lift (q : SeqRegs) (s : State) : (setSeq q s).lift = s.lift := rfl
@[simp] theorem setSeq_fsm (q : SeqRegs) (s : State) : (setSeq q s).fsm = s.fsm := rfl
@[simp] theorem setSeq_pid (q : SeqRegs) (s : State) : (setSeq q s).pid = s.pid := rfl
@[simp] theorem setSeq_enc (q : SeqRegs) (s : State) : (setSeq q s).enc = s.enc := rfl
@[simp] theorem setSeq_seq (q : SeqRegs) (s : State) : (setSeq q s).seq = q := rfl
@[simp] theorem setSeq_trace (q : SeqRegs) (s : State) : (setSeq q s).trace = s.trace := rfl
@[simp] theorem setSeq_sched (q : SeqRegs) (s : State) : (setSeq q s).sched = s.sched := rfl
@[simp] theorem setSeq_ret (q : SeqRegs) (s : State) : (setSeq q s).ret = s.ret := rfl
@[simp] theorem setSeq_inputN (q : SeqRegs) (s : State) : (setSeq q s).inputN = s.inputN := rfl

@[simp] theorem setRet_cfg (v : Ret) (s : State) : (setRet v s).cfg = s.cfg := rfl
@[simp] theorem setRet_rxq (v : Ret) (s : State) : (setRet v s).rxq = s.rxq := rfl
@[simp] theorem setRet_cfp (v : Ret) (s : State) : (setRet v s).cfp = s.cfp := rfl
@[simp] theorem setRet_lift (v : Ret) (s : State) : (setRet v s).lift = s.lift := rfl
@[simp] theorem setRet_fsm (v : Ret) (s : State) : (setRet v s).fsm = s.fsm := rfl
@[simp] theorem setRet_pid (v : Ret) (s : State) : (setRet v s).pid = s.pid := rfl
@[simp] theorem setRet_enc (v : Ret) (s : State) : (setRet v s).enc = s.enc := rfl
@[simp] theorem setRet_seq (v : Ret) (s : State) : (setRet v s).seq = s.seq := rfl
@[simp] theorem setRet_trace (v : Ret) (s : State) : (setRet v s).trace = s.trace := rfl
@[simp] theorem setRet_sched (v : Ret) (s : State) : (setRet v s).sched = s.sched := rfl
@[simp] theorem setRet_ret (v : Ret) (s : State) : (setRet v s).ret = v := rfl
@[simp] theorem setRet_inputN (v : Ret) (s : State) : (setRet v s).inputN = s.inputN := rfl

@[simp] theorem setSched_cfg (es : List Event) (s : State) : (setSched es s).cfg = s.cfg := rfl
@[simp] theorem setSched_rxq (es : List Event) (s : State) : (setSched es s).rxq = s.rxq := rfl
@[simp] theorem setSched_cfp (es : List Event) (s : State) : (setSched es s).cfp = s.cfp := rfl
@[simp] theorem setSched_lift (es : List Event) (s : State) : (setSched es s).lift = s.lift := rfl
@[simp] theorem setSched_fsm (es : List Event) (s : State) : (setSched es s).fsm = s.fsm := rfl
@[simp] theorem setSched_pid (es : List Event) (s : State) : (setSched es s).pid = s.pid := rfl
@[simp] theorem setSched_enc (es : List Event) (s : State) : (setSched es s).enc = s.enc := rfl
@[simp] theorem setSched_seq (es : List Event) (s : State) : (setSched es s).seq = s.seq := rfl
@[simp] theorem setSched_trace (es : List Event) (s : State) : (setSched es s).trace = s.trace := rfl
@[simp] theorem setSched_sched (es : List Event) (s : State) : (setSched es s).sched = es := rfl
@[simp] theorem setSched_ret (es : List Event) (s : State) : (setSched es s).ret = s.ret := rfl
@[simp] theorem setSched_inputN (es : List Event) (s : State) : (setSched es s).inputN = s.inputN := rfl

@[simp] theorem setInputN_cfg (n : Nat) (s : State) : (setInputN n s).cfg = s.cfg := rfl
@[simp] theorem setInputN_rxq (n : Nat) (s : State) : (setInputN n s).rxq = s.rxq := rfl
@[simp] theorem setInputN_cfp (n : Nat) (s : State) : (setInputN n s).cfp = s.cfp := rfl
@[simp] theorem setInputN_lift (n : Nat) (s : State) : (setInputN n s).lift = s.lift := rfl
@[simp] theorem setInputN_fsm (n : Nat) (s : State) : (setInputN n s).fsm = s.fsm := rfl
@[simp] theorem setInputN_pid (n : Nat) (s : State) : (setInputN n s).pid = s.pid := rfl
@[simp] theorem setInputN_enc (n : Nat) (s : State) : (setInputN n s).enc = s.enc := rfl
@[simp] theorem setInputN_seq (n : Nat) (s : State) : (setInputN n s).seq = s.seq := rfl
@[simp] theorem setInputN_trace (n : Nat) (s : State) : (setInputN n s).trace = s.trace := rfl
@[simp] theorem setInputN_sched (n : Nat) (s : State) : (setInputN n s).sched = s.sched := rfl
@[simp] theorem setInputN_ret (n : Nat) (s : State) : (setInputN n s).ret = s.ret := rfl
@[simp] theorem setInputN_inputN (n : Nat) (s : State) : (setInputN n s).inputN = n := rfl

@[simp] theorem emit_cfg (e : OutEvent) (s : State) : (emit e s).cfg = s.cfg := rfl
@[simp] theorem emit_rxq (e : OutEvent) (s : State) : (emit e s).rxq = s.rxq := rfl
@[simp] theorem emit_cfp (e : OutEvent) (s : State) : (emit e s).cfp = s.cfp := rfl
@[simp] theorem emit_lift (e : OutEvent) (s : State) : (emit e s).lift = s.lift := rfl
@[simp] theorem emit_fsm (e : OutEvent) (s : State) : (emit e s).fsm = s.fsm := rfl
@[simp] theorem emit_pid (e : OutEvent) (s : State) : (emit e s).pid = s.pid := rfl
@[simp] theorem emit_enc (e : OutEvent) (s : State) : (emit e s).enc = s.enc := rfl
@[simp] theorem emit_seq (e : OutEvent) (s : State) : (emit e s).seq = s.seq := rfl
@[simp] theorem emit_trace (e : OutEvent) (s : State) : (emit e s).trace = s.trace ++ [e] := rfl
@[simp] theorem emit_sched (e : OutEvent) (s : State) : (emit e s).sched = s.sched := rfl
@[simp] theorem emit_ret (e : OutEvent) (s : State) : (emit e s).ret = s.ret := rfl
@[simp] theorem emit_inputN (e : OutEvent) (s : State) : (emit e s).inputN = s.inputN := rfl

@[simp] theorem setPid_cfg (i : Nat) (p : Pid) (s : State) : (setPid i p s).cfg = s.cfg := rfl
@[simp] theorem setPid_rxq (i : Nat) (p : Pid) (s : State) : (setPid i p s).rxq = s.rxq := rfl
@[simp] theorem setPid_cfp (i : Nat) (p : Pid) (s : State) : (setPid i p s).cfp = s.cfp := rfl
@[simp] theorem setPid_lift (i : Nat) (p : Pid) (s : State) : (setPid i p s).lift = s.lift := rfl
@[simp] theorem setPid_fsm (i : Nat) (p : Pid) (s : State) : (setPid i p s).fsm = s.fsm := rfl
@[simp] theorem setPid_pid (i : Nat) (p : Pid) (s : State) : (setPid i p s).pid = s.pid.set i p := rfl
@[simp] theorem setPid_enc (i : Nat) (p : Pid) (s : State) : (setPid i p s).enc = s.enc := rfl
@[simp] theorem setPid_seq (i : Nat) (p : Pid) (s : State) : (setPid i p s).seq = s.seq := rfl
@[simp] theorem setPid_trace (i : Nat) (p : Pid) (s : State) : (setPid i p s).trace = s.trace := rfl
@[simp] theorem setPid_sched (i : Nat) (p : Pid) (s : State) : (setPid i p s).sched = s.sched := rfl
@[simp] theorem setPid_ret (i : Nat) (p : Pid) (s : State) : (setPid i p s).ret = s.ret := rfl
@[simp] theorem setPid_inputN (i : Nat) (p : Pid) (s : State) : (setPid i p s).inputN = s.inputN := rfl

/-! ### Instances: reading and finding one depends on the instances alone -/

@[simp] theorem getPid_setRxq (i : Nat) (r : Rxq) (s : State) :
    getPid i (setRxq r s) = getPid i s := rfl
@[simp] theorem hasPid_setRxq (i : Nat) (r : Rxq) (s : State) :
    hasPid i (setRxq r s) = hasPid i s := rfl
@[simp] theorem getPid_setCfp (i : Nat) (c : Cfp) (s : State) :
    getPid i (setCfp c s) = getPid i s := rfl
@[simp] theorem hasPid_setCfp (i : Nat) (c : Cfp) (s : State) :
    hasPid i (setCfp c s) = hasPid i s := rfl
@[simp] theorem getPid_setLift (i : Nat) (l : Lift) (s : State) :
    getPid i (setLift l s) = getPid i s := rfl
@[simp] theorem hasPid_setLift (i : Nat) (l : Lift) (s : State) :
    hasPid i (setLift l s) = hasPid i s := rfl
@[simp] theorem getPid_setFsm (i : Nat) (f : FsmState) (s : State) :
    getPid i (setFsm f s) = getPid i s := rfl
@[simp] theorem hasPid_setFsm (i : Nat) (f : FsmState) (s : State) :
    hasPid i (setFsm f s) = hasPid i s := rfl
@[simp] theorem getPid_setEnc (i : Nat) (e : Enc) (s : State) :
    getPid i (setEnc e s) = getPid i s := rfl
@[simp] theorem hasPid_setEnc (i : Nat) (e : Enc) (s : State) :
    hasPid i (setEnc e s) = hasPid i s := rfl
@[simp] theorem getPid_setSeq (i : Nat) (q : SeqRegs) (s : State) :
    getPid i (setSeq q s) = getPid i s := rfl
@[simp] theorem hasPid_setSeq (i : Nat) (q : SeqRegs) (s : State) :
    hasPid i (setSeq q s) = hasPid i s := rfl
@[simp] theorem getPid_setRet (i : Nat) (v : Ret) (s : State) :
    getPid i (setRet v s) = getPid i s := rfl
@[simp] theorem hasPid_setRet (i : Nat) (v : Ret) (s : State) :
    hasPid i (setRet v s) = hasPid i s := rfl
@[simp] theorem getPid_setSched (i : Nat) (es : List Event) (s : State) :
    getPid i (setSched es s) = getPid i s := rfl
@[simp] theorem hasPid_setSched (i : Nat) (es : List Event) (s : State) :
    hasPid i (setSched es s) = hasPid i s := rfl
@[simp] theorem getPid_setInputN (i : Nat) (n : Nat) (s : State) :
    getPid i (setInputN n s) = getPid i s := rfl
@[simp] theorem hasPid_setInputN (i : Nat) (n : Nat) (s : State) :
    hasPid i (setInputN n s) = hasPid i s := rfl
@[simp] theorem getPid_emit (i : Nat) (e : OutEvent) (s : State) :
    getPid i (emit e s) = getPid i s := rfl
@[simp] theorem hasPid_emit (i : Nat) (e : OutEvent) (s : State) :
    hasPid i (emit e s) = hasPid i s := rfl

theorem hasPid_iff {i : Nat} {s : State} : hasPid i s = true ↔ i < s.pid.length := by simp [hasPid]

@[simp] theorem hasPid_setPid (i j : Nat) (p : Pid) (s : State) :
    hasPid i (setPid j p s) = hasPid i s := by simp [hasPid]

/-- Where the instance exists, what was written is read. -/
theorem getPid_setPid_same {i : Nat} {s : State} (h : hasPid i s = true) (p : Pid) :
    getPid i (setPid i p s) = p := by
  rw [hasPid_iff] at h
  simp [getPid, h]

theorem getPid_setPid_other {i j : Nat} (h : i ≠ j) (p : Pid) (s : State) :
    getPid i (setPid j p s) = getPid i s := by
  simp [getPid, List.getElem?_set_ne (Ne.symm h)]

/-- What holds of every instance holds of the one read, where it exists. -/
theorem getPid_of_all {P : Pid → Bool} {i : Nat} {s : State} (h : s.pid.all P = true)
    (hi : hasPid i s = true) : P (getPid i s) = true := by
  rw [hasPid_iff] at hi
  simp only [getPid, List.getD_eq_getElem?_getD, List.getElem?_eq_getElem hi, Option.getD_some]
  exact List.all_eq_true.1 h _ (List.getElem_mem hi)

/-- What holds of every instance and of the one written holds of every instance after the write. -/
theorem setPid_all {P : Pid → Bool} {i : Nat} {p : Pid} {s : State} (h : s.pid.all P = true)
    (hp : P p = true) : (setPid i p s).pid.all P = true := by
  simp only [setPid_pid, List.all_eq_true] at h ⊢
  intro x hx
  rcases List.mem_or_eq_of_mem_set hx with hx | rfl
  · exact h x hx
  · exact hp

/-! ### Writing back what is there changes nothing -/

theorem setRxq_self (s : State) : setRxq s.rxq s = s := rfl
theorem setCfp_self (s : State) : setCfp s.cfp s = s := rfl
theorem setLift_self (s : State) : setLift s.lift s = s := rfl
theorem setFsm_self (s : State) : setFsm s.fsm s = s := rfl
theorem setEnc_self (s : State) : setEnc s.enc s = s := rfl
theorem setSeq_self (s : State) : setSeq s.seq s = s := rfl
theorem setRet_self (s : State) : setRet s.ret s = s := rfl
theorem setSched_self (s : State) : setSched s.sched s = s := rfl
theorem setInputN_self (s : State) : setInputN s.inputN s = s := rfl

theorem setPid_self (i : Nat) (s : State) : setPid i (getPid i s) s = s := by
  have h : s.pid.set i (getPid i s) = s.pid := by
    apply List.ext_getElem
    · simp
    · intro k h1 h2
      rw [List.getElem_set]
      split
      · subst k; simp [getPid, h2]
      · rfl
  simp [setPid, h]

end Sys2Proof.Machine
end

