-- ==== Sys2Proof/Laws/Pid.lean ====
section
/-! SUPPORT. What a PID instance can do, said once. -/

namespace Sys2Proof.Machine

/-- Everything `PID_CALC` can answer: its preconditions held and the stages ran. -/
theorem pidCalc_eq_ok {cfg : Params} {p : Pid} {t m dt : Num32} {r : Num32 × Pid} :
    pidCalc cfg p t m dt = .ok r ↔
      p.inited = true ∧ pidConfigLegal p = true ∧ dtBoundsFinite cfg = true ∧
        (numIsFinite t = true ∧ numIsFinite m = true ∧ numIsFinite dt = true) ∧
        pidAccumulatorsFinite p = true ∧ pidStages cfg p t m dt = r := by
  simp [pidCalc, refuseUnless_eq_ok, and_assoc]

/-- `PID_CALC` never faults. -/
theorem pidCalc_no_fault (cfg : Params) (p : Pid) (t m dt : Num32) (f : Fault) :
    pidCalc cfg p t m dt ≠ .error (.fault f) := by
  simp [pidCalc, refuseUnless_eq_fault]

/-- The stages write the three accumulators and nothing else. -/
theorem pidStages_config (cfg : Params) (p : Pid) (t m dt : Num32) :
    (pidStages cfg p t m dt).2 =
      { p with
        integral := (pidStages cfg p t m dt).2.integral
        lastMeasured := (pidStages cfg p t m dt).2.lastMeasured
        lastFiltered := (pidStages cfg p t m dt).2.lastFiltered } := by
  unfold pidStages; simp only; split <;> rfl

/-- The clamped time step lies between the bounds, whatever finite `dt` is (R115, R126). -/
theorem clampDt_between {cfg : Params} {dt : Num32} (hc : numLe cfg.dtMin cfg.dtMax = true)
    (h : numIsFinite dt = true) :
    numLe cfg.dtMin (clampDt cfg dt) = true ∧ numLe (clampDt cfg dt) cfg.dtMax = true :=
  numClamp_between hc (notNaN_of_finite h)

theorem clampDt_finite {cfg : Params} {dt : Num32} (hf : dtBoundsFinite cfg = true)
    (h : numIsFinite dt = true) : numIsFinite (clampDt cfg dt) = true := by
  simp only [dtBoundsFinite, Bool.and_eq_true] at hf
  obtain h' | h' | h' := numClamp_cases dt cfg.dtMin cfg.dtMax <;> rw [clampDt, h']
  · exact hf.1
  · exact hf.2
  · exact h

theorem clampDt_ne_zero {cfg : Params} {dt : Num32} (hp : numLt numZero cfg.dtMin = true)
    (hc : numLe cfg.dtMin cfg.dtMax = true) (h : numIsFinite dt = true) :
    numIsZero (clampDt cfg dt) = false := by
  obtain ⟨_, _, hk⟩ := numLe_iff.1 (clampDt_between hc h).1
  obtain ⟨_, _, hz⟩ := numLt_iff.1 hp
  rw [numKey_numZero] at hz
  simp only [numIsZero, decide_eq_false_iff_not]
  intro h0
  have : numKey (clampDt cfg dt) = 0 := by simp [numKey, h0]
  omega

/-- The legality of a configuration, as far as the integral limit needs it. -/
theorem intLimit_of_legal {p : Pid} (h : pidConfigLegal p = true) :
    numIsFinite p.intLimit = true ∧ numLt p.intLimit numZero = false := by
  simp only [pidConfigLegal, pidOperandsFinite, pidRangesLegal, Bool.and_eq_true,
    Bool.not_eq_true'] at h
  exact ⟨by simp_all, by simp_all⟩

theorem outLimit_of_legal {p : Pid} (h : pidConfigLegal p = true) :
    numIsFinite p.outLimit = true ∧ numLt p.outLimit numZero = false := by
  simp only [pidConfigLegal, pidOperandsFinite, pidRangesLegal, Bool.and_eq_true,
    Bool.not_eq_true'] at h
  exact ⟨by simp_all, by simp_all⟩

/-- The accumulation stays within the integral limits, whatever overflowed on the way (R119). -/
theorem pidAccum_between {cfg : Params} {p : Pid} {t m dt : Num32} (hp : pidConfigLegal p = true)
    (hf : dtBoundsFinite cfg = true) (h0 : numLt numZero cfg.dtMin = true)
    (hc : numLe cfg.dtMin cfg.dtMax = true) (hi : numIsFinite p.integral = true)
    (ht : numIsFinite t = true) (hm : numIsFinite m = true) (hd : numIsFinite dt = true) :
    numLe (numNeg p.intLimit) (pidAccum p (numSub t m) (clampDt cfg dt)) = true ∧
      numLe (pidAccum p (numSub t m) (clampDt cfg dt)) p.intLimit = true := by
  obtain ⟨hl, hl0⟩ := intLimit_of_legal hp
  exact numClamp_between (numLe_neg_self hl hl0)
    (notNaN_numAdd hi
      (notNaN_numMul (notNaN_numSub ht hm) (clampDt_finite hf hd) (clampDt_ne_zero h0 hc hd)))

end Sys2Proof.Machine
end

