-- ==== Sys2Proof/Laws/Lift.lean ====
section
/-! SUPPORT. What the FSM, the lift controller, the encoder and the sequencer can do, said once. -/

namespace Sys2Proof.Machine

/-! ### FSM -/

/-- Everything `FSM_EVAL` does (R171): nothing, or the transition with its two hooks. -/
theorem fsmEval_cases (x : Bool) (s : State) :
    (fsmNext s.fsm x = s.fsm ∧ fsmEval x s = s) ∨
    (fsmNext s.fsm x ≠ s.fsm ∧
      fsmEval x s =
        emit (.hook .entry (fsmNext s.fsm x)) (setFsm (fsmNext s.fsm x) (emit (.hook .exit s.fsm) s))) := by
  unfold fsmEval
  simp only
  split
  · exact .inl ⟨‹_›, rfl⟩
  · exact .inr ⟨‹_›, rfl⟩

/-- The events of an FSM evaluation (R171). -/
def fsmHooks (x : Bool) (f : FsmState) : List OutEvent :=
  if fsmNext f x = f then [] else [.hook .exit f, .hook .entry (fsmNext f x)]

/-- `FSM_EVAL` as one update: the state and the trace. -/
theorem fsmEval_eq (x : Bool) (s : State) :
    fsmEval x s = { s with fsm := fsmNext s.fsm x, trace := s.trace ++ fsmHooks x s.fsm } := by
  obtain ⟨h, he⟩ | ⟨h, he⟩ := fsmEval_cases x s
  · rw [he]; simp [fsmHooks, h]
  · rw [he]; simp [fsmHooks, h, emit, setFsm]

@[simp] theorem fsmEval_fsm (x : Bool) (s : State) : (fsmEval x s).fsm = fsmNext s.fsm x := by
  rw [fsmEval_eq]
@[simp] theorem fsmEval_trace (x : Bool) (s : State) :
    (fsmEval x s).trace = s.trace ++ fsmHooks x s.fsm := by rw [fsmEval_eq]
@[simp] theorem fsmEval_cfg (x : Bool) (s : State) : (fsmEval x s).cfg = s.cfg := by rw [fsmEval_eq]
@[simp] theorem fsmEval_rxq (x : Bool) (s : State) : (fsmEval x s).rxq = s.rxq := by rw [fsmEval_eq]
@[simp] theorem fsmEval_cfp (x : Bool) (s : State) : (fsmEval x s).cfp = s.cfp := by rw [fsmEval_eq]
@[simp] theorem fsmEval_lift (x : Bool) (s : State) : (fsmEval x s).lift = s.lift := by rw [fsmEval_eq]
@[simp] theorem fsmEval_pid (x : Bool) (s : State) : (fsmEval x s).pid = s.pid := by rw [fsmEval_eq]
@[simp] theorem getPid_fsmEval (i : Nat) (x : Bool) (s : State) :
    getPid i (fsmEval x s) = getPid i s := by simp [getPid]
@[simp] theorem hasPid_fsmEval (i : Nat) (x : Bool) (s : State) :
    hasPid i (fsmEval x s) = hasPid i s := by simp [hasPid]
@[simp] theorem fsmEval_enc (x : Bool) (s : State) : (fsmEval x s).enc = s.enc := by rw [fsmEval_eq]
@[simp] theorem fsmEval_seq (x : Bool) (s : State) : (fsmEval x s).seq = s.seq := by rw [fsmEval_eq]
@[simp] theorem fsmEval_sched (x : Bool) (s : State) : (fsmEval x s).sched = s.sched := by
  rw [fsmEval_eq]
@[simp] theorem fsmEval_ret (x : Bool) (s : State) : (fsmEval x s).ret = s.ret := by rw [fsmEval_eq]
@[simp] theorem fsmEval_inputN (x : Bool) (s : State) : (fsmEval x s).inputN = s.inputN := by
  rw [fsmEval_eq]

/-! ### LIFT -/

/-- Everything a PID invocation by LIFT can answer. -/
theorem liftPid_eq_ok {i : Nat} {t m dt : Num32} {s : State} {r : Num32 × State} :
    liftPid i t m dt s = .ok r ↔
      hasPid i s = true ∧
        ∃ q, pidCalc s.cfg (getPid i s) t m dt = .ok q ∧ r = (q.1, setPid i q.2 s) := by
  simp only [liftPid, refuseUnless_eq_ok, andThen_eq_ok, Except.ok.injEq, eq_comm (b := r)]

/-- Everything `SEEK` can answer, by cascade mode. -/
theorem seek_cases {err dt : Num32} {s s' : State} {d : Dir} (h : seek err dt s = .ok (d, s')) :
    (s.cfg.cascade = .off ∧ s' = s ∧ d = if numLt numZero err then .forward else .reverse) ∨
    (s.cfg.cascade = .pos ∧ hasPid pidPos s = true ∧
      ∃ q, pidCalc s.cfg (getPid pidPos s) s.lift.target s.lift.pos dt = .ok q ∧
        d = sign3 q.1 ∧ s' = setPid pidPos q.2 s) ∨
    (s.cfg.cascade = .posSpd ∧ hasPid pidPos s = true ∧ hasPid pidSpd s = true ∧
      ∃ q q', pidCalc s.cfg (getPid pidPos s) s.lift.target s.lift.pos dt = .ok q ∧
        pidCalc s.cfg (getPid pidSpd s) q.1 s.enc.spd dt = .ok q' ∧
        d = sign3 q'.1 ∧ s' = setPid pidSpd q'.2 (setPid pidPos q.2 s)) := by
  unfold seek at h
  split at h
  · simp only [Except.ok.injEq, Prod.mk.injEq] at h
    exact .inl ⟨‹_›, h.2.symm, h.1.symm⟩
  · simp only [andThen_eq_ok, liftPid_eq_ok, Except.ok.injEq, Prod.mk.injEq] at h
    obtain ⟨_, ⟨hp, q, hq, rfl⟩, h1, h2⟩ := h
    exact .inr (.inl ⟨‹_›, hp, q, hq, h1.symm, h2.symm⟩)
  · simp only [andThen_eq_ok, liftPid_eq_ok, Except.ok.injEq, Prod.mk.injEq] at h
    obtain ⟨_, ⟨hp, q, hq, rfl⟩, _, ⟨hp', q', hq', rfl⟩, h1, h2⟩ := h
    rw [setPid_cfg, getPid_setPid_other (by decide : pidSpd ≠ pidPos)] at hq'
    exact .inr (.inr ⟨‹_›, hp, by simpa using hp', q, q', hq, by simpa using hq', h1.symm, h2.symm⟩)

/-- Everything steps 3 to 5 of `LIFT_UPDATE` can answer. -/
theorem liftDecide_cases {dt : Num32} {s s' : State} (h : liftDecide dt s = .ok s') :
    (∃ d, dirOf s.cfg.dirMap s.lift.man = some d ∧ s' = emit (.actDir d) s) ∨
    (s.lift.man = .stop ∧ s.lift.active = true ∧
      numLt s.cfg.tol (numAbs (liftError s.lift)) = true ∧
      ∃ d t, seek (liftError s.lift) dt (fsmEval true s) = .ok (d, t) ∧ s' = emit (.actDir d) t) ∨
    (s.lift.man = .stop ∧ s.lift.active = true ∧
      numLt s.cfg.tol (numAbs (liftError s.lift)) = false ∧ s' = liftArrive s) ∨
    (s.lift.man = .stop ∧ s.lift.active = false ∧ s' = liftHold s) := by
  have hman : dirOf s.cfg.dirMap s.lift.man = none → s.lift.man = .stop := by
    cases s.lift.man <;> cases s.cfg.dirMap <;> simp [dirOf]
  unfold liftDecide at h
  split at h
  · rename_i d hd
    exact .inl ⟨d, hd, by simpa using h.symm⟩
  · rename_i hd
    split_ifs at h with ha hb
    · simp only [liftSeek, andThen_eq_ok, Except.ok.injEq] at h
      obtain ⟨⟨d, t⟩, hs, rfl⟩ := h
      exact .inr (.inl ⟨hman hd, ha, hb, d, t, hs, rfl⟩)
    · exact .inr (.inr (.inl ⟨hman hd, ha, by simpa using hb, by simpa using h.symm⟩))
    · exact .inr (.inr (.inr ⟨hman hd, by simpa using ha, by simpa using h.symm⟩))

/-- `LIFT_UPDATE` has a result exactly when its inputs are legal and its decision has one. -/
theorem liftUpdate_eq_ok {dt : Num32} {s s' : State} :
    liftUpdate dt s = .ok s' ↔
      tolOk s.cfg = true ∧ liftInputsFinite dt s = true ∧
        liftDecide dt (liftSample s) = .ok s' := by
  simp [liftUpdate, refuseUnless_eq_ok]

/-- What finite inputs of a lift update are (R9, D3), said once. -/
theorem liftInputsFinite_iff {dt : Num32} {s : State} :
    liftInputsFinite dt s = true ↔
      numIsFinite dt = true ∧ numIsFinite s.enc.pos = true ∧
        (s.lift.pending = true → numIsFinite s.lift.delta = true) ∧
        (s.lift.pending = false → s.lift.active = true → s.lift.man = .stop →
          numIsFinite s.lift.target = true) := by
  unfold liftInputsFinite
  cases s.lift.pending <;> cases s.lift.active <;> by_cases h : s.lift.man = .stop <;>
    simp [h, and_assoc]

/-! ### ENC and SEQ -/

/-- Everything `ENC_SAMPLE` can answer. -/
theorem encSample_eq_ok {cnt : Nat} {dt : Num32} {s s' : State} :
    encSample cnt dt s = .ok s' ↔
      pulseOk s.cfg = true ∧ dtBoundsFinite s.cfg = true ∧ numIsFinite dt = true ∧
        setEnc (encStages s.cfg cnt dt s.enc) s = s' := by
  simp [encSample, refuseUnless_eq_ok]

/-- A tick service is a sample and then an update, on the elapsed time (R204). -/
theorem tickService_eq_ok {now cnt : Nat} {s s' : State} :
    tickService now cnt s = .ok s' ↔
      ∃ t, encSample cnt (tickDt s.cfg s.seq.tLast now)
          (setSeq { s.seq with tLast := lowBits s.cfg.tsBits now } s) = .ok t ∧
        liftUpdate (tickDt s.cfg s.seq.tLast now) t = .ok s' := by
  simp only [tickService, andThen_eq_ok]

end Sys2Proof.Machine
end

