-- ==== Sys2Proof/Laws/Memory.lean ====
section
/-! SUPPORT. The byte storages: what a read after a write gives, and that every operation keeps the
canonical form and the address range. -/

namespace Sys2Proof.Machine

theorem memRead_memErase_same {m : Memory} (h : memWf m = true) (a : Nat) :
    memRead (memErase a m) a = blankByte := by
  induction m with
  | nil => rfl
  | cons c m ih =>
    obtain ⟨i, b⟩ := c
    simp only [memWf, Bool.and_eq_true, decide_eq_true_eq, List.all_eq_true] at h
    obtain ⟨⟨_, hlt⟩, hm⟩ := h
    by_cases hia : i = a
    · subst hia
      simp only [memErase, if_true]
      have : ∀ m : Memory, (∀ c ∈ m, i < c.1) → memRead m i = blankByte := by
        intro m
        induction m with
        | nil => intro _; rfl
        | cons c m ih' =>
          intro hall
          have h1 := hall c (by simp)
          have h2 : ¬ c.1 = i := by omega
          simp only [memRead, if_neg h2]
          exact ih' fun c hc => hall c (by simp [hc])
      exact this m (by simpa using hlt)
    · simp only [memErase, if_neg hia, memRead]
      exact ih hm

theorem memRead_memErase_other (m : Memory) {a x : Nat} (h : x ≠ a) :
    memRead (memErase a m) x = memRead m x := by
  induction m with
  | nil => rfl
  | cons c m ih =>
    obtain ⟨i, b⟩ := c
    by_cases hia : i = a
    · subst hia
      simp [memErase, memRead, Ne.symm h]
    · by_cases hix : i = x
      · subst hix; simp [memErase, memRead, hia]
      · simp [memErase, memRead, hia, hix, ih]

theorem memRead_memInsert_same (m : Memory) (a : Nat) (v : Byte) :
    memRead (memInsert a v m) a = v := by
  induction m with
  | nil => simp [memInsert, memRead]
  | cons c m ih =>
    obtain ⟨i, b⟩ := c
    by_cases h1 : a < i
    · simp [memInsert, memRead, h1]
    · by_cases h2 : a = i
      · simp [memInsert, memRead, h2]
      · simp [memInsert, memRead, h1, h2, Ne.symm h2, ih]

theorem memRead_memInsert_other (m : Memory) {a x : Nat} (v : Byte) (h : x ≠ a) :
    memRead (memInsert a v m) x = memRead m x := by
  induction m with
  | nil => simp [memInsert, memRead, Ne.symm h]
  | cons c m ih =>
    obtain ⟨i, b⟩ := c
    by_cases h1 : a < i
    · simp [memInsert, memRead, h1, Ne.symm h]
    · by_cases h2 : a = i
      · subst h2; simp [memInsert, memRead, Ne.symm h]
      · by_cases h3 : i = x
        · subst h3; simp [memInsert, memRead, h1, h2]
        · simp [memInsert, memRead, h1, h2, h3, ih]

/-- A store gives the byte back. -/
theorem memRead_memWrite_same {m : Memory} (h : memWf m = true) (a : Nat) (v : Byte) :
    memRead (memWrite m a v) a = v := by
  unfold memWrite
  split
  · assumption
  · split
    · rename_i hv; rw [hv]; exact memRead_memErase_same h a
    · exact memRead_memInsert_same m a v

/-- A store leaves every other index alone. -/
theorem memRead_memWrite_other (m : Memory) {a x : Nat} (v : Byte) (h : x ≠ a) :
    memRead (memWrite m a v) x = memRead m x := by
  unfold memWrite
  split
  · rfl
  · split
    · exact memRead_memErase_other m h
    · exact memRead_memInsert_other m v h

/-- Storing what is there already changes nothing. -/
@[simp] theorem memWrite_memRead (m : Memory) (a : Nat) : memWrite m a (memRead m a) = m := by
  simp [memWrite]

theorem memErase_all {p : Host.Cell → Bool} {m : Memory} (a : Nat) (h : m.all p = true) :
    (memErase a m).all p = true := by
  induction m with
  | nil => rfl
  | cons c m ih =>
    obtain ⟨i, b⟩ := c
    simp only [List.all_cons, Bool.and_eq_true] at h
    by_cases hia : i = a
    · simp only [memErase, if_pos hia]; exact h.2
    · simp only [memErase, if_neg hia, List.all_cons, Bool.and_eq_true]; exact ⟨h.1, ih h.2⟩

theorem memInsert_all {p : Host.Cell → Bool} {m : Memory} {a : Nat} {v : Byte}
    (h : m.all p = true) (hv : p (a, v) = true) : (memInsert a v m).all p = true := by
  induction m with
  | nil => simp [memInsert, hv]
  | cons c m ih =>
    obtain ⟨i, b⟩ := c
    simp only [List.all_cons, Bool.and_eq_true] at h
    unfold memInsert
    split
    · simp only [List.all_cons, Bool.and_eq_true]; exact ⟨hv, h.1, h.2⟩
    · split
      · simp only [List.all_cons, Bool.and_eq_true]; exact ⟨hv, h.2⟩
      · simp only [List.all_cons, Bool.and_eq_true]; exact ⟨h.1, ih h.2⟩

/-- A property of every entry survives a store of an entry that has it. -/
theorem memWrite_all {p : Host.Cell → Bool} {m : Memory} {a : Nat} {v : Byte}
    (h : m.all p = true) (hv : p (a, v) = true) : (memWrite m a v).all p = true := by
  unfold memWrite
  split
  · exact h
  · split
    · exact memErase_all a h
    · exact memInsert_all h hv

theorem memWf_memErase {m : Memory} (a : Nat) (h : memWf m = true) : memWf (memErase a m) = true := by
  induction m with
  | nil => rfl
  | cons c m ih =>
    obtain ⟨i, b⟩ := c
    simp only [memWf, Bool.and_eq_true] at h
    by_cases hia : i = a
    · simp only [memErase, if_pos hia]; exact h.2
    · simp only [memErase, if_neg hia, memWf, Bool.and_eq_true]
      exact ⟨⟨h.1.1, memErase_all a h.1.2⟩, ih h.2⟩

theorem memWf_memInsert {m : Memory} {a : Nat} {v : Byte} (hv : v ≠ blankByte)
    (h : memWf m = true) : memWf (memInsert a v m) = true := by
  induction m with
  | nil => simp [memInsert, memWf, hv]
  | cons c m ih =>
    obtain ⟨i, b⟩ := c
    have h0 := h
    simp only [memWf, Bool.and_eq_true, decide_eq_true_eq] at h
    unfold memInsert
    split
    · rename_i hai
      simp only [memWf, Bool.and_eq_true, decide_eq_true_eq, List.all_cons]
      refine ⟨⟨hv, hai, ?_⟩, h⟩
      have := h.1.2
      simp only [List.all_eq_true, decide_eq_true_eq] at this ⊢
      intro c hc
      exact lt_trans hai (this c hc)
    · split
      · rename_i _ hai
        subst hai
        simp only [memWf, Bool.and_eq_true, decide_eq_true_eq]
        exact ⟨⟨hv, h.1.2⟩, h.2⟩
      · rename_i h1 h2
        simp only [memWf, Bool.and_eq_true, decide_eq_true_eq]
        exact ⟨⟨h.1.1, memInsert_all h.1.2 (by simpa using by omega)⟩, ih h.2⟩

/-- A store keeps the canonical form. -/
theorem memWf_memWrite {m : Memory} (a : Nat) (v : Byte) (h : memWf m = true) :
    memWf (memWrite m a v) = true := by
  unfold memWrite
  split
  · exact h
  · split
    · exact memWf_memErase a h
    · rename_i hv; exact memWf_memInsert hv h

/-- A store inside the storage keeps every index inside it. -/
theorem memBelow_memWrite {n : Nat} {m : Memory} {a : Nat} (v : Byte) (ha : a < n)
    (h : memBelow n m = true) : memBelow n (memWrite m a v) = true :=
  memWrite_all h (by simpa using ha)

theorem memWf_memWriteList {m : Memory} (a : Nat) (bs : List Byte) (h : memWf m = true) :
    memWf (memWriteList m a bs) = true := by
  induction bs generalizing m a with
  | nil => exact h
  | cons b bs ih => exact ih (a + 1) (memWf_memWrite a b h)

/-- Storing a byte string leaves every index outside it alone. -/
theorem memRead_memWriteList_other (m : Memory) {a x : Nat} (bs : List Byte)
    (h : x < a ∨ a + bs.length ≤ x) : memRead (memWriteList m a bs) x = memRead m x := by
  induction bs generalizing m a with
  | nil => rfl
  | cons b bs ih =>
    have hx : x ≠ a := by simp at h; omega
    rw [memWriteList, ih _ (by simp at h; omega), memRead_memWrite_other m b hx]

/-- Storing a byte string gives it back, byte for byte. -/
theorem memRead_memWriteList_at {m : Memory} (hm : memWf m = true) (a : Nat) (bs : List Byte)
    {k : Nat} (hk : k < bs.length) : memRead (memWriteList m a bs) (a + k) = bs[k] := by
  induction bs generalizing m a k with
  | nil => simp at hk
  | cons b bs ih =>
    cases k with
    | zero =>
      have h0 := memRead_memWrite_same hm a b
      rw [memWriteList, memRead_memWriteList_other _ _ (by omega)]
      simpa using h0
    | succ k =>
      have := ih (memWf_memWrite a b hm) (a + 1) (k := k) (by simpa using hk)
      rw [memWriteList, show a + (k + 1) = a + 1 + k by omega, this]
      rfl

@[simp] theorem memSlice_length (m : Memory) (n : Nat) : (memSlice m n).length = n := by
  simp [memSlice]

theorem memSlice_succ (m : Memory) (n : Nat) :
    memSlice m (n + 1) = memSlice m n ++ [memRead m n] := by
  simp [memSlice, List.range_succ]

/-- A slice does not see a store at or above its end. -/
theorem memSlice_memWrite (m : Memory) {n a : Nat} (v : Byte) (h : n ≤ a) :
    memSlice (memWrite m a v) n = memSlice m n := by
  unfold memSlice
  apply List.map_congr_left
  intro k hk
  rw [List.mem_range] at hk
  exact memRead_memWrite_other m v (by omega)

/-- The slice of a stored byte string is the string. -/
theorem memSlice_memWriteList {m : Memory} (hm : memWf m = true) (bs : List Byte) :
    memSlice (memWriteList m 0 bs) bs.length = bs := by
  apply List.ext_getElem
  · simp
  · intro k h1 h2
    have := memRead_memWriteList_at hm 0 bs h2
    simpa [memSlice] using this

/-- Both storages have the canonical form after reset. -/
theorem memWf_reset : memWf State.reset.rxq.buf = true ∧ memWf State.reset.cfp.buf = true := by decide

end Sys2Proof.Machine
end

