-- ==== Sys2Proof/Laws/Parser.lean ====
section
/-! SUPPORT. What the parser can do with one byte, said once. -/

namespace Sys2Proof.Machine

/-- Everything `CFP_FEED` can answer while `Idle`. -/
theorem cfpFeed_idle {cfg : Params} {b : Byte} {c : Cfp} (h : c.st = .idle) :
    cfpFeed cfg b c =
      if b = chSof then .ok (none, { c with st := .capturing, idx := 0 })
      else if b = opStop then .ok (some .liftStop, c)
      else if b = opUp then .ok (some (.liftManual .up), c)
      else if b = opDown then .ok (some (.liftManual .down), c)
      else .ok (none, c) := by
  unfold cfpFeed; rw [h]

/-- Everything `CFP_FEED` can answer while `Capturing`. -/
theorem cfpFeed_capturing {cfg : Params} {b : Byte} {c : Cfp} (h : c.st = .capturing) :
    cfpFeed cfg b c =
      if b = chSof then .ok (none, { c with idx := 0 })
      else if b = chEof then
        if c.idx < cfg.frameCap then
          .ok (matchBody cfg (memSlice c.buf c.idx),
            { st := .idle, buf := memWrite c.buf c.idx 0x00, idx := 0 })
        else .error (.fault (.frameIndex c.idx))
      else if c.idx < maxBody cfg then
        .ok (none, { c with buf := memWrite c.buf c.idx b, idx := c.idx + 1 })
      else .ok (none, { c with st := .idle, idx := 0 }) := by
  unfold cfpFeed; rw [h]; simp only [memSlice_memWrite _ _ (le_refl c.idx)]

/-- The start delimiter restarts the capture from any state (R85). -/
@[simp] theorem cfpFeed_sof (cfg : Params) (c : Cfp) :
    cfpFeed cfg chSof c = .ok (none, { c with st := .capturing, idx := 0 }) := by
  unfold cfpFeed
  rcases c with ⟨⟨⟩, buf, idx⟩ <;> simp

/-- Everything `CFP_FEED` can answer: nothing consumed into the buffer, a capture begun or abandoned, a
byte stored, or a frame ended. -/
theorem cfpFeed_cases {cfg : Params} {b : Byte} {c c' : Cfp} {o : Option Command}
    (h : cfpFeed cfg b c = .ok (o, c')) :
    (c.st = .idle ∧ b ≠ chSof ∧ c' = c) ∨
    (b = chSof ∧ o = none ∧ c' = { c with st := .capturing, idx := 0 }) ∨
    (c.st = .capturing ∧ b = chEof ∧ c.idx < cfg.frameCap ∧
      o = matchBody cfg (memSlice c.buf c.idx) ∧
      c' = { st := .idle, buf := memWrite c.buf c.idx 0x00, idx := 0 }) ∨
    (c.st = .capturing ∧ b ≠ chSof ∧ b ≠ chEof ∧ c.idx < maxBody cfg ∧ o = none ∧
      c' = { c with buf := memWrite c.buf c.idx b, idx := c.idx + 1 }) ∨
    (c.st = .capturing ∧ b ≠ chSof ∧ b ≠ chEof ∧ maxBody cfg ≤ c.idx ∧ o = none ∧
      c' = { c with st := .idle, idx := 0 }) := by
  by_cases hb : b = chSof
  · subst hb
    simp only [cfpFeed_sof, Except.ok.injEq, Prod.mk.injEq] at h
    exact .inr (.inl ⟨rfl, h.1.symm, h.2.symm⟩)
  cases hst : c.st with
  | idle =>
    refine .inl ⟨rfl, hb, ?_⟩
    rw [cfpFeed_idle hst, if_neg hb] at h
    split_ifs at h <;> simp_all
  | capturing =>
    rw [cfpFeed_capturing hst, if_neg hb] at h
    split_ifs at h with h1 h2 h3
    · simp only [Except.ok.injEq, Prod.mk.injEq] at h
      exact .inr (.inr (.inl ⟨rfl, h1, h2, h.1.symm, h.2.symm⟩))
    · simp only [Except.ok.injEq, Prod.mk.injEq] at h
      exact .inr (.inr (.inr (.inl ⟨rfl, hb, h1, h3, h.1.symm, by rw [← h.2, hst]⟩)))
    · simp only [Except.ok.injEq, Prod.mk.injEq] at h
      exact .inr (.inr (.inr (.inr ⟨rfl, hb, h1, by omega, h.1.symm, h.2.symm⟩)))

/-- Where the write index is in its range the parser always has a result. -/
theorem cfpFeed_ok {cfg : Params} {c : Cfp} (h : c.idx < cfg.frameCap) (b : Byte) :
    ∃ p, cfpFeed cfg b c = .ok p := by
  cases hst : c.st with
  | idle => rw [cfpFeed_idle hst]; split_ifs <;> exact ⟨_, rfl⟩
  | capturing => rw [cfpFeed_capturing hst]; split_ifs <;> exact ⟨_, rfl⟩

/-- A command that sets a delta carries a finite number (R94, R70): the parser makes no other. -/
theorem matchBody_finite {cfg : Params} {body : List Byte} {v : Num32}
    (h : matchBody cfg body = some (.liftSetDelta v)) : numIsFinite v = true := by
  unfold matchBody matchEff at h
  split at h
  · simp only [Option.map_eq_some_iff, Command.liftSetDelta.injEq] at h
    obtain ⟨w, hw, rfl⟩ := h
    unfold parseDec at hw
    split at hw
    · cases hw
    · simp only at hw
      split at hw
      · simp_all
      · cases hw
  · split_ifs at h
    · simp at h
    · simp at h
    · split at h
      · simp at h
      · cases h

/-- The parser makes no delta that is not finite. -/
theorem cfpFeed_finite {cfg : Params} {b : Byte} {c c' : Cfp} {v : Num32}
    (h : cfpFeed cfg b c = .ok (some (.liftSetDelta v), c')) : numIsFinite v = true := by
  cases hst : c.st with
  | idle => rw [cfpFeed_idle hst] at h; split_ifs at h <;> simp at h
  | capturing =>
    rw [cfpFeed_capturing hst] at h
    split_ifs at h <;> simp only [Except.ok.injEq, Prod.mk.injEq, reduceCtorEq, false_and] at h
    exact matchBody_finite h.1

theorem bodyClean_append (xs ys : List Byte) :
    bodyClean (xs ++ ys) = (bodyClean xs && bodyClean ys) := List.all_append

/-- One byte keeps the parser's invariant. -/
theorem parserInv_cfpFeed {cfg : Params} {b : Byte} {c c' : Cfp} {o : Option Command}
    (hc : 1 ≤ cfg.frameCap) (hi : parserInv cfg c = true) (h : cfpFeed cfg b c = .ok (o, c')) :
    parserInv cfg c' = true := by
  have hm : maxBody cfg < cfg.frameCap := by unfold maxBody; omega
  simp only [parserInv, Bool.and_eq_true, Bool.or_eq_true, decide_eq_true_eq] at hi ⊢
  obtain ⟨⟨⟨⟨h1, h2⟩, h3⟩, h4⟩, h5⟩ := hi
  obtain ⟨_, _, rfl⟩ | ⟨_, _, rfl⟩ | ⟨_, _, hlt, _, rfl⟩ | ⟨hst, hs, he, hlt, _, rfl⟩ |
    ⟨_, _, _, _, _, rfl⟩ := cfpFeed_cases h
  · exact ⟨⟨⟨⟨h1, h2⟩, h3⟩, h4⟩, h5⟩
  · exact ⟨⟨⟨⟨Nat.zero_le _, .inr rfl⟩, rfl⟩, h4⟩, h5⟩
  · exact ⟨⟨⟨⟨Nat.zero_le _, .inr rfl⟩, rfl⟩, memWf_memWrite _ _ h4⟩, memBelow_memWrite _ hlt h5⟩
  · refine ⟨⟨⟨⟨hlt, .inl (by simp [hst])⟩, ?_⟩, memWf_memWrite _ _ h4⟩,
      memBelow_memWrite _ (by omega) h5⟩
    simp only [memSlice_succ, bodyClean_append, memSlice_memWrite _ _ (le_refl c.idx), h3,
      memRead_memWrite_same h4]
    simp [bodyClean, hs, he]
  · exact ⟨⟨⟨⟨Nat.zero_le _, .inr rfl⟩, rfl⟩, h4⟩, h5⟩

/-! ### Literals -/

/-- A body begins with a literal exactly when taking it off answers, and the answer is what follows. -/
theorem stripLit_eq_some_iff (lit s r : List Byte) : stripLit lit s = some r ↔ s = lit ++ r := by
  induction lit generalizing s with
  | nil => simp [stripLit]
  | cons p ps ih =>
    cases s with
    | nil => simp [stripLit]
    | cons b bs =>
      simp only [stripLit]
      split
      · rename_i h; subst h; simp [ih]
      · rename_i h; simp [Ne.symm h]

/-- A literal holds no `00`, so it stands before the effective part of what follows (R92). -/
theorem effBody_append {lit : List Byte} (h : ∀ b ∈ lit, b ≠ 0x00) (r : List Byte) :
    effBody (lit ++ r) = lit ++ effBody r := by
  unfold effBody
  rw [List.takeWhile_append_of_pos]
  simpa using h

end Sys2Proof.Machine
end

