-- ==== Sys2Proof/Laws/PerInstr.lean ====
section
/-! SUPPORT. Statements for all instructions, one lemma for each constructor: how long an encoding is. -/

namespace Sys2Proof.Laws

open Sys2Proof.Machine

/-- R60, R61, R69: for the default frame buffer (bodies of at most 63 bytes) a well-formed instruction's
encoding, where it has one, is at least 1 byte and at most 65 bytes: the two delimiters and the body. -/
def EncodingLength.Statement (i : Instr) : Prop :=
  ∀ bs, wellFormed Config.defaults i = true → encode i = some bs → 1 ≤ bs.length ∧ bs.length ≤ 65

/-- A frame's bytes are its body and two delimiters. -/
theorem frameBytes_length (body : List Byte) : (frameBytes body).length = body.length + 2 := by
  simp [frameBytes]

/-- An operand that fits gives an encoding in range. -/
theorem frame_length_bounds {lit operand bs : List Byte} (hw : operandFits (maxBody Config.defaults) lit operand = true)
    (he : some (frameBytes (lit ++ operand)) = some bs) : 1 ≤ bs.length ∧ bs.length ≤ 65 := by
  simp only [operandFits, Bool.and_eq_true, decide_eq_true_eq,
    show maxBody Config.defaults = 63 from rfl] at hw
  rw [← Option.some.inj he, frameBytes_length]
  omega

theorem EncodingLength.legStop :
    EncodingLength.Statement .legStop := by
  intro bs _ he
  rw [← Option.some.inj he]
  decide

theorem EncodingLength.legUp :
    EncodingLength.Statement .legUp := by
  intro bs _ he
  rw [← Option.some.inj he]
  decide

theorem EncodingLength.legDown :
    EncodingLength.Statement .legDown := by
  intro bs _ he
  rw [← Option.some.inj he]
  decide

theorem EncodingLength.sof :
    EncodingLength.Statement .sof := by
  intro bs _ he
  rw [← Option.some.inj he]
  decide

theorem EncodingLength.eof :
    EncodingLength.Statement .eof := by
  intro bs _ he
  rw [← Option.some.inj he]
  decide

theorem EncodingLength.fLifter (operand : List Byte) :
    EncodingLength.Statement (.fLifter operand) :=
  fun _ hw he => frame_length_bounds hw he

theorem EncodingLength.fGripOpen (trailing : List Byte) :
    EncodingLength.Statement (.fGripOpen trailing) :=
  fun _ hw he => frame_length_bounds hw he

theorem EncodingLength.fGripClose (trailing : List Byte) :
    EncodingLength.Statement (.fGripClose trailing) :=
  fun _ hw he => frame_length_bounds hw he

theorem EncodingLength.fGripPos (operand : List Byte) :
    EncodingLength.Statement (.fGripPos operand) :=
  fun _ hw he => frame_length_bounds hw he

theorem EncodingLength.notify :
    EncodingLength.Statement .notify := by
  intro bs _ he
  rw [← Option.some.inj he]
  decide

theorem EncodingLength.rxqPush (b : Byte) :
    EncodingLength.Statement (.rxqPush b) :=
  fun _ _ he => by cases he

theorem EncodingLength.rxqPop :
    EncodingLength.Statement .rxqPop :=
  fun _ _ he => by cases he

theorem EncodingLength.cfpFeed (b : Byte) :
    EncodingLength.Statement (.cfpFeed b) :=
  fun _ _ he => by cases he

theorem EncodingLength.pidInit (who : Invoker) (j : Nat) (kp ki kd ol il al it dz : Num32) :
    EncodingLength.Statement (.pidInit who j kp ki kd ol il al it dz) :=
  fun _ _ he => by cases he

theorem EncodingLength.pidCalc (j : Nat) (target measured dt : Num32) :
    EncodingLength.Statement (.pidCalc j target measured dt) :=
  fun _ _ he => by cases he

theorem EncodingLength.cmdDispatch (c : Command) :
    EncodingLength.Statement (.cmdDispatch c) :=
  fun _ _ he => by cases he

theorem EncodingLength.cmdLiftSetDelta (v : Num32) :
    EncodingLength.Statement (.cmdLiftSetDelta v) :=
  fun _ _ he => by cases he

theorem EncodingLength.cmdLiftManual (d : UpDown) :
    EncodingLength.Statement (.cmdLiftManual d) :=
  fun _ _ he => by cases he

theorem EncodingLength.cmdLiftStop :
    EncodingLength.Statement .cmdLiftStop :=
  fun _ _ he => by cases he

theorem EncodingLength.cmdGripperOpen :
    EncodingLength.Statement .cmdGripperOpen :=
  fun _ _ he => by cases he

theorem EncodingLength.cmdGripperClose :
    EncodingLength.Statement .cmdGripperClose :=
  fun _ _ he => by cases he

theorem EncodingLength.cmdGripperSetPosition (p : Int) :
    EncodingLength.Statement (.cmdGripperSetPosition p) :=
  fun _ _ he => by cases he

theorem EncodingLength.liftUpdate (dt : Num32) :
    EncodingLength.Statement (.liftUpdate dt) :=
  fun _ _ he => by cases he

theorem EncodingLength.fsmEval (x : Bool) :
    EncodingLength.Statement (.fsmEval x) :=
  fun _ _ he => by cases he

theorem EncodingLength.encSample (cnt : Nat) (dt : Num32) :
    EncodingLength.Statement (.encSample cnt dt) :=
  fun _ _ he => by cases he

theorem EncodingLength.tickIrq :
    EncodingLength.Statement .tickIrq :=
  fun _ _ he => by cases he

theorem EncodingLength.mainStep (now cnt : Nat) :
    EncodingLength.Statement (.mainStep now cnt) :=
  fun _ _ he => by cases he

theorem EncodingLength.tickService (now cnt : Nat) :
    EncodingLength.Statement (.tickService now cnt) :=
  fun _ _ he => by cases he

theorem EncodingLength.reset :
    EncodingLength.Statement .reset :=
  fun _ _ he => by cases he

end Sys2Proof.Laws
end

