-- ==== Sys2Proof/Laws/Ring.lean ====
section
/-! SUPPORT. What the ring operations can do, said once. -/

namespace Sys2Proof.Machine

/-- Everything `RXQ_PUSH` can answer. -/
theorem rxqPush_cases {cfg : Params} {b : Byte} {r r' : Rxq} (h : rxqPush cfg b r = .ok r') :
    (ringNext cfg.rxqSize r.head = r.tail ∧ r' = r) ∨
    (ringNext cfg.rxqSize r.head ≠ r.tail ∧ r.head < cfg.rxqSize ∧
      r' = { r with buf := memWrite r.buf r.head b, head := ringNext cfg.rxqSize r.head }) := by
  unfold rxqPush at h
  split at h
  · exact .inl ⟨‹_›, by simpa using h.symm⟩
  · split at h
    · exact .inr ⟨‹_›, ‹_›, by simpa using h.symm⟩
    · cases h

/-- Everything `RXQ_POP` can answer. -/
theorem rxqPop_cases {cfg : Params} {r r' : Rxq} {o : Option Byte} (h : rxqPop cfg r = .ok (o, r')) :
    (r.head = r.tail ∧ o = none ∧ r' = r) ∨
    (r.head ≠ r.tail ∧ r.tail < cfg.rxqSize ∧ o = some (memRead r.buf r.tail) ∧
      r' = { r with tail := ringNext cfg.rxqSize r.tail }) := by
  unfold rxqPop at h
  split at h
  · simp only [Except.ok.injEq, Prod.mk.injEq] at h
    exact .inl ⟨‹_›, h.1.symm, h.2.symm⟩
  · split at h
    · simp only [Except.ok.injEq, Prod.mk.injEq] at h
      exact .inr ⟨‹_›, ‹_›, h.1.symm, h.2.symm⟩
    · cases h

/-- Where both indices name slots a push has a result. -/
theorem rxqPush_ok {cfg : Params} {r : Rxq} (h : r.head < cfg.rxqSize) (b : Byte) :
    ∃ r', rxqPush cfg b r = .ok r' := by
  unfold rxqPush
  split
  · exact ⟨_, rfl⟩
  · exact ⟨_, rfl⟩

/-- Where both indices name slots a pop has a result. -/
theorem rxqPop_ok {cfg : Params} {r : Rxq} (h : r.tail < cfg.rxqSize) :
    ∃ p, rxqPop cfg r = .ok p := by
  unfold rxqPop
  split
  · exact ⟨_, rfl⟩
  · exact ⟨_, rfl⟩

theorem ringNext_lt {n : Nat} (h : 0 < n) (i : Nat) : ringNext n i < n := Nat.mod_lt _ h

/-- A push keeps the ring's invariant. -/
theorem ringInv_rxqPush {cfg : Params} {b : Byte} {r r' : Rxq} (hs : 0 < cfg.rxqSize)
    (hi : ringInv cfg r = true) (h : rxqPush cfg b r = .ok r') : ringInv cfg r' = true := by
  obtain ⟨_, rfl⟩ | ⟨_, hlt, rfl⟩ := rxqPush_cases h
  · exact hi
  · simp only [ringInv, Bool.and_eq_true, decide_eq_true_eq] at hi ⊢
    exact ⟨⟨⟨ringNext_lt hs _, hi.1.1.2⟩, memWf_memWrite _ _ hi.1.2⟩, memBelow_memWrite _ hlt hi.2⟩

/-- A pop keeps the ring's invariant. -/
theorem ringInv_rxqPop {cfg : Params} {r r' : Rxq} {o : Option Byte} (hs : 0 < cfg.rxqSize)
    (hi : ringInv cfg r = true) (h : rxqPop cfg r = .ok (o, r')) : ringInv cfg r' = true := by
  obtain ⟨_, _, rfl⟩ | ⟨_, _, _, rfl⟩ := rxqPop_cases h
  · exact hi
  · simp only [ringInv, Bool.and_eq_true, decide_eq_true_eq] at hi ⊢
    exact ⟨⟨⟨hi.1.1.1, ringNext_lt hs _⟩, hi.1.2⟩, hi.2⟩

end Sys2Proof.Machine
end

