-- ==== Sys2Proof/Laws/Width.lean ====
section
/-! SUPPORT. Integers of a width: what `sextN` and `modPow` give, said once. -/

namespace Sys2Proof.Machine

theorem lowBits_lt (w v : Nat) : lowBits w v < 2 ^ w := Nat.mod_lt _ (by positivity)

/-- A number that fits is its own low bits. -/
theorem lowBits_of_lt {w v : Nat} (h : v < 2 ^ w) : lowBits w v = v := Nat.mod_eq_of_lt h

theorem inSigned_iff {w : Nat} {k : Int} : inSigned w k = true ↔ -(2 ^ w) ≤ 2 * k ∧ 2 * k < 2 ^ w := by
  simp [inSigned]

/-- The bounds as R66 writes them. -/
theorem inSigned_iff_bounds {w : Nat} (h : 0 < w) {k : Int} :
    inSigned w k = true ↔ -(2 ^ (w - 1)) ≤ k ∧ k ≤ 2 ^ (w - 1) - 1 := by
  obtain ⟨v, rfl⟩ : ∃ v, w = v + 1 := ⟨w - 1, by omega⟩
  rw [inSigned_iff, pow_succ, Nat.add_sub_cancel]
  omega

theorem modPow_cast (w : Nat) (k : Int) : (modPow w k : Int) = k % 2 ^ w :=
  Int.toNat_of_nonneg (Int.emod_nonneg _ (by positivity))

theorem modPow_lt (w : Nat) (k : Int) : modPow w k < 2 ^ w := by
  have h1 := modPow_cast w k
  have h2 : k % 2 ^ w < 2 ^ w := Int.emod_lt_of_pos _ (by positivity)
  exact_mod_cast h1 ▸ h2

/-- Sign extension of the low bits gives a signed integer of the width. -/
theorem inSigned_sextN (w : Nat) (k : Int) : inSigned w (sextN w (modPow w k)) = true := by
  have h := modPow_lt w k
  have h' : (modPow w k : Int) < 2 ^ w := by exact_mod_cast h
  rw [inSigned_iff]
  unfold sextN
  split
  · rename_i h2
    have : (2 * (modPow w k : Int)) < 2 ^ w := by exact_mod_cast h2
    omega
  · rename_i h2
    have : (2 : Int) ^ w ≤ 2 * (modPow w k : Int) := by exact_mod_cast not_lt.1 h2
    omega

/-- Sign extension of the low bits keeps the residue. -/
theorem sextN_modPow_emod (w : Nat) (k : Int) : (k - sextN w (modPow w k)) % 2 ^ w = 0 := by
  have h := modPow_cast w k
  have hk := Int.emod_add_mul_ediv k (2 ^ w)
  unfold sextN
  split
  · rw [show k - (modPow w k : Int) = 2 ^ w * (k / 2 ^ w) by rw [h]; linarith]
    exact Int.mul_emod_right _ _
  · rw [show k - ((modPow w k : Int) - 2 ^ w) = 2 ^ w * (k / 2 ^ w + 1) by rw [h]; linarith]
    exact Int.mul_emod_right _ _

/-- The signed integer of a width with a given residue is the sign extension of the low bits: the
characterisation that determines it. -/
theorem eq_sextN {w : Nat} {k d : Int} (h : inSigned w d = true) (hm : (k - d) % 2 ^ w = 0) :
    sextN w (modPow w k) = d := by
  have h1 := inSigned_iff.1 h
  have h2 := inSigned_iff.1 (inSigned_sextN w k)
  obtain ⟨a, ha⟩ := Int.dvd_of_emod_eq_zero hm
  obtain ⟨b, hb⟩ := Int.dvd_of_emod_eq_zero (sextN_modPow_emod w k)
  have hpos : (0 : Int) < 2 ^ w := by positivity
  have hab : sextN w (modPow w k) - d = 2 ^ w * (a - b) := by linarith
  have ha' : a - b = 0 := by
    rcases lt_trichotomy (a - b) 0 with hlt | h0 | hgt
    · have : (2 : Int) ^ w * (a - b) ≤ 2 ^ w * (-1) :=
        mul_le_mul_of_nonneg_left (by omega) hpos.le
      omega
    · exact h0
    · have : (2 : Int) ^ w * 1 ≤ 2 ^ w * (a - b) := mul_le_mul_of_nonneg_left (by omega) hpos.le
      omega
  rw [ha', mul_zero] at hab
  omega

/-- A signed integer of the width is its own low bits' sign extension. -/
theorem sextN_of_inSigned {w : Nat} {k : Int} (h : inSigned w k = true) :
    sextN w (modPow w k) = k := eq_sextN h (by simp)

end Sys2Proof.Machine
end

