-- ==== Sys2Proof/Laws/Sequencer.lean ====
section
/-! SUPPORT. What a byte, a command and a pass of the main loop can do, said once. -/

namespace Sys2Proof.Machine

/-- Everything `CMD_DISPATCH` can answer (R141). -/
theorem dispatchCommand_cases {c : Command} {s s' : State} (h : dispatchCommand c s = .ok s') :
    (∃ d, c = .liftManual d ∧ s' = liftManual d s) ∨ (c = .liftStop ∧ s' = liftStop s) ∨
    (∃ v, c = .liftSetDelta v ∧ numIsFinite v = true ∧ s' = setLift (pendTarget v s.lift) s) ∨
    (c = .gripperOpen ∧ s' = emit .gripOpen s) ∨ (c = .gripperClose ∧ s' = emit .gripClose s) ∨
    (∃ p, c = .gripperSetPosition p ∧ s' = gripSetPosition p s) := by
  cases c <;> simp [dispatchCommand, liftSetDelta, refuseUnless_eq_ok] at h ⊢ <;> simp [h]

/-- A popped byte, on the whole state. -/
theorem popByte_eq_ok {s : State} {p : Option Byte × State} :
    popByte s = .ok p ↔
      storageOk s.cfg = true ∧ ∃ q, rxqPop s.cfg s.rxq = .ok q ∧ p = (q.1, setRxq q.2 s) := by
  simp only [popByte, refuseUnless_eq_ok, andThen_eq_ok, Except.ok.injEq, eq_comm (b := p)]

/-- A pushed byte, on the whole state. -/
theorem pushByte_eq_ok {b : Byte} {s s' : State} :
    pushByte b s = .ok s' ↔
      storageOk s.cfg = true ∧ ∃ r, rxqPush s.cfg b s.rxq = .ok r ∧ s' = setRxq r s := by
  simp only [pushByte, refuseUnless_eq_ok, andThen_eq_ok, Except.ok.injEq, eq_comm (b := s')]

/-- A fed byte, on the whole state. -/
theorem feedByte_eq_ok {b : Byte} {s : State} {p : Option Command × State} :
    feedByte b s = .ok p ↔
      storageOk s.cfg = true ∧ ∃ q, cfpFeed s.cfg b s.cfp = .ok q ∧ p = (q.1, setCfp q.2 s) := by
  simp only [feedByte, refuseUnless_eq_ok, andThen_eq_ok, Except.ok.injEq, eq_comm (b := p)]

/-- Everything taking one byte can answer: the parser moved, and the command it completed, if any, was
dispatched. -/
theorem consumeByte_cases {b : Byte} {s s' : State} (h : consumeByte b s = .ok s') :
    storageOk s.cfg = true ∧ ∃ o c, cfpFeed s.cfg b s.cfp = .ok (o, c) ∧
      ((o = none ∧ s' = setCfp c s) ∨
        ∃ cmd, o = some cmd ∧ dispatchCommand cmd (setCfp c s) = .ok s') := by
  simp only [consumeByte, andThen_eq_ok, feedByte_eq_ok] at h
  obtain ⟨_, ⟨hs, ⟨o, c⟩, hq, rfl⟩, h⟩ := h
  refine ⟨hs, o, c, hq, ?_⟩
  cases o with
  | none => exact .inl ⟨rfl, by simpa using h.symm⟩
  | some cmd => exact .inr ⟨cmd, rfl, h⟩

@[simp] theorem consumeBytes_nil (s : State) : consumeBytes [] s = .ok s := rfl

@[simp] theorem consumeBytes_cons (b : Byte) (bs : List Byte) (s : State) :
    consumeBytes (b :: bs) s = andThen (consumeByte b s) (consumeBytes bs) := rfl

/-- Taking two byte strings is taking the first and then the second: how bytes are grouped does not
matter. -/
theorem consumeBytes_append (xs ys : List Byte) (s : State) :
    consumeBytes (xs ++ ys) s = andThen (consumeBytes xs s) (consumeBytes ys) := by
  induction xs generalizing s with
  | nil => rfl
  | cons b xs ih =>
    simp only [List.cons_append, consumeBytes_cons]
    cases consumeByte b s with
    | error e => rfl
    | ok t => simpa using ih t

/-- Everything a pass of the main loop can answer (R203). -/
theorem mainStep_cases {now cnt : Nat} {s s' : State}
    (h : mainStep now cnt s = .ok s') :
    storageOk s.cfg = true ∧
    ((∃ b r, rxqPop s.cfg s.rxq = .ok (some b, r) ∧ consumeByte b (setRxq r s) = .ok s') ∨
     (s.rxq.head = s.rxq.tail ∧ s.seq.tickFlag = true ∧
        tickService now cnt (setSeq (clearTick s.seq) s) = .ok s') ∨
     (s.rxq.head = s.rxq.tail ∧ s.seq.tickFlag = false ∧ s' = s)) := by
  simp only [mainStep, andThen_eq_ok, popByte_eq_ok] at h
  obtain ⟨_, ⟨hs, ⟨o, r⟩, hq, rfl⟩, h⟩ := h
  refine ⟨hs, ?_⟩
  cases o with
  | some b => exact .inl ⟨b, r, hq, h⟩
  | none =>
    obtain ⟨he, _, hr⟩ | ⟨_, _, hc, _⟩ := rxqPop_cases hq
    · subst hr
      have hself : setRxq s.rxq s = s := rfl
      simp only [hself, idlePass] at h
      split at h
      · exact .inr (.inl ⟨he, ‹_›, h⟩)
      · exact .inr (.inr ⟨he, by simpa using ‹¬ s.seq.tickFlag = true›, by simpa using h.symm⟩)
    · cases hc

/-- A gripper position that fits its width is passed on unchanged (R155). -/
theorem gripSetPosition_of_inSigned {p : Int} {s : State} (h : inSigned s.cfg.gripPosBits p = true) :
    gripSetPosition p s = emit (.gripSetPos p) s := by
  rw [gripSetPosition, sextN_of_inSigned h]

/-- The elapsed time of a tick service is finite at R7's width and unit, whatever the timestamps are
(R204). -/
theorem tickDt_finite {cfg : Params} (hb : cfg.tsBits = 32) (hu : cfg.tsUnitS = ⟨0x358637BD⟩)
    (tLast now : Nat) : numIsFinite (tickDt cfg tLast now) = true := by
  have hf : numIsFinite (i2n (modPow cfg.tsBits ((now : Int) - tLast))) = true := by
    have h := modPow_lt cfg.tsBits ((now : Int) - tLast)
    refine numIsFinite_i2n (lt_of_lt_of_le (by simpa using h) ?_)
    rw [hb]; norm_num
  have hn := notNaN_of_finite hf
  have hi : numIsInf (i2n (modPow cfg.tsBits ((now : Int) - tLast))) = false := by
    simp only [numIsFinite, decide_eq_true_eq] at hf
    simp only [numIsInf, decide_eq_false_iff_not]; omega
  have h1 : numIsNaN ⟨0x358637BD⟩ = false := by decide
  have h2 : numIsInf ⟨0x358637BD⟩ = false := by decide
  have h3 : numUnits ⟨0x358637BD⟩ < 2 ^ 130 := by decide
  unfold tickDt numMul
  simp only [hu, hn, h1, hi, h2, Bool.false_eq_true, or_self, if_false]
  refine numIsFinite_mkNum _ (roundMag_finite (by positivity) ?_)
  calc _ < 2 ^ 277 * 2 ^ 130 := Nat.mul_lt_mul'' (numUnits_lt hf) h3
    _ ≤ 2 ^ 149 * 2 ^ 149 * 2 ^ 127 := by
      simp only [← pow_add]
      exact Nat.pow_le_pow_right (by decide) (by decide)

end Sys2Proof.Machine
end

