-- ==== Sys2Proof/Tests/Slice0.lean ====
section
/-! SUPPORT. The model's own tests.  Expected values are the spec's: the vectors of 95_test_vectors.md
(named in each test), the encodings of 30_encoding.md, or hand calculation where a comment says so.  The
witnesses at the end show, for each statement with hypotheses, a state and operands that meet them all. -/

namespace Sys2Proof.Tests

open Sys2Proof.Machine

/-! ### Helpers -/

/-- The next state, if the outcome is one. -/
def nextOf (o : Host.Outcome State Fault Refusal) : Option State :=
  match o with
  | .next s => some s
  | .fault _ => none
  | .refused _ => none

/-- Whether the outcome is this refusal. -/
def refusedWith (r : Refusal) (o : Host.Outcome State Fault Refusal) : Bool :=
  match o with
  | .next _ => false
  | .fault _ => false
  | .refused r' => decide (r = r')

/-- The reset state with `PULSE_PER_MM` = 16, as 95_test_vectors.md takes it. -/
def base : State := { State.reset with cfg := { Config.defaults with pulsePerMm := some ⟨0x41800000⟩ } }

/-- The parser capturing this body. -/
def capturing (body : List Byte) (s : State) : State :=
  setCfp { st := .capturing, buf := memWriteList [] 0 body, idx := body.length } s

/-- A ring of 4 slots (95_test_vectors.md, 2.1). -/
def smallRing (head tail : Nat) (bs : List Byte) : State :=
  setRxq { buf := memWriteList [] 0 bs, head := head, tail := tail }
    { base with cfg := { base.cfg with rxqSize := 4 } }

/-- An initialised instance: `PID_INIT(2, 4, 0.5, 100, 10, 1, 0, 0)` (V-PID-1). -/
def pidA : Pid where
  kp := ⟨0x40000000⟩
  ki := ⟨0x40800000⟩
  kd := ⟨0x3F000000⟩
  outLimit := ⟨0x42C80000⟩
  intLimit := ⟨0x41200000⟩
  alpha := ⟨0x3F800000⟩
  intThreshold := ⟨0⟩
  deadZone := ⟨0⟩
  integral := ⟨0⟩
  lastMeasured := ⟨0⟩
  lastFiltered := ⟨0⟩
  inited := true

/-- The state with instance 0 initialised. -/
def withPid : State := setPid 0 pidA base

/-- An active target of 150 with the FSM `Moving` and the position sampled by ENC (V-LIFT-3 to 6). -/
def seekingAt (pos : Num32) : State :=
  setFsm .moving (setLift { base.lift with active := true, target := ⟨0x43160000⟩ }
    (setEnc { base.enc with pos := pos } base))

/-- 0.0625. -/
def dtSixteenth : Num32 := ⟨0x3D800000⟩

/-- A quiet NaN. -/
def aNaN : Num32 := ⟨0x7FC00000⟩

/-- Positive infinity. -/
def anInf : Num32 := ⟨0x7F800000⟩

/-! ### WellFormed: an ill-formed term for each check -/

theorem test_wf_start_delimiter_in_operand : wellFormed Config.defaults (.fLifter [0x24]) = false := by decide
theorem test_wf_terminator_in_operand : wellFormed Config.defaults (.fLifter [0x35, 0x23]) = false := by decide
theorem test_wf_lifter_too_long : wellFormed Config.defaults (.fLifter (List.replicate 57 0x30)) = false := by decide
theorem test_wf_lifter_longest : wellFormed Config.defaults (.fLifter (List.replicate 56 0x30)) = true := by decide
theorem test_wf_open_delimiter : wellFormed Config.defaults (.fGripOpen [0x23]) = false := by decide
theorem test_wf_open_too_long : wellFormed Config.defaults (.fGripOpen (List.replicate 52 0x30)) = false := by decide
theorem test_wf_close_delimiter : wellFormed Config.defaults (.fGripClose [0x24]) = false := by decide
theorem test_wf_close_too_long : wellFormed Config.defaults (.fGripClose (List.replicate 51 0x30)) = false := by
  decide
theorem test_wf_pos_delimiter : wellFormed Config.defaults (.fGripPos [0x39, 0x24]) = false := by decide
theorem test_wf_pos_too_long : wellFormed Config.defaults (.fGripPos (List.replicate 52 0x30)) = false := by decide

/-- R112, R124: each of the eight operands must be finite. -/
theorem test_wf_pid_init_not_finite :
    wellFormed Config.defaults (.pidInit .owner 0 aNaN numOne numOne numOne numOne numOne numOne numOne) = false ∧
    wellFormed Config.defaults (.pidInit .owner 0 numOne aNaN numOne numOne numOne numOne numOne numOne) = false ∧
    wellFormed Config.defaults (.pidInit .owner 0 numOne numOne aNaN numOne numOne numOne numOne numOne) = false ∧
    wellFormed Config.defaults (.pidInit .owner 0 numOne numOne numOne anInf numOne numOne numOne numOne) = false ∧
    wellFormed Config.defaults (.pidInit .owner 0 numOne numOne numOne numOne anInf numOne numOne numOne) = false ∧
    wellFormed Config.defaults (.pidInit .owner 0 numOne numOne numOne numOne numOne aNaN numOne numOne) = false ∧
    wellFormed Config.defaults (.pidInit .owner 0 numOne numOne numOne numOne numOne numOne anInf numOne) = false ∧
    wellFormed Config.defaults (.pidInit .owner 0 numOne numOne numOne numOne numOne numOne numOne anInf) = false :=
  by decide

/-- R19: limits, threshold and dead zone not negative, alpha from 0 to 1 (-1 = 0xBF800000, 2 =
0x40000000). -/
theorem test_wf_pid_init_out_of_range :
    wellFormed Config.defaults (.pidInit .owner 0 numOne numOne numOne ⟨0xBF800000⟩ numOne numOne numOne numOne) =
      false ∧
    wellFormed Config.defaults (.pidInit .owner 0 numOne numOne numOne numOne ⟨0xBF800000⟩ numOne numOne numOne) =
      false ∧
    wellFormed Config.defaults (.pidInit .owner 0 numOne numOne numOne numOne numOne ⟨0xBF800000⟩ numOne numOne) =
      false ∧
    wellFormed Config.defaults (.pidInit .owner 0 numOne numOne numOne numOne numOne ⟨0x40000000⟩ numOne numOne) =
      false ∧
    wellFormed Config.defaults (.pidInit .owner 0 numOne numOne numOne numOne numOne numOne ⟨0xBF800000⟩ numOne) =
      false ∧
    wellFormed Config.defaults (.pidInit .owner 0 numOne numOne numOne numOne numOne numOne numOne ⟨0xBF800000⟩) =
      false ∧
    wellFormed Config.defaults (.pidInit .owner 0 numOne numOne numOne numOne numOne numOne numOne numOne) = true :=
  by decide

theorem test_wf_pid_calc :
    wellFormed Config.defaults (.pidCalc 0 aNaN numOne numOne) = false ∧
    wellFormed Config.defaults (.pidCalc 0 numOne anInf numOne) = false ∧
    wellFormed Config.defaults (.pidCalc 0 numOne numOne aNaN) = false := by decide

theorem test_wf_command_not_finite :
    wellFormed Config.defaults (.cmdDispatch (.liftSetDelta aNaN)) = false ∧
    wellFormed Config.defaults (.cmdLiftSetDelta anInf) = false := by decide

theorem test_wf_dt_not_finite :
    wellFormed Config.defaults (.liftUpdate aNaN) = false ∧ wellFormed Config.defaults (.encSample 0 anInf) = false := by decide

/-- R111, R38, R66: an instance index names an instance and an integer operand fits its width. -/
theorem test_wf_out_of_width :
    wellFormed Config.defaults (.pidCalc 2 numOne numOne numOne) = false ∧
    wellFormed Config.defaults
      (.pidInit .owner 2 numOne numOne numOne numOne numOne numOne numOne numOne) = false ∧
    wellFormed Config.defaults (.encSample 65536 numOne) = false ∧
    wellFormed Config.defaults (.mainStep 4294967296 0) = false ∧
    wellFormed Config.defaults (.tickService 0 65536) = false ∧
    wellFormed Config.defaults (.tickService 4294967295 65535) = true ∧
    wellFormed Config.defaults (.cmdGripperSetPosition 2147483648) = false ∧
    wellFormed Config.defaults (.cmdDispatch (.gripperSetPosition (-2147483649))) = false := by decide

/-! ### Decode: words written out from R61 to R63, R69 -/

theorem test_decode_legacy :
    decode 63 .idle [0x00] = .ok (.legStop, []) ∧ decode 63 .idle [0x01, 0x02] = .ok (.legUp, [0x02]) ∧
    decode 63 .idle [0x02] = .ok (.legDown, []) := by decide

theorem test_decode_delimiters :
    decode 63 .idle [0x24] = .ok (.sof, []) ∧ decode 63 .capturing [0x24] = .ok (.sof, []) ∧
    decode 63 .capturing [0x23] = .ok (.eof, []) := by decide

/-- `$LIFTER:12.5#` (the table's example). -/
theorem test_decode_lifter :
    decode 63 .idle [0x24, 0x4C, 0x49, 0x46, 0x54, 0x45, 0x52, 0x3A, 0x31, 0x32, 0x2E, 0x35, 0x23] =
      .ok (.fLifter [0x31, 0x32, 0x2E, 0x35], []) := by decide

/-- `$GRIPPER:OPEN#` (V-CFP-40), then one more byte. -/
theorem test_decode_grip_open :
    decode 63 .idle
        [0x24, 0x47, 0x52, 0x49, 0x50, 0x50, 0x45, 0x52, 0x3A, 0x4F, 0x50, 0x45, 0x4E, 0x23, 0x01] =
      .ok (.fGripOpen [], [0x01]) := by decide

/-- `$GRIPPER:CLOSE#` (V-CFP-41). -/
theorem test_decode_grip_close :
    decode 63 .capturing
        [0x24, 0x47, 0x52, 0x49, 0x50, 0x50, 0x45, 0x52, 0x3A, 0x43, 0x4C, 0x4F, 0x53, 0x45, 0x23] =
      .ok (.fGripClose [], []) := by decide

/-- `$GRIPPER:POS:-5#` (V-CFP-47). -/
theorem test_decode_grip_pos :
    decode 63 .idle
        [0x24, 0x47, 0x52, 0x49, 0x50, 0x50, 0x45, 0x52, 0x3A, 0x50, 0x4F, 0x53, 0x3A, 0x2D, 0x35, 0x23] =
      .ok (.fGripPos [0x2D, 0x35], []) := by decide

/-- R64, R67: bytes without a meaning are rejected by name, in each parser state. -/
theorem test_decode_rejects :
    decode 63 .idle [] = .error .noByte ∧ decode 63 .idle [0x03] = .error (.ignoredByte 0x03) ∧
    decode 63 .idle [0x23] = .error (.ignoredByte 0x23) ∧
    decode 63 .capturing [0x01] = .error (.frameContent 0x01) := by decide

/-- R99 (V-CFP-27): `$XLIFTER:5#` is no frame instruction; its start delimiter stands alone. -/
theorem test_decode_unrecognised_frame :
    decode 63 .idle [0x24, 0x58, 0x4C, 0x49, 0x46, 0x54, 0x45, 0x52, 0x3A, 0x35, 0x23] =
      .ok (.sof, [0x58, 0x4C, 0x49, 0x46, 0x54, 0x45, 0x52, 0x3A, 0x35, 0x23]) := by decide

/-- R72: the opcode table's own words. -/
theorem test_table_words :
    decodeTableWord 64 0x244C49465445523A = some (.fLifter []) ∧
    decodeTableWord 104 0x24475249505045523A4F50454E = some (.fGripOpen []) ∧
    decodeTableWord 112 0x24475249505045523A434C4F5345 = some (.fGripClose []) ∧
    decodeTableWord 104 0x24475249505045523A504F533A = some (.fGripPos []) := by decide

/-- R69 (V-CFP-21): the notification, read as input, is a lifter frame whose operand is `OK`. -/
theorem test_table_word_of_the_notification :
    decodeTableWord 104 0x244C49465445523A4F4B230D0A = some (.fLifter [0x4F, 0x4B]) := by decide

/-- R69: the bytes of the notification. -/
theorem test_encode_notify :
    encode .notify =
      some [0x24, 0x4C, 0x49, 0x46, 0x54, 0x45, 0x52, 0x3A, 0x4F, 0x4B, 0x23, 0x0D, 0x0A] := by decide

/-! ### Steps that take a placed word -/

/-- R83: `LEG_UP` as the first step after reset. -/
theorem test_fetch_leg_up :
    (nextOf (step (State.reset.withFetchWord 8 0x01))).map (fun t => t.lift.man) = some .up := by decide

/-- R86, R93: the frame word with an empty numeral ends its frame and sets nothing. -/
theorem test_fetch_lifter :
    (nextOf (step (State.reset.withFetchWord 64 0x244C49465445523A))).map
      (fun t => (t.cfp.st, t.cfp.idx, t.lift.pending, t.rxq.tail)) = some (.idle, 0, false, 1) := by
  decide

/-- R95: the gripper word opens the gripper. -/
theorem test_fetch_grip_open :
    (nextOf (step (State.reset.withFetchWord 104 0x24475249505045523A4F50454E))).map
      (fun t => t.trace) = some [.gripOpen] := by decide

/-! ### One step of each instruction -/

/-- V-CFP-1 with R144. -/
theorem test_leg_stop :
    (nextOf (exec .legStop (setLift { base.lift with man := .up, active := true } base))).map
      (fun t => (t.lift.man, t.lift.active)) = some (.stop, false) := by decide

/-- V-CFP-2. -/
theorem test_leg_up : (nextOf (exec .legUp base)).map (fun t => t.lift.man) = some .up := by decide

/-- V-CFP-62: inside a frame the byte `01` is content. -/
theorem test_leg_up_inside_a_frame :
    (nextOf (exec .legUp (capturing [0x4C] base))).map
      (fun t => (t.lift.man, t.cfp.idx, memRead t.cfp.buf 1)) = some (.stop, 2, 0x01) := by decide

/-- V-CFP-3. -/
theorem test_leg_down : (nextOf (exec .legDown base)).map (fun t => t.lift.man) = some .down := by decide

/-- V-CFP-60: a start delimiter inside a frame starts again at index 0. -/
theorem test_sof :
    (nextOf (exec .sof (capturing [0x4C, 0x49, 0x46] base))).map (fun t => (t.cfp.st, t.cfp.idx)) =
      some (.capturing, 0) := by decide

/-- V-CFP-11: the terminator of `$LIFTER:50#`. -/
theorem test_eof :
    (nextOf (exec .eof (capturing [0x4C, 0x49, 0x46, 0x54, 0x45, 0x52, 0x3A, 0x35, 0x30] base))).map
      (fun t => (t.cfp.st, t.cfp.idx, t.lift.delta, t.lift.pending)) =
      some (.idle, 0, ⟨0x42480000⟩, true) := by decide

/-- R99: the body of `$LIFT_STOP#` gives no command. -/
theorem test_match_unrecognised :
    matchBody base.cfg [0x4C, 0x49, 0x46, 0x54, 0x5F, 0x53, 0x54, 0x4F, 0x50] = none := by decide

/-- V-CFP-5: ignored while `Idle`. -/
theorem test_eof_idle : (nextOf (exec .eof base)) = some base := by decide

/-- V-CFP-10. -/
theorem test_f_lifter :
    (nextOf (exec (.fLifter [0x31, 0x32, 0x2E, 0x35]) base)).map
      (fun t => (t.cfp.st, t.lift.delta, t.lift.pending)) =
      some (.idle, ⟨0x41480000⟩, true) := by decide

/-- V-CFP-28: the operand ends at the first `00`. -/
theorem test_f_lifter_nul :
    (nextOf (exec (.fLifter [0x35, 0x00, 0x58]) base)).map (fun t => t.lift.delta) =
      some ⟨0x40A00000⟩ := by decide

/-- V-CFP-42: with `PREFIX` the trailing bytes are ignored. -/
theorem test_f_grip_open_trailing :
    (nextOf (exec (.fGripOpen [0x45, 0x44]) base)).map (fun t => t.trace) = some [.gripOpen] := by decide

/-- V-CFP-42: with `EXACT` they make the body unrecognised. -/
theorem test_f_grip_open_exact :
    (nextOf (exec (.fGripOpen [0x45, 0x44])
      { base with cfg := { base.cfg with bodyMatch := .byWhole } })).map (fun t => t.trace) = some [] := by
  decide

/-- V-CFP-41. -/
theorem test_f_grip_close :
    (nextOf (exec (.fGripClose []) base)).map (fun t => t.trace) = some [.gripClose] := by decide

/-- V-CFP-51: the least position. -/
theorem test_f_grip_pos :
    (nextOf (exec (.fGripPos [0x2D, 0x32, 0x31, 0x34, 0x37, 0x34, 0x38, 0x33, 0x36, 0x34, 0x38])
      base)).map (fun t => t.trace) = some [.gripSetPos (-2147483648)] := by decide

/-- V-CFP-50: one above the largest is out of range. -/
theorem test_f_grip_pos_range :
    (nextOf (exec (.fGripPos [0x32, 0x31, 0x34, 0x37, 0x34, 0x38, 0x33, 0x36, 0x34, 0x38])
      base)).map (fun t => t.trace) = some [] := by decide

/-- R69. -/
theorem test_notify :
    (nextOf (exec .notify base)).map (fun t => t.trace) =
      some [.notify [0x24, 0x4C, 0x49, 0x46, 0x54, 0x45, 0x52, 0x3A, 0x4F, 0x4B, 0x23, 0x0D, 0x0A]] := by
  decide

/-- V-RXQ-6: stored in slot 3, and the head wraps. -/
theorem test_rxq_push :
    (nextOf (exec (.rxqPush 0xA5) (smallRing 3 1 [0xA1, 0xA2, 0xA3]))).map
      (fun t => (t.rxq.head, t.rxq.tail, memSlice t.rxq.buf 4)) =
      some (0, 1, [0xA1, 0xA2, 0xA3, 0xA5]) := by decide

/-- V-RXQ-4: a full ring drops the byte. -/
theorem test_rxq_push_full :
    nextOf (exec (.rxqPush 0xA4) (smallRing 3 0 [0xA1, 0xA2, 0xA3])) =
      some (smallRing 3 0 [0xA1, 0xA2, 0xA3]) := by decide

/-- V-RXQ-5. -/
theorem test_rxq_pop :
    (nextOf (exec .rxqPop (smallRing 3 0 [0xA1, 0xA2, 0xA3]))).map
      (fun t => (t.ret, t.rxq.head, t.rxq.tail)) = some (.byte (some 0xA1), 3, 1) := by decide

/-- V-RXQ-8. -/
theorem test_rxq_pop_empty :
    (nextOf (exec .rxqPop (smallRing 0 0 []))).map (fun t => (t.ret, t.rxq.tail)) =
      some (.byte none, 0) := by decide

/-- S8: an opcode read while `Idle` gives its command at once. -/
theorem test_cfp_feed :
    (nextOf (exec (.cfpFeed 0x01) base)).map (fun t => (t.ret, t.cfp.idx)) =
      some (.command (some (.liftManual .up)), 0) := by decide

/-- S2: the byte that finds `cfp.idx` = `MAX_BODY` abandons the frame. -/
theorem test_cfp_feed_overflow :
    (nextOf (exec (.cfpFeed 0x41) (setCfp { st := .capturing, buf := [], idx := 63 } base))).map
      (fun t => (t.ret, t.cfp)) = some (.command none, { st := .idle, buf := [], idx := 0 }) := by decide

/-- R112: the registers are written and the accumulators zeroed. -/
theorem test_pid_init :
    (nextOf (exec (.pidInit .owner 0 ⟨0x40000000⟩ ⟨0x40800000⟩ ⟨0x3F000000⟩ ⟨0x42C80000⟩ ⟨0x41200000⟩
      ⟨0x3F800000⟩ ⟨0⟩ ⟨0⟩) base)).map (fun t => t.pid) =
      some [pidA, Pid.atReset] := by decide

/-- V-PID-17: alpha above 1. -/
theorem test_pid_init_refused :
    refusedWith .pidIllegalConfig (exec (.pidInit .owner 0 ⟨0x40000000⟩ ⟨0x40800000⟩ ⟨0x3F000000⟩
      ⟨0x42C80000⟩ ⟨0x41200000⟩ ⟨0x40000000⟩ ⟨0⟩ ⟨0⟩) base) = true := by decide

/-- V-PID-1. -/
theorem test_pid_calc :
    (nextOf (exec (.pidCalc 0 ⟨0x41000000⟩ ⟨0x40000000⟩ dtSixteenth) withPid)).map
      (fun t => (t.ret, (getPid 0 t).integral, (getPid 0 t).lastMeasured, (getPid 0 t).lastFiltered)) =
      some (.num ⟨0xC0200000⟩, ⟨0x3EC00000⟩, ⟨0x40000000⟩, ⟨0xC2000000⟩) := by decide +kernel

/-- V-PID-2, from the state V-PID-1 leaves. -/
theorem test_pid_calc_second :
    (nextOf (exec (.pidCalc 0 ⟨0x41000000⟩ ⟨0x40400000⟩ dtSixteenth)
      (setPid 0 { pidA with integral := ⟨0x3EC00000⟩, lastMeasured := ⟨0x40000000⟩,
                               lastFiltered := ⟨0xC2000000⟩ } base))).map
      (fun t => (t.ret, (getPid 0 t).integral, (getPid 0 t).lastFiltered)) =
      some (.num ⟨0x40980000⟩, ⟨0x3F300000⟩, ⟨0xC1800000⟩) := by decide +kernel

/-- R141, R142. -/
theorem test_cmd_dispatch :
    (nextOf (exec (.cmdDispatch (.liftSetDelta ⟨0x42480000⟩)) base)).map
      (fun t => (t.lift.delta, t.lift.pending)) = some (⟨0x42480000⟩, true) := by decide

/-- V-LIFT-12: a later delta replaces the earlier one. -/
theorem test_cmd_lift_set_delta :
    (nextOf (exec (.cmdLiftSetDelta ⟨0xC1A00000⟩)
      (setLift { base.lift with delta := ⟨0x42480000⟩, pending := true } base))).map
      (fun t => (t.lift.delta, t.lift.pending, t.lift.active)) = some (⟨0xC1A00000⟩, true, false) := by
  decide

/-- R143. -/
theorem test_cmd_lift_manual :
    (nextOf (exec (.cmdLiftManual .down) base)).map (fun t => t.lift.man) = some .down := by decide

/-- V-LIFT-10: the stop cancels the target, and the FSM waits for the tick. -/
theorem test_cmd_lift_stop :
    (nextOf (exec .cmdLiftStop (setLift { (seekingAt ⟨0⟩).lift with man := .up } (seekingAt ⟨0⟩)))).map
      (fun t => (t.lift.man, t.lift.pending, t.lift.active, t.fsm)) =
      some (.stop, false, false, .moving) := by decide

/-- R153. -/
theorem test_cmd_gripper_open :
    (nextOf (exec .cmdGripperOpen base)).map (fun t => t.trace) = some [.gripOpen] := by decide

/-- R154. -/
theorem test_cmd_gripper_close :
    (nextOf (exec .cmdGripperClose base)).map (fun t => t.trace) = some [.gripClose] := by decide

/-- V-LIFT-16: at once, whatever LIFT is doing. -/
theorem test_cmd_gripper_set_position :
    (nextOf (exec (.cmdGripperSetPosition 90) (setLift { base.lift with man := .up } base))).map
      (fun t => (t.trace, t.lift.man)) = some ([.gripSetPos 90], .up) := by decide

/-- V-LIFT-2: the pending delta becomes the target and the lift seeks it. -/
theorem test_lift_update_converts :
    (nextOf (exec (.liftUpdate dtSixteenth)
      (setLift { base.lift with delta := ⟨0x42480000⟩, pending := true }
        (setEnc { base.enc with pos := ⟨0x42C80000⟩ } base)))).map
      (fun t => (t.lift.target, t.lift.pending, t.lift.active, t.trace)) =
      some (⟨0x43160000⟩, false, true,
        [.hook .exit .idle, .hook .entry .moving, .actDir .forward]) := by decide

/-- V-LIFT-3: an error equal to the tolerance is an arrival. -/
theorem test_lift_update_arrives :
    (nextOf (exec (.liftUpdate dtSixteenth) (seekingAt ⟨0x43110000⟩))).map
      (fun t => (t.lift.active, t.trace)) =
      some (false, [.hook .exit .moving, .hook .entry .idle, .actDir .stop,
        .notify [0x24, 0x4C, 0x49, 0x46, 0x54, 0x45, 0x52, 0x3A, 0x4F, 0x4B, 0x23, 0x0D, 0x0A]]) := by
  decide

/-- R149, with `-0 = +0` (R9): 2^-149, -2^-149, and both zeros. -/
theorem test_direction_of_a_loop_output :
    sign3 ⟨0x00000001⟩ = .forward ∧ sign3 ⟨0x80000001⟩ = .reverse ∧ sign3 numZero = .stop ∧
    sign3 ⟨0x80000000⟩ = .stop := by decide

/-- V-FSM-2. -/
theorem test_fsm_eval :
    (nextOf (exec (.fsmEval false) (setFsm .moving base))).map (fun t => (t.fsm, t.trace)) =
      some (.idle, [.hook .exit .moving, .hook .entry .idle]) := by decide

/-- V-ENC-2: the counter wraps downward. -/
theorem test_enc_sample_wraps :
    (nextOf (exec (.encSample 65531 dtSixteenth) (setEnc { base.enc with cntLast := 5 } base))).map
      (fun t => (t.enc.cntLast, t.enc.acc, t.enc.pos, t.enc.spd)) =
      some (65531, -10, ⟨0xBF200000⟩, ⟨0xC1200000⟩) := by decide

/-- V-ENC-6: the accumulator wraps silently. -/
theorem test_enc_sample_accumulator :
    (nextOf (exec (.encSample 1 dtSixteenth) (setEnc { base.enc with acc := 0x7FFFFFFF } base))).map
      (fun t => (t.enc.acc, t.enc.pos)) = some (-2147483648, ⟨0xCD000000⟩) := by decide

/-- R202. -/
theorem test_tick_irq :
    (nextOf (exec .tickIrq base)).map (fun t => t.seq) = some { tickFlag := true, tLast := 0 } := by
  decide

/-- V-SEQ-10: a byte is taken before a pending tick. -/
theorem test_main_step_byte_first :
    (nextOf (exec (.mainStep 10000 0)
      (setSeq { tickFlag := true, tLast := 0 } (setRxq (placeByte base.cfg 0x01 base.rxq) base)))).map
      (fun t => (t.lift.man, t.seq.tickFlag, t.rxq.tail, t.trace)) = some (.up, true, 1, []) := by decide

/-- V-SEQ-11: on an empty ring the tick is serviced. -/
theorem test_main_step_tick :
    (nextOf (exec (.mainStep 10000 1600) (setSeq { tickFlag := true, tLast := 0 } base))).map
      (fun t => (t.seq.tickFlag, t.seq.tLast, t.enc.pos, t.trace)) =
      some (false, 10000, ⟨0x42C80000⟩, [.actDir .stop]) := by decide

/-- V-SEQ-3: the elapsed time across the timestamp's wrap. -/
theorem test_tick_service_dt : tickDt Config.defaults 4294962296 5000 = ⟨0x3C23D70A⟩ := by decide

/-- V-SEQ-7 with V-ENC-1's counter: position and speed of one service. -/
theorem test_tick_service :
    (nextOf (exec (.tickService 62500 4) (setEnc { base.enc with cntLast := 65530 } base))).map
      (fun t => (t.seq.tLast, t.enc.pos, t.enc.spd, t.trace)) =
      some (62500, ⟨0x3F200000⟩, ⟨0x41200000⟩, [.actDir .stop]) := by decide

/-- R30, R240: reset from a busy state. -/
theorem test_reset :
    nextOf (exec .reset (seekingAt ⟨0x42C80000⟩)) = some base := by decide

/-! ### Witnesses: states and operands that meet a statement's hypotheses -/

theorem next_of_isSome {o : Host.Outcome State Fault Refusal} (h : (nextOf o).isSome = true) :
    ∃ t, o = .next t := by
  cases o with
  | next t => exact ⟨t, rfl⟩
  | fault f => cases h
  | refused r => cases h

/-- The parser capturing at a write index. -/
def capturingAt (idx : Nat) : State := setCfp { st := .capturing, buf := [], idx := idx } base

/-- The state with one byte in the ring. -/
def withByte (b : Byte) (s : State) : State := setRxq (placeByte s.cfg b s.rxq) s

/-- The state with another cascade mode. -/
def inCascade (c : Cascade) (s : State) : State := { s with cfg := { s.cfg with cascade := c } }

/-- Seeking 9 from 0 with both instances initialised (95_test_vectors.md, 2.5). -/
def cascaded (c : Cascade) : State :=
  inCascade c (setPid 1 pidA (setPid 0 pidA
    (setLift { base.lift with active := true, target := ⟨0x41100000⟩ } base)))

/-- The digits of V-CFP-18's numeral. -/
def numeralMax : List Byte :=
  [3, 4, 0, 2, 8, 2, 3, 4, 6, 6, 3, 8, 5, 2, 8, 8, 5, 9, 8, 1, 1, 7, 0, 4, 1, 8, 3, 4, 8, 4, 5, 1, 6, 9, 2, 5,
    4, 4, 0].map asciiDigit

/-- The digits of V-CFP-19's numeral. -/
def numeralMidpoint : List Byte :=
  [3, 4, 0, 2, 8, 2, 3, 5, 6, 7, 7, 9, 7, 3, 3, 6, 6, 1, 6, 3, 7, 5, 3, 9, 3, 9, 5, 4, 5, 8, 1, 4, 2, 5, 6, 8,
    4, 4, 8].map asciiDigit

theorem witness_DecodeOfEncode :
    (wellFormed Config.defaults (.fLifter (List.replicate 56 0x30)) = true ∧
      decodableIn .idle (.fLifter (List.replicate 56 0x30)) = true ∧
      encode (.fLifter (List.replicate 56 0x30)) =
        some (chSof :: (litLifter ++ List.replicate 56 0x30 ++ [chEof])) ∧
      ((Instr.fLifter (List.replicate 56 0x30)) ≠ .sof ∨ [(0x01 : Byte)] = [])) ∧
    (wellFormed Config.defaults .sof = true ∧ decodableIn .capturing .sof = true ∧ encode .sof = some [0x24] ∧
      (Instr.sof ≠ .sof ∨ ([] : List Byte) = [])) := by decide

theorem witness_EncodeOfDecode :
    decode 63 .capturing [0x23, 0x24] = .ok (.eof, [0x24]) := by decide

theorem witness_StepRunsTheScheduledOperation :
    (setSched [.rxByte 0x24, .tick] base).sched = .rxByte 0x24 :: [.tick] ∧
    (setSched [.tick] base).sched = .tick :: [] ∧
    (setSched [.mainPass 4294967295 65535] base).sched = .mainPass 4294967295 65535 :: [] ∧
    (setSched [.pidInit .client 1 numOne numOne numOne numOne numOne numOne numOne numOne] base).sched =
      .pidInit .client 1 numOne numOne numOne numOne numOne numOne numOne numOne :: [] ∧
    (setSched [.pidCalc 1 numOne numZero numOne] base).sched = .pidCalc 1 numOne numZero numOne :: [] ∧
    base.sched = [] := by decide

theorem witness_MainPassRunsTheDecodedInstruction :
    let s := setSched [.mainPass 0 0] (withByte 0x23 (capturing (litLifter ++ [0x35]) base))
    rxqPop s.cfg s.rxq = .ok (some 0x23, { s.rxq with tail := 1 }) ∧
    decodeAt s.cfp.st (memSlice s.cfp.buf s.cfp.idx) 0x23 = .ok (.fLifter [0x35]) ∧
    wellFormed s.cfg (.fLifter [0x35]) = true ∧ s.sched = .mainPass 0 0 :: [] := by decide

theorem witness_DrainFeedsTheParserInOrder :
    let s := setSched [.mainPass 0 0, .mainPass 5 7, .tick]
      (setRxq { buf := memWriteList [] 0 [0x24, 0x01, 0x23], head := 3, tail := 0 } base)
    stateInv s = true ∧ ringBytes s.cfg s.rxq = [0x24, 0x01] ++ [0x23] ∧
    [((0 : Nat), (0 : Nat)), (5, 7)].length = [(0x24 : Byte), 0x01].length ∧
    s.sched = [((0 : Nat), (0 : Nat)), (5, 7)].map (fun p => Event.mainPass p.1 p.2) ++
      [.tick] := by decide

theorem witness_PushStoresThenPublishes :
    (storageOk (smallRing 3 0 [0xA1]).cfg = true ∧
      (smallRing 3 0 [0xA1]).rxq.head < (smallRing 3 0 [0xA1]).cfg.rxqSize ∧
      memWf (smallRing 3 0 [0xA1]).rxq.buf = true ∧ (3 + 1) % 4 = 0) ∧
    (storageOk (smallRing 3 1 [0xA1]).cfg = true ∧
      (smallRing 3 1 [0xA1]).rxq.head < (smallRing 3 1 [0xA1]).cfg.rxqSize ∧
      memWf (smallRing 3 1 [0xA1]).rxq.buf = true ∧ (3 + 1) % 4 ≠ 1) := by decide

theorem witness_PopReturnsTheByteAtTheTail :
    (storageOk (smallRing 3 3 []).cfg = true ∧
      (smallRing 3 3 []).rxq.tail < (smallRing 3 3 []).cfg.rxqSize ∧
      (smallRing 3 3 []).rxq.head = (smallRing 3 3 []).rxq.tail) ∧
    (storageOk (smallRing 0 3 [0xA1]).cfg = true ∧
      (smallRing 0 3 [0xA1]).rxq.tail < (smallRing 0 3 [0xA1]).cfg.rxqSize ∧
      (smallRing 0 3 [0xA1]).rxq.head ≠ (smallRing 0 3 [0xA1]).rxq.tail) := by decide

theorem witness_RingIsFirstInFirstOut :
    (storageOk (smallRing 0 1 [0xA1]).cfg = true ∧
      ringInv (smallRing 0 1 [0xA1]).cfg (smallRing 0 1 [0xA1]).rxq = true) ∧
    (storageOk (smallRing 3 1 [0xA1]).cfg = true ∧
      ringInv (smallRing 3 1 [0xA1]).cfg (smallRing 3 1 [0xA1]).rxq = true) := by decide

theorem witness_ConsumerNeverTouchesTheProducerSide :
    (∃ t, exec (.mainStep 0 0) base = .next t) ∧
    (∃ t, exec (.mainStep 0 0) (withByte 0x24 base) = .next t) :=
  ⟨next_of_isSome (by decide), next_of_isSome (by decide)⟩

theorem witness_InterruptStepsCommute :
    storageOk base.cfg = true ∧ base.rxq.head < base.cfg.rxqSize := by decide

theorem witness_CfpFeedInFull :
    (storageOk base.cfg = true ∧ base.cfp.st = .idle) ∧
    (storageOk (capturingAt 63).cfg = true ∧ (capturingAt 63).cfp.st = .capturing ∧
      (capturingAt 63).cfp.idx ≤ (capturingAt 63).cfg.frameCap - 1) ∧
    ((capturingAt 62).cfp.st = .capturing ∧
      (capturingAt 62).cfp.idx < (capturingAt 62).cfg.frameCap - 1) := by decide

theorem witness_StartDelimiterRestartsTheCapture : storageOk (capturingAt 63).cfg = true := by decide

/-- A body one byte short of a literal, and one as long as a body may be (all `00`), with both values of
`BODY_MATCH`. -/
theorem witness_TerminatorEndsTheCapture_unrecognised :
    ∀ m ∈ [BodyMatch.byPrefix, .byWhole],
      ∀ s ∈ [capturing [0x47, 0x52, 0x49, 0x50, 0x50, 0x45, 0x52, 0x3A, 0x4F, 0x50, 0x45] base,
          capturingAt 63],
        let t := { s with cfg := { s.cfg with bodyMatch := m } }
        storageOk t.cfg = true ∧ t.cfp.st = .capturing ∧ t.cfp.idx ≤ maxBody t.cfg ∧
        frameOf (memSlice t.cfp.buf t.cfp.idx) = none := by decide

theorem witness_TerminatorEndsTheCapture :
    (storageOk base.cfg = true ∧ base.cfp.st = .idle) ∧
    (let s := capturing litGripOpen base
     storageOk s.cfg = true ∧ s.cfp.st = .capturing ∧ s.cfp.idx ≤ maxBody s.cfg ∧
       matchBody s.cfg (memSlice s.cfp.buf s.cfp.idx) = some .gripperOpen) ∧
    (storageOk (capturingAt 63).cfg = true ∧ (capturingAt 63).cfp.st = .capturing ∧
      (capturingAt 63).cfp.idx ≤ maxBody (capturingAt 63).cfg ∧
      matchBody (capturingAt 63).cfg
        (memSlice (capturingAt 63).cfp.buf (capturingAt 63).cfp.idx) = none) := by decide

theorem witness_LegacyOpcodesActWhileIdle : storageOk base.cfg = true ∧ base.cfp.st = .idle := by decide

theorem witness_LegacyBytesInsideAFrameAreContent :
    (storageOk (capturingAt 62).cfg = true ∧ (capturingAt 62).cfp.st = .capturing ∧
      (capturingAt 62).cfp.idx < maxBody (capturingAt 62).cfg) ∧
    (storageOk (capturingAt 63).cfg = true ∧ (capturingAt 63).cfp.st = .capturing ∧
      maxBody (capturingAt 63).cfg ≤ (capturingAt 63).cfp.idx) := by decide

theorem witness_LifterFrameSetsTheDelta :
    storageOk base.cfg = true ∧ memWf base.cfp.buf = true ∧
    operandFits (maxBody base.cfg) litLifter [] = true ∧
    operandFits (maxBody base.cfg) litLifter (List.replicate 56 0x30) = true := by decide

theorem witness_GripperFramesWithoutOperand :
    storageOk base.cfg = true ∧ memWf base.cfp.buf = true ∧
    operandFits (maxBody base.cfg) litGripOpen (List.replicate 51 0x45) = true ∧
    operandFits (maxBody base.cfg) litGripClose (List.replicate 50 0x45) = true := by decide

theorem witness_GripperPositionFrame :
    storageOk base.cfg = true ∧ memWf base.cfp.buf = true ∧
    operandFits (maxBody base.cfg) litGripPos [] = true ∧
    operandFits (maxBody base.cfg) litGripPos (List.replicate 51 0x30) = true := by decide

theorem witness_FrameBufferAfterAFrame : memWf (capturing [0x41, 0x00] base).cfp.buf = true := by decide

theorem witness_OversizedFrameIsAbandoned :
    storageOk base.cfg = true ∧ bodyClean (List.replicate 64 0x41) = true ∧
    (List.replicate 64 (0x41 : Byte)).length = maxBody base.cfg + 1 := by decide

/-- The body of `$LIFT_STOP#` begins with none of the four literals. -/
theorem witness_CommandsComeOnlyFromOpcodesAndTerminators_unrecognised :
    ∀ lit ∈ [litLifter, litGripOpen, litGripClose, litGripPos], ∀ rest : List Byte,
      [0x4C, 0x49, 0x46, 0x54, 0x5F, 0x53, 0x54, 0x4F, 0x50] ≠ lit ++ rest := by
  simp [litLifter, litGripOpen, litGripClose, litGripPos]

theorem witness_CommandsComeOnlyFromOpcodesAndTerminators :
    (∃ t, exec (.cfpFeed 0x02) base = .next t ∧ t.ret = .command (some (.liftManual .down))) ∧
    (∃ t, exec (.cfpFeed 0x23) (capturing litGripClose base) = .next t ∧
      t.ret = .command (some .gripperClose)) := by
  refine ⟨?_, ?_⟩
  · obtain ⟨t, ht⟩ := next_of_isSome (o := exec (.cfpFeed 0x02) base) (by decide)
    refine ⟨t, ht, ?_⟩
    have h : (nextOf (exec (.cfpFeed 0x02) base)).map (fun t => t.ret) =
      some (.command (some (.liftManual .down))) := by decide
    rw [ht] at h
    simpa [nextOf] using h
  · obtain ⟨t, ht⟩ := next_of_isSome (o := exec (.cfpFeed 0x23) (capturing litGripClose base)) (by decide)
    refine ⟨t, ht, ?_⟩
    have h : (nextOf (exec (.cfpFeed 0x23) (capturing litGripClose base))).map (fun t => t.ret) =
      some (.command (some .gripperClose)) := by decide
    rw [ht] at h
    simpa [nextOf] using h

/-- `-0`, and V-CFP-18 and V-CFP-19: the largest finite number and the midpoint to `2^128`. -/
theorem witness_DecNumeralGrammar :
    decValue [] = none ∧
    (decValue [0x2D, 0x30] = some (true, 0, 1) ∧ roundMag 0 1 < infMag) ∧
    (decValue numeralMax = some (false, 340282346638528859811704183484516925440, 1) ∧
      roundMag 340282346638528859811704183484516925440 1 < infMag) ∧
    (decValue numeralMidpoint = some (false, 340282356779733661637539395458142568448, 1) ∧
      infMag ≤ roundMag 340282356779733661637539395458142568448 1) := by decide +kernel

theorem witness_IntNumeralGrammarAndRange : 0 < 1 ∧ 0 < Config.defaults.gripPosBits := by decide

theorem witness_GripperCommandsPassThrough :
    inSigned base.cfg.gripPosBits (-2147483648) = true ∧ inSigned base.cfg.gripPosBits 2147483647 = true ∧
    inSigned base.cfg.gripPosBits 2147483648 = false := by decide

theorem witness_DispatchRoutesEachCommand :
    commandWellFormed base.cfg (.liftSetDelta ⟨0x7F7FFFFF⟩) = true ∧
    commandWellFormed base.cfg (.gripperSetPosition (-2147483648)) = true := by decide

theorem witness_SetDeltaRaisesTargetPending : numIsFinite ⟨0xFF7FFFFF⟩ = true := by decide

theorem witness_ManualAndStopCommands :
    base.cfg.stopCancelsTarget = true ∧
    { base with cfg := { base.cfg with stopCancelsTarget := false } }.cfg.stopCancelsTarget = false := by
  decide

theorem witness_PidInitWritesItsInstance :
    1 < base.pid.length ∧
    (pidOperandsFinite numOne numOne numOne numZero numZero numOne numZero numZero = true ∧
      pidRangesLegal numZero numZero numOne numZero numZero = true) ∧
    (Invoker.owner = .owner ∨ ownedByLift .posSpd 1 = false) ∧
    (Invoker.client = .owner ∨ ownedByLift .pos 1 = false) := by decide

/-- Clause by clause: the first index without an instance; an instance of LIFT's; each operand check, by
the owner of an instance of LIFT's and by a client of one LIFT does not own; and the checks of a call. -/
theorem witness_PidRefusals :
    base.pid.length ≤ 2 ∧
    (1 < (inCascade .posSpd base).pid.length ∧ ownedByLift (inCascade .posSpd base).cfg.cascade 1 = true) ∧
    ((Invoker.owner = .owner ∨ ownedByLift (inCascade .posSpd base).cfg.cascade 1 = false) ∧
      (Invoker.client = .owner ∨ ownedByLift (inCascade .pos base).cfg.cascade 1 = false) ∧
      pidOperandsFinite aNaN numOne numOne numOne numOne numOne numOne numOne = false ∧
      pidOperandsFinite numOne numOne numOne numOne numOne ⟨0x3F800001⟩ numOne numOne = true ∧
      pidRangesLegal numOne numOne ⟨0x3F800001⟩ numOne numOne = false) ∧
    (1 < base.pid.length ∧ ownedByLift base.cfg.cascade 1 = false ∧ (getPid 1 base).inited = false) ∧
    (0 < withPid.pid.length ∧ ownedByLift withPid.cfg.cascade 0 = false ∧
      (getPid 0 withPid).inited = true ∧ pidConfigLegal (getPid 0 withPid) = true ∧
      dtBoundsFinite withPid.cfg = true ∧
      (numIsFinite numOne && numIsFinite anInf && numIsFinite numOne) = false ∧
      dtBoundsFinite { withPid.cfg with dtMax := anInf } = false) ∧
    (let s := setPid 0 { pidA with alpha := ⟨0x3F800001⟩ } base
     0 < s.pid.length ∧ ownedByLift s.cfg.cascade 0 = false ∧ (getPid 0 s).inited = true ∧
       pidConfigLegal (getPid 0 s) = false) ∧
    (let s := setPid 0 { pidA with lastFiltered := anInf } base
     0 < s.pid.length ∧ ownedByLift s.cfg.cascade 0 = false ∧ (getPid 0 s).inited = true ∧
       pidConfigLegal (getPid 0 s) = true ∧ dtBoundsFinite s.cfg = true ∧
       (numIsFinite numOne && numIsFinite numZero && numIsFinite dtSixteenth) = true ∧
       pidAccumulatorsFinite (getPid 0 s) = false) := by decide

/-- The error equals the dead zone, which is outside it (V-PID-8). -/
theorem witness_PidCalcInFull :
    let p := { pidA with deadZone := ⟨0x3F800000⟩ }
    let s := setPid 0 p base
    0 < s.pid.length ∧ getPid 0 s = p ∧ ownedByLift s.cfg.cascade 0 = false ∧ p.inited = true ∧
    dtBoundsFinite s.cfg = true ∧
    pidConfigLegal p = true ∧ numIsFinite ⟨0x41000000⟩ = true ∧ numIsFinite ⟨0x40E00000⟩ = true ∧
    numIsFinite dtSixteenth = true ∧ pidAccumulatorsFinite p = true ∧
    numLt (numAbs (numSub ⟨0x41000000⟩ ⟨0x40E00000⟩)) p.deadZone = false := by decide

theorem witness_PidDeadZoneChangesNothing :
    let s := setSched (List.replicate 3 (.pidCalc 0 ⟨0x41000000⟩ ⟨0x40F00000⟩ dtSixteenth) ++ [.tick])
      (setPid 0 { pidA with deadZone := ⟨0x3F800000⟩ } base)
    0 < s.pid.length ∧ ownedByLift s.cfg.cascade 0 = false ∧ (getPid 0 s).inited = true ∧
    dtBoundsFinite s.cfg = true ∧ pidConfigLegal (getPid 0 s) = true ∧ numIsFinite ⟨0x41000000⟩ = true ∧
    numIsFinite ⟨0x40F00000⟩ = true ∧ numIsFinite dtSixteenth = true ∧
    pidAccumulatorsFinite (getPid 0 s) = true ∧
    numLt (numAbs (numSub ⟨0x41000000⟩ ⟨0x40F00000⟩)) (getPid 0 s).deadZone = true ∧
    s.sched = List.replicate (2 + 1) (.pidCalc 0 ⟨0x41000000⟩ ⟨0x40F00000⟩ dtSixteenth) ++ [.tick] := by
  decide

theorem witness_PidIntegralStaysWithinItsLimits :
    numLt numZero withPid.cfg.dtMin = true ∧ numLe withPid.cfg.dtMin withPid.cfg.dtMax = true ∧
    (∃ t, exec (.pidCalc 0 ⟨0x41000000⟩ ⟨0x40000000⟩ dtSixteenth) withPid = .next t) ∧
    numLt (numAbs (numSub ⟨0x41000000⟩ ⟨0x40000000⟩)) (getPid 0 withPid).deadZone = false :=
  ⟨by decide, by decide, next_of_isSome (by decide +kernel), by decide⟩

/-- Clause by clause: outside the dead zone a sum that is no NaN (V-PID-1) and one that is (the error of
the largest number and its negation overflows and meets `kp` = 0); inside the dead zone (V-PID-7). -/
theorem witness_PidOutputStaysWithinItsLimits :
    (let e := numSub ⟨0x41000000⟩ ⟨0x40000000⟩
     let dtc := numClamp dtSixteenth withPid.cfg.dtMin withPid.cfg.dtMax
     (∃ t, exec (.pidCalc 0 ⟨0x41000000⟩ ⟨0x40000000⟩ dtSixteenth) withPid = .next t) ∧
     numIsNaN (pidSum pidA e (pidSeparate pidA e (pidAccum pidA e dtc))
       (pidFilt pidA (pidRaw pidA ⟨0x40000000⟩ dtc))) = false) ∧
    (let p := { pidA with kp := numZero }
     let e := numSub ⟨0x7F7FFFFF⟩ ⟨0xFF7FFFFF⟩
     (∃ t, exec (.pidCalc 0 ⟨0x7F7FFFFF⟩ ⟨0xFF7FFFFF⟩ dtSixteenth) (setPid 0 p base) = .next t) ∧
     numLt (numAbs e) p.deadZone = false ∧
     ∀ acc filt, numIsNaN (pidSum p e acc filt) = true) ∧
    (let s := setPid 0 { pidA with deadZone := numOne } base
     (∃ t, exec (.pidCalc 0 ⟨0x41000000⟩ ⟨0x40F00000⟩ dtSixteenth) s = .next t) ∧
     numLt (numAbs (numSub ⟨0x41000000⟩ ⟨0x40F00000⟩)) (getPid 0 s).deadZone = true) := by
  refine ⟨⟨next_of_isSome (by decide +kernel), by decide +kernel⟩,
    ⟨next_of_isSome (by decide +kernel), by decide, fun acc filt => ?_⟩,
    ⟨next_of_isSome (by decide +kernel), by decide⟩⟩
  have h : numSub ⟨0x7F7FFFFF⟩ ⟨0xFF7FFFFF⟩ = anInf := by decide
  rw [h]
  exact numIsNaN_numAdd_left (numIsNaN_numAdd_left (numIsNaN_numMul_zero_inf (by decide) (by decide)))

theorem witness_PendingDeltaBecomesTheTarget :
    (setLift { base.lift with delta := ⟨0x42480000⟩, pending := true } base).lift.pending = true ∧
    base.lift.pending = false := by decide

/-- An infinite target does not matter to a manual tick; a pending delta is finite; both values of
`DIR_MAP`. -/
theorem witness_ManualOverrideIgnoresTheTarget :
    let s := setLift { base.lift with man := .up, active := true, target := anInf } base
    let s' := setLift { base.lift with man := .down, pending := true, delta := ⟨0x7F7FFFFF⟩ }
      { base with cfg := { base.cfg with dirMap := .upReverse } }
    (tolOk s.cfg = true ∧ numIsFinite dtSixteenth = true ∧ numIsFinite s.enc.pos = true ∧
      (s.lift.pending = true → numIsFinite s.lift.delta = true) ∧ s.lift.man = .up) ∧
    (tolOk s'.cfg = true ∧ numIsFinite s'.enc.pos = true ∧
      (s'.lift.pending = true → numIsFinite s'.lift.delta = true) ∧ s'.lift.man = .down) := by decide

/-- V-LIFT-4 and V-LIFT-5: beyond the band on both sides; and V-LIFT-2, where the tick converts. -/
theorem witness_SeekingDrivesTowardTheTarget :
    let s := seekingAt ⟨0x43100000⟩
    let s' := seekingAt ⟨0x431C0000⟩
    let s'' := setLift { base.lift with delta := ⟨0x42480000⟩, pending := true } base
    (tolOk s.cfg = true ∧ numIsFinite dtSixteenth = true ∧ numIsFinite s.enc.pos = true ∧
      (s.lift.pending = true → numIsFinite s.lift.delta = true) ∧
      (s.lift.pending = false → numIsFinite s.lift.target = true) ∧
      s.cfg.cascade = .off ∧ s.lift.man = .stop ∧ (liftSample s).lift.active = true ∧
      (⟨0x40C00000⟩ : Num32) = numSub (liftSample s).lift.target s.enc.pos ∧
      numLt s.cfg.tol (numAbs ⟨0x40C00000⟩) = true) ∧
    (numIsFinite s'.enc.pos = true ∧ (s'.lift.pending = true → numIsFinite s'.lift.delta = true) ∧
      (s'.lift.pending = false → numIsFinite s'.lift.target = true) ∧
      s'.lift.man = .stop ∧ (liftSample s').lift.active = true ∧
      (⟨0xC0C00000⟩ : Num32) = numSub (liftSample s').lift.target s'.enc.pos ∧
      numLt s'.cfg.tol (numAbs ⟨0xC0C00000⟩) = true) ∧
    (s''.lift.pending = true ∧ numIsFinite s''.lift.delta = true ∧ s''.lift.man = .stop ∧
      (liftSample s'').lift.active = true ∧
      (⟨0x42480000⟩ : Num32) = numSub (liftSample s'').lift.target s''.enc.pos ∧
      numLt s''.cfg.tol (numAbs ⟨0x42480000⟩) = true) := by decide

theorem witness_SeekingThroughThePidLayer :
    (let s := cascaded .posSpd
     tolOk s.cfg = true ∧ dtBoundsFinite s.cfg = true ∧ numIsFinite dtSixteenth = true ∧
       numIsFinite s.enc.pos = true ∧ (s.lift.pending = true → numIsFinite s.lift.delta = true) ∧
       s.lift.man = .stop ∧ (liftSample s).lift.active = true ∧
       numLt s.cfg.tol (numAbs (numSub (liftSample s).lift.target s.enc.pos)) = true ∧
       numIsFinite (liftSample s).lift.target = true ∧ 0 < s.pid.length ∧ pidA = getPid 0 s ∧
       pidA.inited = true ∧ pidConfigLegal pidA = true ∧ pidAccumulatorsFinite pidA = true ∧
       s.cfg.cascade = .posSpd ∧
       numIsFinite (pidStages s.cfg pidA (liftSample s).lift.target s.enc.pos dtSixteenth).1 = true ∧
       numIsFinite s.enc.spd = true ∧ 1 < s.pid.length ∧ pidA = getPid 1 s) ∧
    (let s := cascaded .pos
     tolOk s.cfg = true ∧ numIsFinite s.enc.pos = true ∧
       (s.lift.pending = true → numIsFinite s.lift.delta = true) ∧ s.lift.man = .stop ∧
       (liftSample s).lift.active = true ∧
       numLt s.cfg.tol (numAbs (numSub (liftSample s).lift.target s.enc.pos)) = true ∧
       numIsFinite (liftSample s).lift.target = true ∧ 0 < s.pid.length ∧ pidA = getPid 0 s ∧
       s.cfg.cascade = .pos) := by decide +kernel

/-- The error equals the tolerance (V-LIFT-3); and a delta of zero that arrives as it is converted. -/
theorem witness_ArrivalStopsAndNotifies :
    (let s := seekingAt ⟨0x43110000⟩
     tolOk s.cfg = true ∧ numIsFinite dtSixteenth = true ∧ numIsFinite s.enc.pos = true ∧
       (s.lift.pending = true → numIsFinite s.lift.delta = true) ∧
       (s.lift.pending = false → numIsFinite s.lift.target = true) ∧
       s.lift.man = .stop ∧ (liftSample s).lift.active = true ∧
       numLt s.cfg.tol (numAbs (numSub (liftSample s).lift.target s.enc.pos)) = false) ∧
    (let s := setLift { base.lift with pending := true, target := anInf } base
     s.lift.pending = true ∧ numIsFinite s.lift.delta = true ∧ s.lift.man = .stop ∧
       (liftSample s).lift.active = true ∧
       numLt s.cfg.tol (numAbs (numSub (liftSample s).lift.target s.enc.pos)) = false) := by decide

theorem witness_IdleHoldStops :
    tolOk base.cfg = true ∧ numIsFinite dtSixteenth = true ∧ numIsFinite base.enc.pos = true ∧
    base.lift.man = .stop ∧ base.lift.pending = false ∧ base.lift.active = false := by decide

/-- A tick that moves the FSM, and one that does not. -/
theorem witness_OneActuatorEventPerTick :
    (∃ t, exec (.liftUpdate dtSixteenth) (seekingAt ⟨0x43110000⟩) = .next t) ∧
    ∃ t, exec (.liftUpdate dtSixteenth) (seekingAt ⟨0x43100000⟩) = .next t :=
  ⟨next_of_isSome (by decide), next_of_isSome (by decide)⟩

theorem witness_OnlyTheTickDrivesTheActuator :
    (∃ t, exec (.mainStep 0 0) (withByte 0x01 base) = .next t) ∧
    (∀ dt, Instr.mainStep 0 0 ≠ .liftUpdate dt) ∧
    (∀ now cnt, Instr.mainStep 0 0 ≠ .tickService now cnt) ∧ (∀ x, Instr.mainStep 0 0 ≠ .fsmEval x) ∧
    Instr.mainStep 0 0 ≠ .reset ∧
    ((∃ now cnt, Instr.mainStep 0 0 = .mainStep now cnt) →
      (withByte 0x01 base).rxq.head ≠ (withByte 0x01 base).rxq.tail) :=
  ⟨next_of_isSome (by decide), by simp, by simp, by simp, by simp, fun _ => by decide⟩

/-- S7: from 100 in steps of 20 to 140, then 145, where the error is the tolerance itself, then 150; and a
seek from 156 on the other side of the band. -/
theorem witness_SeekUntilTheBandThenHold :
    let s := seekingAt ⟨0x42C80000⟩
    tolOk s.cfg = true ∧ s.cfg.cascade = .off ∧ numIsFinite dtSixteenth = true ∧ s.lift.man = .stop ∧
    s.lift.pending = false ∧ s.lift.active = true ∧ numIsFinite s.lift.target = true ∧
    (∀ p ∈ [(⟨0x42C80000⟩ : Num32), ⟨0x42F00000⟩, ⟨0x430C0000⟩, ⟨0x431C0000⟩], numIsFinite p = true ∧
      numLt s.cfg.tol (numAbs (numSub s.lift.target p)) = true) ∧
    (numIsFinite ⟨0x43110000⟩ = true ∧
      numAbs (numSub s.lift.target ⟨0x43110000⟩) = s.cfg.tol ∧
      numLt s.cfg.tol (numAbs (numSub s.lift.target ⟨0x43110000⟩)) = false) ∧
    (∀ p ∈ [(⟨0x43160000⟩ : Num32)], numIsFinite p = true) := by decide

theorem witness_FsmMovesWithTheErrorBand :
    (∃ t, exec (.liftUpdate dtSixteenth) (seekingAt ⟨0x43100000⟩) = .next t) ∧
    (seekingAt ⟨0x43100000⟩).lift.man = .stop ∧
    (∃ t, exec (.liftUpdate dtSixteenth) (setLift { base.lift with man := .up } base) = .next t) ∧
    (setLift { base.lift with man := .up } base).lift.man ≠ .stop :=
  ⟨next_of_isSome (by decide), by decide, next_of_isSome (by decide), by decide⟩

/-- A movement of exactly `2^(CNT_BITS-1)` counts, read as negative (R188), and an accumulator that wraps. -/
theorem witness_EncSampleInFull :
    let s := setEnc { base.enc with acc := -2147483648 } base
    pulseOk s.cfg = true ∧ dtBoundsFinite s.cfg = true ∧ numIsFinite dtSixteenth = true ∧
    32768 < 2 ^ s.cfg.cntBits ∧
    (-(2 ^ s.cfg.cntBits) ≤ 2 * (-32768 : Int) ∧ 2 * (-32768 : Int) < 2 ^ s.cfg.cntBits ∧
      (((32768 : Nat) : Int) - s.enc.cntLast - (-32768)) % 2 ^ s.cfg.cntBits = 0) ∧
    (-(2 ^ s.cfg.accBits) ≤ 2 * (2147450880 : Int) ∧ 2 * (2147450880 : Int) < 2 ^ s.cfg.accBits ∧
      (s.enc.acc + (-32768) - 2147450880) % 2 ^ s.cfg.accBits = 0) := by decide

/-- Movements at both ends of the range, and one just outside it. -/
theorem witness_EncDeltaIsTheTrueMovement :
    0 < Config.defaults.cntBits ∧
    (5 : Nat) = ((((32773 : Nat) : Int) + (-32768)) % 2 ^ Config.defaults.cntBits).toNat ∧
    (4 : Nat) = ((((32773 : Nat) : Int) + 32767) % 2 ^ Config.defaults.cntBits).toNat ∧
    (5 : Nat) = ((((32773 : Nat) : Int) + 32768) % 2 ^ Config.defaults.cntBits).toNat := by decide

theorem witness_TickIrqOnlySetsTheFlag :
    (setSeq { tickFlag := true, tLast := 0 } base).seq.tickFlag = true := by decide

/-- The last timestamp before the wrap, with a delta pending; and an active target to be read. -/
theorem witness_TickServiceSamplesThenUpdates :
    let dt := numMul (i2n (((4294967295 : Nat) : Int) % 2 ^ 32)) ⟨0x358637BD⟩
    let s := setLift { base.lift with pending := true, delta := numOne } base
    (4294967295 < 2 ^ s.cfg.tsBits ∧
      dt = numMul (i2n (((4294967295 : Nat) - s.seq.tLast : Int) % 2 ^ s.cfg.tsBits)) s.cfg.tsUnitS ∧
      (∃ t, exec (.encSample 65535 dt) { s with seq := { s.seq with tLast := 4294967295 } } = .next t) ∧
      s.cfg.tsBits = 32 ∧ s.cfg.tsUnitS = ⟨0x358637BD⟩) ∧
    (pulseOk s.cfg = true ∧ tolOk s.cfg = true ∧ dtBoundsFinite s.cfg = true ∧ s.cfg.cascade = .off ∧
      65535 < 2 ^ s.cfg.cntBits ∧ numIsFinite dt = true ∧
      numIsFinite (encPos s.cfg (encAccum s.cfg s.enc.acc (encDelta s.cfg s.enc.cntLast 65535))) = true ∧
      (s.lift.pending = true → numIsFinite s.lift.delta = true)) ∧
    ((seekingAt numZero).lift.pending = false ∧ (seekingAt numZero).lift.active = true ∧
      (seekingAt numZero).lift.man = .stop ∧ numIsFinite (seekingAt numZero).lift.target = true) :=
  ⟨⟨by decide, by decide, next_of_isSome (by decide), by decide, by decide⟩, by decide, by decide⟩

theorem witness_MainStepTakesAByteBeforeATick :
    (stateInv (withByte 0xFF base) = true ∧
      (withByte 0xFF base).rxq.head ≠ (withByte 0xFF base).rxq.tail) ∧
    (let s := setSeq { tickFlag := true, tLast := 0 } base
     storageOk s.cfg = true ∧ s.rxq.head = s.rxq.tail ∧ s.seq.tickFlag = true) ∧
    (storageOk base.cfg = true ∧ base.rxq.head = base.rxq.tail ∧ base.seq.tickFlag = false) := by decide

/-- Clause by clause; a seek in a cascade mode lacks instance 0, finds it not initialised, lacks instance 1,
finds that one not initialised. -/
theorem witness_OtherRefusals :
    storageOk { base.cfg with frameCap := 13 } = false ∧ storageOk { base.cfg with rxqSize := 1 } = false ∧
    numIsFinite anInf = false ∧ pulseOk { base.cfg with pulsePerMm := some numZero } = false ∧
    (pulseOk base.cfg = true ∧ dtBoundsFinite { base.cfg with dtMin := aNaN } = false ∧
      dtBoundsFinite base.cfg = true ∧ numIsFinite aNaN = false) ∧
    tolOk { base.cfg with tol := ⟨0xBF800000⟩ } = false ∧
    (tolOk base.cfg = true ∧
      (let l := { base.lift with pending := true, delta := anInf }
       l.pending = true ∧ numIsFinite l.delta = false) ∧
      (let l := { base.lift with active := true, target := aNaN }
       l.pending = false ∧ l.active = true ∧ l.man = .stop ∧ numIsFinite l.target = false)) ∧
    (∀ s ∈ [{ cascaded .pos with pid := [] }, { cascaded .pos with pid := [Pid.atReset] },
        { cascaded .posSpd with pid := [pidA] }, { cascaded .posSpd with pid := [pidA, Pid.atReset] }],
      tolOk s.cfg = true ∧ numIsFinite dtSixteenth = true ∧ numIsFinite s.enc.pos = true ∧
      (s.lift.pending = true → numIsFinite s.lift.delta = true) ∧
      (s.lift.pending = false → numIsFinite s.lift.target = true) ∧ s.lift.man = .stop ∧
      (liftSample s).lift.active = true ∧
      numLt s.cfg.tol (numAbs (numSub (liftSample s).lift.target s.enc.pos)) = true ∧
      s.cfg.cascade ≠ .off ∧ dtBoundsFinite s.cfg = true ∧
      numIsFinite (liftSample s).lift.target = true) ∧
    (pidA.inited = true ∧ pidConfigLegal pidA = true ∧ pidAccumulatorsFinite pidA = true ∧
      Pid.atReset.inited = false) := by decide

theorem witness_EveryStepKeepsTheInvariant :
    let s := setSched [.mainPass 0 0] (withByte 0x23 (capturing (litLifter ++ [0x35]) base))
    stateInv s = true ∧ ∃ t, step s = .next t :=
  ⟨by decide, next_of_isSome (by decide)⟩

theorem witness_EveryInstructionKeepsTheInvariant :
    stateInv withPid = true ∧ ∃ t, exec (.liftUpdate dtSixteenth) withPid = .next t :=
  ⟨by decide, next_of_isSome (by decide)⟩

theorem witness_GoodStatesNeverFault : stateInv (capturing [0x41] base) = true := by decide

theorem witness_ParametersNeverChange :
    (∃ t, exec .reset base = .next t) ∧ ∃ t, step (setSched [.tick] base) = .next t :=
  ⟨⟨_, rfl⟩, ⟨_, rfl⟩⟩

/-- The largest finite number, its negation and a divisor of 2^-149; a sum, and a difference, of zero; and the
field split of the least normal number. -/
theorem witness_RoundingGivesTheNearest_operands :
    let big : Num32 := ⟨0x7F7FFFFF⟩
    let small : Num32 := ⟨0x00000001⟩
    (numIsFinite big = true ∧ numIsFinite small = true ∧ numInt big + numInt small ≠ 0 ∧
      numInt big - numInt small ≠ 0 ∧ numInt small ≠ 0 ∧ numIsFinite ⟨0x80000000⟩ = true) ∧
    (numIsFinite (numNeg big) = true ∧ numInt big + numInt (numNeg big) = 0 ∧
      numInt big - numInt big = 0) ∧
    (0 < 2 ^ 23 ∧ numMag ⟨0x00800000⟩ = 1 * 2 ^ 23 + 0 ∧ infMag < 2 ^ 31) := by decide +kernel

/-- 16777217 lies halfway between two numbers (V-ENC-7); V-CFP-19's midpoint is the least value that rounds
out of range. -/
theorem witness_RoundingGivesTheNearest :
    (0 < 1 ∧ roundMag 16777217 1 < infMag ∧ 0x4B800001 < infMag) ∧
    roundMag (2 ^ 128 - 2 ^ 103) 1 = infMag ∧ roundMag (2 ^ 128 - 2 ^ 103 - 1) 1 < infMag := by
  decide +kernel

end Sys2Proof.Tests
end

section
/-! SUPPORT. The finite numbers: their values, their order, and what each operation gives on them. -/

namespace Sys2Proof.Machine

/-! ### The order and the value of finite numbers -/

/-- The value depends on the magnitude field alone, apart from the sign. -/
theorem numUnits_congr {x y : Num32} (h : numMag x = numMag y) : numUnits x = numUnits y := by
  unfold numUnits; rw [h]

theorem numUnits_lt_iff {x y : Num32} : numUnits x < numUnits y ↔ numMag x < numMag y := by
  refine ⟨fun h => ?_, numUnits_lt_of_numMag_lt⟩
  by_contra hge
  rcases (not_lt.1 hge).lt_or_eq with hlt | heq
  · exact absurd h (numUnits_lt_of_numMag_lt hlt).not_gt
  · exact h.ne (numUnits_congr heq.symm)

theorem numUnits_le_of_numMag_le {x y : Num32} (h : numMag x ≤ numMag y) :
    numUnits x ≤ numUnits y :=
  not_lt.1 fun hlt => h.not_gt (numUnits_lt_iff.1 hlt)

theorem numUnits_eq_zero_iff {x : Num32} : numUnits x = 0 ↔ numMag x = 0 := by
  have hz : numUnits numZero = 0 := by decide
  have hm : numMag numZero = 0 := by decide
  have h := numUnits_lt_iff (x := numZero) (y := x)
  rw [hz, hm] at h
  omega

theorem numInt_eq (x : Num32) :
    numInt x = (if numSign x = true then -1 else 1) * (numUnits x : Int) := by
  unfold numInt; split <;> simp

@[simp] theorem natAbs_numInt (x : Num32) : (numInt x).natAbs = numUnits x := by
  unfold numInt; split <;> simp

@[simp] theorem numInt_numNeg (x : Num32) : numInt (numNeg x) = -numInt x := by
  have h := numUnits_congr (numMag_numNeg x)
  unfold numInt; rw [h, numSign_numNeg]; cases numSign x <;> simp

@[simp] theorem numInt_numAbs (x : Num32) : numInt (numAbs x) = |numInt x| := by
  have h := numUnits_congr (numMag_numAbs x)
  rw [Int.abs_eq_natAbs, natAbs_numInt, ← h]; simp [numInt]

/-- The place in the numeric order follows the value. -/
theorem numKey_lt_iff {x y : Num32} : numKey x < numKey y ↔ numInt x < numInt y := by
  have hxy := numUnits_lt_iff (x := x) (y := y)
  have hyx := numUnits_lt_iff (x := y) (y := x)
  have hx := numUnits_eq_zero_iff (x := x)
  have hy := numUnits_eq_zero_iff (x := y)
  unfold numKey numInt
  cases numSign x <;> cases numSign y <;> simp only [if_true, Bool.false_eq_true, if_false] <;> omega

theorem numLt_iff_numInt {x y : Num32} (hx : numIsFinite x = true) (hy : numIsFinite y = true) :
    numLt x y = true ↔ numInt x < numInt y := by
  simp [numLt_iff, notNaN_of_finite hx, notNaN_of_finite hy, numKey_lt_iff]

theorem numLe_iff_numInt {x y : Num32} (hx : numIsFinite x = true) (hy : numIsFinite y = true) :
    numLe x y = true ↔ numInt x ≤ numInt y := by
  have h := numKey_lt_iff (x := y) (y := x)
  simp only [numLe_iff, notNaN_of_finite hx, notNaN_of_finite hy, true_and]
  omega

theorem numEq_iff_numInt {x y : Num32} (hx : numIsFinite x = true) (hy : numIsFinite y = true) :
    numEq x y = true ↔ numInt x = numInt y := by
  have hxy := numKey_lt_iff (x := x) (y := y)
  have hyx := numKey_lt_iff (x := y) (y := x)
  simp only [numEq, notNaN_of_finite hx, notNaN_of_finite hy, Bool.not_false, Bool.true_and,
    decide_eq_true_eq]
  omega

theorem numClamp_of_finite {x lo hi : Num32} (hx : numIsFinite x = true)
    (hlo : numIsFinite lo = true) (hhi : numIsFinite hi = true) :
    numClamp x lo hi =
      if numInt x < numInt lo then lo else if numInt hi < numInt x then hi else x := by
  simp only [numClamp, numLt_iff_numInt hx hlo, numLt_iff_numInt hhi hx]

/-! ### The fields of a number -/

theorem bits_eq_sign_add_mag (x : Num32) :
    x.bits.toNat = (if numSign x = true then 2 ^ 31 else 0) + numMag x := by
  have h := x.bits.isLt
  unfold numSign numMag
  split <;> simp_all <;> omega

/-- The value by exponent field `E` and fraction field `F`. -/
theorem numUnits_of_fields {x : Num32} {E F : Nat} (hF : F < 2 ^ 23)
    (h : numMag x = E * 2 ^ 23 + F) :
    numUnits x = if E = 0 then F else (2 ^ 23 + F) * 2 ^ (E - 1) := by
  unfold numUnits
  rw [show numMag x / 2 ^ 23 = E by omega, show numMag x % 2 ^ 23 = F by omega]

/-- A significand `k` over the exponent field `E`, its leading one added into the field: the value is
`k` quanta, also where a carry has left the significand at `2 ^ 24` and in the subnormal range. -/
theorem numUnits_of_significand {x : Num32} {E k : Nat} (h : numMag x = E * 2 ^ 23 + k)
    (hlow : 0 < E → 2 ^ 23 ≤ k) (hup : k ≤ 2 ^ 24) : numUnits x = k * 2 ^ E := by
  rcases lt_or_ge k (2 ^ 23) with hk | hk
  · obtain rfl : E = 0 := by omega
    simpa using numUnits_of_fields hk h
  · obtain ⟨F, rfl⟩ := Nat.exists_eq_add_of_le hk
    rcases lt_or_ge F (2 ^ 23) with hF | hF
    · rw [numUnits_of_fields (E := E + 1) hF (h.trans (by ring))]
      simp
    · obtain rfl : F = 2 ^ 23 := by omega
      rw [numUnits_of_fields (E := E + 2) (F := 0) (by decide) (h.trans (by ring))]
      simp only [Nat.add_eq_zero_iff, OfNat.ofNat_ne_zero, and_false, if_false]
      rw [show E + 2 - 1 = E + 1 from rfl, pow_succ]
      ring

/-! ### What the operations give on finite operands -/

theorem numMul_of_finite {a b : Num32} (ha : numIsFinite a = true) (hb : numIsFinite b = true) :
    numMul a b = mkNum (numSign a != numSign b)
      (roundMag (numInt a * numInt b).natAbs (2 ^ 149 * 2 ^ 149)) := by
  simp [numMul, notNaN_of_finite ha, notNaN_of_finite hb, notInf_of_finite ha, notInf_of_finite hb,
    Int.natAbs_mul]

theorem numDiv_of_finite {a b : Num32} (ha : numIsFinite a = true) (hb : numIsFinite b = true)
    (h0 : numInt b ≠ 0) :
    numDiv a b = mkNum (numSign a != numSign b)
      (roundMag (numInt a).natAbs (numInt b).natAbs) := by
  have hz : numIsZero b = false := by
    have hu := Int.natAbs_ne_zero.2 h0
    rw [natAbs_numInt, Ne, numUnits_eq_zero_iff] at hu
    simpa [numIsZero] using hu
  simp [numDiv, notNaN_of_finite ha, notNaN_of_finite hb, notInf_of_finite ha, notInf_of_finite hb, hz]

/-- An exact sum that is not zero: its rounded magnitude and its sign. -/
theorem numAdd_of_ne_zero {a b : Num32} (ha : numIsFinite a = true) (hb : numIsFinite b = true)
    (h : numInt a + numInt b ≠ 0) :
    numMag (numAdd a b) = roundMag (numInt a + numInt b).natAbs (2 ^ 149) ∧
      (numSign (numAdd a b) = true ↔ numInt a + numInt b < 0) := by
  rw [numAdd_of_finite ha hb, if_neg h, numMag_mkNum _ (roundMag_lt _ _),
    numSign_mkNum _ (roundMag_lt _ _), decide_eq_true_iff]
  exact ⟨rfl, Iff.rfl⟩

/-- An exact zero sum is negative only where both addends are. -/
theorem numAdd_of_eq_zero {a b : Num32} (ha : numIsFinite a = true) (hb : numIsFinite b = true)
    (h : numInt a + numInt b = 0) :
    numMag (numAdd a b) = 0 ∧ numSign (numAdd a b) = (numSign a && numSign b) := by
  simp [numAdd_of_finite ha hb, h]

end Sys2Proof.Machine
end

section
/-! SUPPORT. The rounding: a significand nearest to the exact quotient in its quantum, hence the nearest
of all finite magnitudes. -/

namespace Sys2Proof.Machine

/-! ### Rounding to the nearest whole number, ties to even -/

/-- `k` is the whole number nearest to `a / b`, the even one of two that are equally near. -/
def IsNearest (k a b : Nat) : Prop :=
  2 * (k * b) ≤ 2 * a + b ∧ 2 * a ≤ 2 * (k * b) + b ∧
    (2 * (k * b) = 2 * a + b ∨ 2 * a = 2 * (k * b) + b → k % 2 = 0)

/-- `roundQuot` rounds to the nearest in its quantum, ties to even. -/
theorem roundQuot_isNearest (n : Nat) {d : Nat} (hd : 0 < d) (q : Int) :
    IsNearest (roundQuot n d q) (n * 2 ^ (-q).toNat) (d * 2 ^ q.toNat) := by
  unfold IsNearest roundQuot
  simp only
  have hb : 0 < d * 2 ^ q.toNat := by positivity
  generalize n * 2 ^ (-q).toNat = a, d * 2 ^ q.toNat = b at hb ⊢
  have hmod := Nat.mod_lt a hb
  have hdiv : a / b * b + a % b = a := Nat.div_add_mod' a b
  split
  · rw [Nat.add_mul, one_mul]; omega
  · omega

/-- Only the ratio matters. -/
theorem IsNearest.mul_right {k a b : Nat} (h : IsNearest k a b) {c : Nat} (hc : 0 < c) :
    IsNearest k (a * c) (b * c) := by
  obtain ⟨h1, h2, h3⟩ := h
  have e1 : 2 * (k * (b * c)) = 2 * (k * b) * c := by ring
  have e2 : 2 * (a * c) = 2 * a * c := by ring
  unfold IsNearest
  simp only [e1, e2, ← Nat.add_mul]
  exact ⟨Nat.mul_le_mul_right c h1, Nat.mul_le_mul_right c h2, fun h =>
    h3 (h.imp (Nat.eq_of_mul_eq_mul_right hc) (Nat.eq_of_mul_eq_mul_right hc))⟩

/-- A whole number at most `a / b` is at most the nearest one. -/
theorem IsNearest.le_of_mul_le {k a b c : Nat} (h : IsNearest k a b) (hb : 0 < b) (hc : c * b ≤ a) :
    c ≤ k := by
  by_contra hlt
  have hk : (k + 1) * b ≤ c * b := Nat.mul_le_mul_right b (by omega)
  rw [Nat.add_mul, one_mul] at hk
  have := h.2.1
  omega

/-- A whole number above `a / b` is at least the nearest one. -/
theorem IsNearest.le_of_lt_mul {k a b c : Nat} (h : IsNearest k a b) (hc : a < c * b) : k ≤ c := by
  by_contra hlt
  have hk : (c + 1) * b ≤ k * b := Nat.mul_le_mul_right b (by omega)
  rw [Nat.add_mul, one_mul] at hk
  have := h.1
  omega

/-- The nearest whole number stays below `c` exactly where twice the ratio stays below `2 * c - 1`, for an
even `c`. -/
theorem IsNearest.lt_iff {k a b c : Nat} (h : IsNearest k a b) (hb : 0 < b) (hc : c % 2 = 0) :
    k < c ↔ 2 * a + b < 2 * (c * b) := by
  obtain ⟨h1, h2, h3⟩ := h
  rcases lt_or_ge k c with hk | hk
  · have hm : (k + 1) * b ≤ c * b := Nat.mul_le_mul_right b hk
    rw [Nat.add_mul, one_mul] at hm
    refine iff_of_true hk (lt_of_le_of_ne (by omega) fun heq => ?_)
    have hkc : (k + 1) * b = c * b := by rw [Nat.add_mul, one_mul]; omega
    have := Nat.eq_of_mul_eq_mul_right hb hkc
    have := h3 (.inr (by omega))
    omega
  · have hm : c * b ≤ k * b := Nat.mul_le_mul_right b hk
    exact iff_of_false hk.not_gt (by omega)

/-- The quantum `2 ^ q` counted in units of `2 ^ -149`: the same ratio with a common factor. -/
theorem quantum_in_units {q : Int} (h : -149 ≤ q) (n d : Nat) :
    ∃ c, 0 < c ∧ n * 2 ^ (-q).toNat * c = n * 2 ^ 149 ∧
      d * 2 ^ q.toNat * c = d * 2 ^ (q + 149).toNat := by
  rcases le_total 0 q with hq | hq
  · refine ⟨2 ^ 149, by positivity, ?_, ?_⟩
    · rw [show (-q).toNat = 0 by omega, pow_zero, mul_one]
    · rw [show (q + 149).toNat = q.toNat + 149 by omega, pow_add, mul_assoc]
  · refine ⟨2 ^ (q + 149).toNat, by positivity, ?_, ?_⟩
    · rw [mul_assoc, ← pow_add, show (-q).toNat + (q + 149).toNat = 149 by omega]
    · rw [show q.toNat = 0 by omega, pow_zero, mul_one]

/-- `d * 2 ^ q * k ≤ n` counted in units of `2 ^ -149`. -/
theorem mul_quantum_le {n d k : Nat} {q : Int} (hq : -149 ≤ q) (h : (d : ℚ) * 2 ^ q * k ≤ n) :
    k * (d * 2 ^ (q + 149).toNat) ≤ n * 2 ^ 149 := by
  obtain ⟨c, hc, hn, hd⟩ := quantum_in_units hq n d
  have hraw : ¬ n * 2 ^ (-q).toNat < d * k * 2 ^ q.toNat := by
    rw [pow_lt_iff, not_lt]; push_cast; linarith
  rw [← hn, ← hd]
  calc k * (d * 2 ^ q.toNat * c) = d * k * 2 ^ q.toNat * c := by ring
    _ ≤ n * 2 ^ (-q).toNat * c := Nat.mul_le_mul_right c (not_lt.1 hraw)

/-- `n < d * 2 ^ q * k` counted in units of `2 ^ -149`. -/
theorem lt_mul_quantum {n d k : Nat} {q : Int} (hq : -149 ≤ q) (h : (n : ℚ) < d * 2 ^ q * k) :
    n * 2 ^ 149 < k * (d * 2 ^ (q + 149).toNat) := by
  obtain ⟨c, hc, hn, hd⟩ := quantum_in_units hq n d
  have hraw : n * 2 ^ (-q).toNat < d * k * 2 ^ q.toNat := by
    rw [pow_lt_iff]; push_cast; linarith
  rw [← hn, ← hd]
  calc n * 2 ^ (-q).toNat * c < d * k * 2 ^ q.toNat * c := Nat.mul_lt_mul_of_pos_right hraw hc
    _ = k * (d * 2 ^ q.toNat * c) := by ring

/-- What `roundMag` is on a positive rational: an exponent field `E` and the significand `k` nearest to
`n / d` in the quantum of `E`, where `n / d` has its leading one at that exponent, except below the normal
range (`E = 0`) and out of range (`E = 254`). -/
theorem roundMag_spec {n d : Nat} (hn : n ≠ 0) (hd : 0 < d) :
    ∃ E k, roundMag n d = min (E * 2 ^ 23 + k) infMag ∧ E ≤ 254 ∧
      IsNearest k (n * 2 ^ 149) (d * 2 ^ E) ∧
      (0 < E → 2 ^ 23 * (d * 2 ^ E) ≤ n * 2 ^ 149) ∧
      (E < 254 → n * 2 ^ 149 < 2 ^ 24 * (d * 2 ^ E)) := by
  obtain ⟨hmin, hmax, hlt, hge⟩ := ratExp_spec hn hd
  have hE : (ratExp n d - 23 + 149).toNat = (ratExp n d + 126).toNat := by omega
  refine ⟨(ratExp n d + 126).toNat, roundQuot n d (ratExp n d - 23), by simp [roundMag, hn], by omega,
    ?_, fun hpos => ?_, fun hlow => ?_⟩
  · obtain ⟨c, hc, hnc, hdc⟩ := quantum_in_units (q := ratExp n d - 23) (by omega) n d
    rw [← hE, ← hnc, ← hdc]
    exact (roundQuot_isNearest n hd _).mul_right hc
  · rw [← hE]
    refine mul_quantum_le (by omega) ?_
    calc (d : ℚ) * 2 ^ (ratExp n d - 23) * ((2 ^ 23 : Nat) : ℚ) = d * 2 ^ ratExp n d := by
          rw [zpow_sub₀ (by norm_num)]; push_cast; field_simp
      _ ≤ n := hge (by omega)
  · rw [← hE]
    refine lt_mul_quantum (by omega) ?_
    calc (n : ℚ) < d * 2 ^ (ratExp n d + 1) := hlt (by omega)
      _ = d * 2 ^ (ratExp n d - 23) * ((2 ^ 24 : Nat) : ℚ) := by
          rw [show ratExp n d + 1 = (ratExp n d - 23) + 24 by ring, zpow_add₀ (by norm_num)]
          push_cast; rw [mul_assoc]

theorem roundMag_zero (d : Nat) : roundMag 0 d = 0 := rfl

/-- The rounding stays finite exactly below `2 ^ 128 - 2 ^ 103`. -/
theorem roundMag_lt_infMag_iff {n d : Nat} (hd : 0 < d) :
    roundMag n d < infMag ↔ n < d * (2 ^ 128 - 2 ^ 103) := by
  rcases eq_or_ne n 0 with rfl | hn
  · rw [roundMag_zero]; exact iff_of_true (by decide) (by positivity)
  obtain ⟨E, k, hr, hE, hk, hlow, hup⟩ := roundMag_spec hn hd
  have hinf : infMag = 255 * 2 ^ 23 := by decide
  have hpos : 0 < d * 2 ^ E := by positivity
  rw [hr, min_lt_iff, or_iff_left (lt_irrefl _), hinf]
  rcases lt_trichotomy E 253 with hlt | rfl | hgt
  · have hk24 := hk.le_of_lt_mul (hup (by omega))
    have hmag : E * 2 ^ 23 + k < 255 * 2 ^ 23 := by omega
    have hpow : d * 2 ^ E ≤ d * 2 ^ 252 :=
      Nat.mul_le_mul_left d (Nat.pow_le_pow_right (by decide) (by omega))
    have := hup (by omega)
    exact iff_of_true hmag (by omega)
  · have := hk.lt_iff hpos (c := 2 ^ 24) (by decide)
    omega
  · obtain rfl : E = 254 := by omega
    have hk23 := hk.le_of_mul_le hpos (hlow (by decide))
    have := hlow (by decide)
    exact iff_of_false (by omega) (by omega)

/-! ### The rounded magnitude is the nearest -/

/-- What a finite rounding of a positive rational is: `k` quanta over the exponent field `E`, `k` nearest to
the exact quotient, with its leading one in place in the normal range. -/
theorem roundMag_of_finite {n d : Nat} (hn : n ≠ 0) (hd : 0 < d) (hfin : roundMag n d < infMag) :
    ∃ E k, roundMag n d = E * 2 ^ 23 + k ∧ IsNearest k (n * 2 ^ 149) (d * 2 ^ E) ∧
      (0 < E → 2 ^ 23 ≤ k) ∧ k ≤ 2 ^ 24 ∧ (0 < E → 2 ^ 23 * (d * 2 ^ E) ≤ n * 2 ^ 149) := by
  obtain ⟨E, k, hr, hE, hk, hlow, hup⟩ := roundMag_spec hn hd
  have hpos : 0 < d * 2 ^ E := by positivity
  have hinf : infMag = 255 * 2 ^ 23 := by decide
  have hk23 (h : 0 < E) : 2 ^ 23 ≤ k := hk.le_of_mul_le hpos (hlow h)
  have hE254 : E < 254 := by
    by_contra h
    have := hk23 (by omega)
    omega
  exact ⟨E, k, by omega, hk, hk23, hk.le_of_lt_mul (hup hE254), hlow⟩

/-- A magnitude above `k` quanta is a quantum or more above. -/
theorem succ_mul_quantum_le_numUnits {y : Num32} {E k : Nat} (hlow : 0 < E → 2 ^ 23 ≤ k)
    (hup : k ≤ 2 ^ 24) (hfin : E * 2 ^ 23 + k < infMag) (h : E * 2 ^ 23 + k < numMag y) :
    (k + 1) * 2 ^ E ≤ numUnits y := by
  have hnext : numMag (mkNum false (E * 2 ^ 23 + k + 1)) = E * 2 ^ 23 + k + 1 :=
    numMag_mkNum _ (lt_of_le_of_lt (Nat.succ_le_of_lt hfin) infMag_lt)
  refine le_trans ?_ (numUnits_le_of_numMag_le (x := mkNum false (E * 2 ^ 23 + k + 1)) (by omega))
  rcases hup.lt_or_eq with hlt | rfl
  · rw [numUnits_of_significand (hnext.trans (Nat.add_assoc _ k 1))
      (fun hE => Nat.le_succ_of_le (hlow hE)) hlt]
  · rw [numUnits_of_significand (E := E + 1) (k := 2 ^ 23 + 1) (hnext.trans (by ring)) (by simp)
      (by decide), pow_succ]
    have : 0 < 2 ^ E := by positivity
    omega

/-- A magnitude below `k` quanta is a quantum or more below, unless `k` is the power of two at which the
quantum changes. -/
theorem numUnits_add_quantum_le {y : Num32} {E k : Nat} (hlow : 0 < E → 2 ^ 23 < k)
    (hup : k ≤ 2 ^ 24) (hfin : E * 2 ^ 23 + k < infMag) (h : numMag y < E * 2 ^ 23 + k) :
    numUnits y + 2 ^ E ≤ k * 2 ^ E := by
  obtain ⟨j, rfl⟩ : ∃ j, k = j + 1 := by
    refine ⟨k - 1, ?_⟩
    by_cases hE : 0 < E
    · have := hlow hE; omega
    · omega
  have hprev : numMag (mkNum false (E * 2 ^ 23 + j)) = E * 2 ^ 23 + j :=
    numMag_mkNum _ (by have := infMag_lt; omega)
  have hle := numUnits_le_of_numMag_le (x := y) (y := mkNum false (E * 2 ^ 23 + j)) (by omega)
  rw [numUnits_of_significand hprev (fun hE => Nat.le_of_lt_succ (hlow hE)) (by omega)] at hle
  rw [Nat.succ_mul]
  exact Nat.add_le_add_right hle _

/-- A value a quantum or more above the nearest is no nearer, and as near only across a tie. -/
theorem IsNearest.dist_above {k N D v : Nat} (h : IsNearest k N D) (hv : k * D + D ≤ v) :
    (((k * D : Nat) : Int) - N).natAbs ≤ ((v : Int) - N).natAbs ∧
      ((((k * D : Nat) : Int) - N).natAbs = ((v : Int) - N).natAbs → D = 0 ∨ k % 2 = 0) := by
  obtain ⟨h1, h2, h3⟩ := h
  generalize k * D = u at *
  omega

/-- A value a quantum or more below the nearest is no nearer, and as near only across a tie. -/
theorem IsNearest.dist_below {k N D v : Nat} (h : IsNearest k N D) (hv : v + D ≤ k * D) :
    (((k * D : Nat) : Int) - N).natAbs ≤ ((v : Int) - N).natAbs ∧
      ((((k * D : Nat) : Int) - N).natAbs = ((v : Int) - N).natAbs → D = 0 ∨ k % 2 = 0) := by
  obtain ⟨h1, h2, h3⟩ := h
  generalize k * D = u at *
  omega

/-- No finite magnitude is nearer to `n / d` than its rounding, and where one is as near it is the rounding
itself or the rounding has an even significand. -/
theorem roundMag_isNearest {n d m : Nat} (hd : 0 < d) (hfin : roundMag n d < infMag) (hm : m < infMag) :
    ((numUnits (mkNum false (roundMag n d)) : Int) * d - n * 2 ^ 149).natAbs ≤
      ((numUnits (mkNum false m) : Int) * d - n * 2 ^ 149).natAbs ∧
    (((numUnits (mkNum false (roundMag n d)) : Int) * d - n * 2 ^ 149).natAbs =
      ((numUnits (mkNum false m) : Int) * d - n * 2 ^ 149).natAbs →
      m = roundMag n d ∨ roundMag n d % 2 = 0) := by
  rcases eq_or_ne n 0 with rfl | hn
  · have h0 : numUnits (mkNum false 0) = 0 := by decide
    simp [roundMag_zero, h0]
  obtain ⟨E, k, hr, hk, hk23, hk24, hlow⟩ := roundMag_of_finite hn hd hfin
  have hD : d * 2 ^ E ≠ 0 := by positivity
  have hrr : numMag (mkNum false (roundMag n d)) = roundMag n d := numMag_mkNum _ (roundMag_lt n d)
  have hmm : numMag (mkNum false m) = m := numMag_mkNum _ (hm.trans infMag_lt)
  have hu : numUnits (mkNum false (roundMag n d)) * d = k * (d * 2 ^ E) := by
    rw [numUnits_of_significand (hrr.trans hr) hk23 hk24]; ring
  have heven : k % 2 = 0 → roundMag n d % 2 = 0 := by omega
  rw [show (n : Int) * 2 ^ 149 = ((n * 2 ^ 149 : Nat) : Int) by push_cast; ring, ← Nat.cast_mul,
    ← Nat.cast_mul, hu]
  generalize n * 2 ^ 149 = N at hk hlow ⊢
  rcases lt_trichotomy m (roundMag n d) with hlt | heq | hgt
  · by_cases hedge : 0 < E ∧ k = 2 ^ 23
    · have hN : k * (d * 2 ^ E) ≤ N := hedge.2 ▸ hlow hedge.1
      have hv : numUnits (mkNum false m) * d < k * (d * 2 ^ E) := by
        rw [← hu]
        exact Nat.mul_lt_mul_of_pos_right (numUnits_lt_of_numMag_lt (by rwa [hmm, hrr])) hd
      omega
    · have hq := numUnits_add_quantum_le (y := mkNum false m) (E := E) (k := k)
        (fun hE => (hk23 hE).lt_of_ne fun h => hedge ⟨hE, h.symm⟩) hk24 (hr ▸ hfin) (by omega)
      have hv := Nat.mul_le_mul_right d hq
      rw [Nat.add_mul] at hv
      obtain ⟨hle, htie⟩ := hk.dist_below (v := numUnits (mkNum false m) * d) (by linarith)
      exact ⟨hle, fun h => .inr (heven ((htie h).resolve_left hD))⟩
  · rw [heq, hu]; simp
  · have hq := succ_mul_quantum_le_numUnits (y := mkNum false m) hk23 hk24 (hr ▸ hfin) (by omega)
    have hv := Nat.mul_le_mul_right d hq
    obtain ⟨hle, htie⟩ := hk.dist_above (v := numUnits (mkNum false m) * d) (by linarith)
    exact ⟨hle, fun h => .inr (heven ((htie h).resolve_left hD))⟩

end Sys2Proof.Machine
end

section
/-! SUPPORT. What each instruction runs: the meaning of its arm. -/

namespace Sys2Proof.Machine

@[simp] theorem exec_legStop (s : State) : exec .legStop s = finish (consumeByte opStop s) := rfl

@[simp] theorem exec_legUp (s : State) : exec .legUp s = finish (consumeByte opUp s) := rfl

@[simp] theorem exec_legDown (s : State) : exec .legDown s = finish (consumeByte opDown s) := rfl

@[simp] theorem exec_sof (s : State) : exec .sof s = finish (consumeByte chSof s) := rfl

@[simp] theorem exec_eof (s : State) : exec .eof s = finish (consumeByte chEof s) := rfl

@[simp] theorem exec_fLifter (bs : List Byte) (s : State) :
    exec (.fLifter bs) s = finish (consumeBytes (frameBytes (litLifter ++ bs)) s) := rfl

@[simp] theorem exec_fGripOpen (bs : List Byte) (s : State) :
    exec (.fGripOpen bs) s = finish (consumeBytes (frameBytes (litGripOpen ++ bs)) s) := rfl

@[simp] theorem exec_fGripClose (bs : List Byte) (s : State) :
    exec (.fGripClose bs) s = finish (consumeBytes (frameBytes (litGripClose ++ bs)) s) := rfl

@[simp] theorem exec_fGripPos (bs : List Byte) (s : State) :
    exec (.fGripPos bs) s = finish (consumeBytes (frameBytes (litGripPos ++ bs)) s) := rfl

@[simp] theorem exec_rxqPush (b : Byte) (s : State) : exec (.rxqPush b) s = finish (pushByte b s) := rfl

@[simp] theorem exec_rxqPop (s : State) :
    exec .rxqPop s = finish (andThen (popByte s) fun p => .ok (setRet (.byte p.1) p.2)) := rfl

@[simp] theorem exec_cfpFeed (b : Byte) (s : State) :
    exec (.cfpFeed b) s = finish (andThen (feedByte b s) fun p => .ok (setRet (.command p.1) p.2)) := rfl

@[simp] theorem exec_cmdDispatch (c : Command) (s : State) :
    exec (.cmdDispatch c) s = finish (dispatchCommand c s) := rfl

@[simp] theorem exec_cmdLiftSetDelta (v : Num32) (s : State) :
    exec (.cmdLiftSetDelta v) s = finish (liftSetDelta v s) := rfl

@[simp] theorem exec_liftUpdate (dt : Num32) (s : State) :
    exec (.liftUpdate dt) s = finish (liftUpdate dt s) := rfl

@[simp] theorem exec_encSample (cnt : Nat) (dt : Num32) (s : State) :
    exec (.encSample cnt dt) s = finish (encSample cnt dt s) := rfl

@[simp] theorem exec_mainStep (now cnt : Nat) (s : State) :
    exec (.mainStep now cnt) s = finish (mainStep now cnt s) := rfl

@[simp] theorem exec_tickService (now cnt : Nat) (s : State) :
    exec (.tickService now cnt) s = finish (tickService now cnt s) := rfl

@[simp] theorem exec_pidInit (who : Invoker) (i : Nat) (kp ki kd ol il al it dz : Num32) (s : State) :
    exec (.pidInit who i kp ki kd ol il al it dz) s =
      finish (refuseUnless (hasPid i s) .pidNoSuchInstance <|
        refuseUnless (mayInvoke who s.cfg.cascade i) .pidOwnedByLift <|
        andThen (pidInit kp ki kd ol il al it dz) fun p => .ok (setPid i p s)) := rfl

@[simp] theorem exec_pidCalc (i : Nat) (t m dt : Num32) (s : State) :
    exec (.pidCalc i t m dt) s =
      finish (refuseUnless (hasPid i s) .pidNoSuchInstance <|
        refuseUnless (mayInvoke .client s.cfg.cascade i) .pidOwnedByLift <|
        andThen (pidCalc s.cfg (getPid i s) t m dt) fun r =>
          .ok (setRet (.num r.1) (setPid i r.2 s))) := rfl

end Sys2Proof.Machine
end

section
/-! SUPPORT. Where the operations stop, and the lift update on its sample. -/

namespace Sys2Proof.Machine

/-! ### Where the PID layer stops -/

theorem hasPid_eq_false_iff {i : Nat} {s : State} : hasPid i s = false ↔ s.pid.length ≤ i := by
  simp [hasPid]

theorem mayInvoke_client (c : Cascade) (i : Nat) : mayInvoke .client c i = !ownedByLift c i := rfl

theorem mayInvoke_of_owner_or_free {who : Invoker} {c : Cascade} {i : Nat}
    (h : who = .owner ∨ ownedByLift c i = false) : mayInvoke who c i = true := by
  cases who with
  | owner => rfl
  | client => simpa [mayInvoke] using h

/-- R111: LIFT owns `PID_POS` in both cascade modes and `PID_SPD` in `POS_SPD`. -/
theorem ownedByLift_iff {c : Cascade} {i : Nat} :
    ownedByLift c i = true ↔ (c = .pos ∧ i = 0) ∨ (c = .posSpd ∧ (i = 0 ∨ i = 1)) := by
  cases c <;> simp [ownedByLift]

/-- A configuration step by an invoker that may make it stops where `PID_INIT` itself does. -/
theorem exec_pidInit_of_allowed {who : Invoker} {i : Nat} {kp ki kd ol il al it dz : Num32} {s : State}
    {r : Refusal} (hi : i < s.pid.length) (hw : who = .owner ∨ ownedByLift s.cfg.cascade i = false)
    (h : pidInit kp ki kd ol il al it dz = .error (.refused r)) :
    exec (.pidInit who i kp ki kd ol il al it dz) s = .refused r := by
  simp [hasPid_iff.2 hi, mayInvoke_of_owner_or_free hw, h]

/-- A client's computation on a PID that is its to use stops where `PID_CALC` itself does. -/
theorem exec_pidCalc_of_allowed {i : Nat} {t m dt : Num32} {s : State} {r : Refusal}
    (hi : i < s.pid.length) (ho : ownedByLift s.cfg.cascade i = false)
    (h : pidCalc s.cfg (getPid i s) t m dt = .error (.refused r)) :
    exec (.pidCalc i t m dt) s = .refused r := by
  simp [hasPid_iff.2 hi, mayInvoke_client, ho, h]

/-- U2: `PID_CALC` stops first on a PID never initialised. -/
theorem pidCalc_uninitialised {cfg : Params} {p : Pid} {t m dt : Num32} (h : p.inited = false) :
    pidCalc cfg p t m dt = .error (.refused .pidUninitialised) := by
  simp [pidCalc, h]

/-! ### The lift update on its sample -/

@[simp] theorem convertTarget_pos (l : Lift) : (convertTarget l).pos = l.pos := by
  unfold convertTarget; split <;> rfl

@[simp] theorem convertTarget_man (l : Lift) : (convertTarget l).man = l.man := by
  unfold convertTarget; split <;> rfl

@[simp] theorem liftSample_cfg (s : State) : (liftSample s).cfg = s.cfg := rfl
@[simp] theorem liftSample_pid (s : State) : (liftSample s).pid = s.pid := rfl
@[simp] theorem liftSample_enc (s : State) : (liftSample s).enc = s.enc := rfl
@[simp] theorem getPid_liftSample (i : Nat) (s : State) : getPid i (liftSample s) = getPid i s := rfl
@[simp] theorem hasPid_liftSample (i : Nat) (s : State) : hasPid i (liftSample s) = hasPid i s := rfl
@[simp] theorem liftSample_pos (s : State) : (liftSample s).lift.pos = s.enc.pos := by simp [liftSample]
@[simp] theorem liftSample_man (s : State) : (liftSample s).lift.man = s.lift.man := by
  simp [liftSample]

/-- With legal inputs an update is its decision on the sampled state. -/
theorem liftUpdate_of_legal {dt : Num32} {s : State} (ht : tolOk s.cfg = true)
    (hf : liftInputsFinite dt s = true) : liftUpdate dt s = liftDecide dt (liftSample s) := by
  simp [liftUpdate, ht, hf]

/-- R147: a commanded direction decides the tick by itself. -/
theorem liftDecide_manual {dt : Num32} {s : State} {d : Dir}
    (h : dirOf s.cfg.dirMap s.lift.man = some d) :
    liftDecide dt s = .ok (emit (.actDir d) s) := by
  simp [liftDecide, h]

/-- R148: without a commanded direction, an active target beyond the band is sought. -/
theorem liftDecide_seek {dt : Num32} {s : State} (hm : s.lift.man = .stop) (ha : s.lift.active = true)
    (hb : numLt s.cfg.tol (numAbs (liftError s.lift)) = true) :
    liftDecide dt s = liftSeek (liftError s.lift) dt s := by
  simp [liftDecide, dirOf, hm, ha, hb]

/-- A tick with a commanded direction and legal inputs emits that direction in the sampled state. -/
theorem exec_liftUpdate_manual {dt : Num32} {s : State} {d : Dir} (ht : tolOk s.cfg = true)
    (hf : liftInputsFinite dt s = true) (h : dirOf s.cfg.dirMap s.lift.man = some d) :
    exec (.liftUpdate dt) s = .next (emit (.actDir d) (liftSample s)) := by
  rw [exec_liftUpdate, liftUpdate_of_legal ht hf, liftDecide_manual (by simpa using h), finish_ok]

/-! ### Where the other operations stop -/

section IllegalStorage

variable {s : State} (h : storageOk s.cfg = false)
include h

theorem pushByte_storageIllegal (b : Byte) : pushByte b s = .error (.refused .storageIllegal) := by
  simp [pushByte, h]

theorem popByte_storageIllegal : popByte s = .error (.refused .storageIllegal) := by
  simp [popByte, h]

theorem feedByte_storageIllegal (b : Byte) : feedByte b s = .error (.refused .storageIllegal) := by
  simp [feedByte, h]

theorem consumeByte_storageIllegal (b : Byte) :
    consumeByte b s = .error (.refused .storageIllegal) := by
  simp [consumeByte, feedByte_storageIllegal h]

/-- A frame stops at its start delimiter. -/
theorem consumeBytes_frame_storageIllegal (body : List Byte) :
    consumeBytes (frameBytes body) s = .error (.refused .storageIllegal) := by
  simp [frameBytes, consumeByte_storageIllegal h]

theorem mainStep_storageIllegal (now cnt : Nat) :
    mainStep now cnt s = .error (.refused .storageIllegal) := by
  simp [mainStep, popByte_storageIllegal h]

end IllegalStorage

theorem liftSetDelta_nonFinite {v : Num32} (h : numIsFinite v = false) (s : State) :
    liftSetDelta v s = .error (.refused .nonFiniteOperand) := by
  simp [liftSetDelta, h]

theorem encSample_pulseIllegal {s : State} (h : pulseOk s.cfg = false) (cnt : Nat) (dt : Num32) :
    encSample cnt dt s = .error (.refused .pulseScaleIllegal) := by
  simp [encSample, h]

theorem encSample_boundsNotFinite {s : State} (hp : pulseOk s.cfg = true)
    (hb : dtBoundsFinite s.cfg = false) (cnt : Nat) (dt : Num32) :
    encSample cnt dt s = .error (.refused .parametersNotFinite) := by
  simp [encSample, hp, hb]

/-- A tick service stops where its sample does. -/
theorem tickService_of_encSample_error {now cnt : Nat} {s : State} {e : Stop}
    (h : ∀ dt q, encSample cnt dt (setSeq q s) = .error e) :
    tickService now cnt s = .error e := by
  simp [tickService, h]

theorem liftPid_noSuchInstance {i : Nat} {s : State} (h : s.pid.length ≤ i) (t m dt : Num32) :
    liftPid i t m dt s = .error (.refused .pidNoSuchInstance) := by
  simp [liftPid, hasPid_eq_false_iff.2 h]

theorem liftPid_uninitialised {i : Nat} {s : State} (hi : i < s.pid.length)
    (h : (getPid i s).inited = false) (t m dt : Num32) :
    liftPid i t m dt s = .error (.refused .pidUninitialised) := by
  simp [liftPid, hasPid_iff.2 hi, pidCalc_uninitialised h]

/-- Where its preconditions hold, LIFT's invocation gives the stages' result and commits it. -/
theorem liftPid_of_legal {i : Nat} {t m dt : Num32} {s : State} (hi : i < s.pid.length)
    (hn : (getPid i s).inited = true) (hc : pidConfigLegal (getPid i s) = true)
    (hb : dtBoundsFinite s.cfg = true)
    (hf : numIsFinite t = true ∧ numIsFinite m = true ∧ numIsFinite dt = true)
    (ha : pidAccumulatorsFinite (getPid i s) = true) :
    liftPid i t m dt s = .ok ((pidStages s.cfg (getPid i s) t m dt).1,
      setPid i (pidStages s.cfg (getPid i s) t m dt).2 s) :=
  liftPid_eq_ok.2 ⟨hasPid_iff.2 hi, _, pidCalc_eq_ok.2 ⟨hn, hc, hb, hf, ha, rfl⟩, rfl⟩

/-- In a cascade mode a seek stops where the position loop does (R149). -/
theorem seek_of_position_error {err dt : Num32} {s : State} {e : Stop} (hc : s.cfg.cascade ≠ .off)
    (h : liftPid pidPos s.lift.target s.lift.pos dt s = .error e) : seek err dt s = .error e := by
  unfold seek
  cases hm : s.cfg.cascade with
  | off => exact absurd hm hc
  | pos => simp [h]
  | posSpd => simp [h]

/-- In `POS_SPD` a seek whose position loop has a result stops where the speed loop does (R149). -/
theorem seek_of_speed_error {err dt : Num32} {s : State} {e : Stop} {r : Num32 × State}
    (hc : s.cfg.cascade = .posSpd) (hr : liftPid pidPos s.lift.target s.lift.pos dt s = .ok r)
    (h : liftPid pidSpd r.1 s.enc.spd dt r.2 = .error e) : seek err dt s = .error e := by
  simp [seek, hc, hr, h]

/-- A legal tick that seeks is refused where its seek is. -/
theorem exec_liftUpdate_seek_refused {dt : Num32} {s : State} {r : Refusal} (ht : tolOk s.cfg = true)
    (hf : liftInputsFinite dt s = true) (hm : s.lift.man = .stop)
    (ha : (liftSample s).lift.active = true)
    (hb : numLt s.cfg.tol (numAbs (numSub (liftSample s).lift.target s.enc.pos)) = true)
    (h : ∀ err, seek err dt (fsmEval true (liftSample s)) = .error (.refused r)) :
    exec (.liftUpdate dt) s = .refused r := by
  have hb' : numLt (liftSample s).cfg.tol (numAbs (liftError (liftSample s).lift)) = true := by
    simpa [liftError] using hb
  rw [exec_liftUpdate, liftUpdate_of_legal ht hf, liftDecide_seek (by simpa using hm) ha hb', liftSeek,
    h, andThen_error, finish_refused]

end Sys2Proof.Machine
end

section
/-! The settled statements of the scope. -/

namespace Sys2Proof.Machine

/-- Settles O60, clause by clause from the laws of the fields, of the operations and of the rounding. -/
theorem roundingGivesTheNearest : Obligations.RoundingGivesTheNearest := by
  refine ⟨⟨rfl, rfl, by decide, by decide, fun neg m hm => ⟨numSign_mkNum neg hm, numMag_mkNum neg hm⟩⟩,
    fun x => ⟨bits_eq_sign_add_mag x, numMag_lt x, decide_eq_true_iff, decide_eq_true_iff, numInt_eq x,
      fun E F hF h => numUnits_of_fields hF h⟩,
    fun a b ha hb => ?_, fun k => ?_,
    fun n d hd => ⟨roundMag_lt_infMag_iff hd, roundMag_le n d⟩,
    fun n d m hd hfin hm => roundMag_isNearest hd hfin hm⟩
  · have hnb : numIsFinite (numNeg b) = true := by simpa using hb
    refine ⟨numAdd_of_ne_zero ha hb, numAdd_of_eq_zero ha hb, fun h => ?_, fun h => ?_, ?_, fun h => ?_,
      ⟨numMag_numNeg a, numSign_numNeg a, numInt_numNeg a⟩,
      ⟨numMag_numAbs a, numSign_numAbs a, numInt_numAbs a⟩,
      numLt_iff_numInt ha hb, numLe_iff_numInt ha hb, numEq_iff_numInt ha hb,
      fun x hx => numClamp_of_finite hx ha hb⟩
    · have := numAdd_of_ne_zero ha hnb (by rwa [numInt_numNeg, ← sub_eq_add_neg])
      rwa [numInt_numNeg, ← sub_eq_add_neg] at this
    · have := numAdd_of_eq_zero ha hnb (by rwa [numInt_numNeg, ← sub_eq_add_neg])
      rwa [numSign_numNeg] at this
    · rw [numMul_of_finite ha hb]
      exact ⟨numMag_mkNum _ (roundMag_lt _ _), numSign_mkNum _ (roundMag_lt _ _)⟩
    · rw [numDiv_of_finite ha hb h]
      exact ⟨numMag_mkNum _ (roundMag_lt _ _), numSign_mkNum _ (roundMag_lt _ _)⟩
  · rw [i2n, numMag_mkNum _ (roundMag_lt _ _), numSign_mkNum _ (roundMag_lt _ _), decide_eq_true_iff]
    exact ⟨rfl, Iff.rfl⟩

/-- Settles O31: the conditions by their definitions, then the checks in the order the operations make
them. -/
theorem pidRefusals : Obligations.PidRefusals := by
  refine ⟨fun kp ki kd ol il al it dz => ⟨?_, ?_⟩, fun p => ⟨?_, ?_⟩, fun c i => ownedByLift_iff,
    fun s who i kp ki kd ol il al it dz t m dt => ⟨fun hi => ?_, fun hi ho => ?_,
      fun hi hw => ⟨fun hf => exec_pidInit_of_allowed hi hw ?_,
        fun hf hr => exec_pidInit_of_allowed hi hw ?_⟩,
      fun hi ho hn => exec_pidCalc_of_allowed hi ho (pidCalc_uninitialised hn),
      fun hi ho hn => ⟨fun hc => exec_pidCalc_of_allowed hi ho ?_,
        fun hc hb => exec_pidCalc_of_allowed hi ho ?_,
        fun hc hb hf => exec_pidCalc_of_allowed hi ho ?_,
        fun hc hb hf ha => exec_pidCalc_of_allowed hi ho ?_⟩⟩⟩
  · simp [pidOperandsFinite, and_assoc]
  · simp [pidRangesLegal, and_assoc]
  · simp [pidConfigLegal]
  · simp [pidAccumulatorsFinite, and_assoc]
  · have hno := hasPid_eq_false_iff.2 hi
    exact ⟨by simp [hno], by simp [hno]⟩
  · have hyes := hasPid_iff.2 hi
    exact ⟨by simp [hyes, mayInvoke_client, ho], by simp [hyes, mayInvoke_client, ho]⟩
  · simp [pidInit, hf]
  · simp [pidInit, hf, hr]
  · simp [pidCalc, hn, hc]
  · simp [pidCalc, hn, hc, hb]
  · simp [pidCalc, hn, hc, hb, hf]
  · simp [pidCalc, hn, hc, hb, hf, ha]

/-- Settles O38: the inputs are legal whatever the target is, and the direction is `DIR_MAP`'s. -/
theorem manualOverrideIgnoresTheTarget : Obligations.ManualOverrideIgnoresTheTarget := by
  intro s dt ht hdt hpos hdelta
  have hf (hm : s.lift.man ≠ .stop) : liftInputsFinite dt s = true :=
    liftInputsFinite_iff.2 ⟨hdt, hpos, hdelta, fun _ _ h => absurd h hm⟩
  refine ⟨fun hm => exec_liftUpdate_manual ht (hf (by simp [hm])) ?_,
    fun hm => exec_liftUpdate_manual ht (hf (by simp [hm])) ?_⟩
  all_goals rw [hm]; cases s.cfg.dirMap <;> rfl

/-- Settles O53: the parameters by their definitions, then each operation at the check it fails. -/
theorem otherRefusals : Obligations.OtherRefusals := by
  refine ⟨fun cfg => ⟨by simp [storageOk], rfl, by simp [tolOk], by simp [dtBoundsFinite],
      by simp [pulseOk], fun p hp => by simp [pulsePerMm, hp]⟩,
    fun s b v dt now cnt operand => ⟨fun hs => ?_, fun hv => ?_, fun hp => ?_, fun hp hb => ?_,
      fun hp hb hf => ?_, fun ht => ?_, fun ht hbad => ?_, fun ht hdt hpos hdelta htarget hm ha hb => ?_⟩⟩
  · simp [pushByte_storageIllegal hs, popByte_storageIllegal hs, feedByte_storageIllegal hs,
      mainStep_storageIllegal hs, consumeByte_storageIllegal hs, consumeBytes_frame_storageIllegal hs]
  · exact ⟨by simp [liftSetDelta_nonFinite hv], by simp [dispatchCommand, liftSetDelta_nonFinite hv]⟩
  · refine ⟨by simp [encSample_pulseIllegal hp], ?_⟩
    rw [exec_tickService,
      tickService_of_encSample_error fun _ _ => encSample_pulseIllegal (by simpa using hp) _ _,
      finish_refused]
  · refine ⟨by simp [encSample_boundsNotFinite hp hb], ?_⟩
    rw [exec_tickService, tickService_of_encSample_error fun _ _ =>
        encSample_boundsNotFinite (by simpa using hp) (by simpa using hb) _ _,
      finish_refused]
  · simp [encSample, hp, hb, hf]
  · simp [liftUpdate, ht]
  · have hf : liftInputsFinite dt s = false := by
      rw [Bool.eq_false_iff, Ne, liftInputsFinite_iff]
      rintro ⟨h1, h2, h3, h4⟩
      rcases hbad with h | h | ⟨hp, h⟩ | ⟨hp, hact, hman, h⟩
      · simp [h1] at h
      · simp [h2] at h
      · simp [h3 hp] at h
      · simp [h4 hp hact hman] at h
    simp [liftUpdate, ht, hf]
  · have hf : liftInputsFinite dt s = true :=
      liftInputsFinite_iff.2 ⟨hdt, hpos, hdelta, fun hp _ _ => htarget hp⟩
    refine ⟨fun hc hlen => exec_liftUpdate_seek_refused ht hf hm ha hb fun err =>
        seek_of_position_error (by simpa using hc) (liftPid_noSuchInstance (by simp [hlen]) _ _ _),
      fun hc hlen hn => exec_liftUpdate_seek_refused ht hf hm ha hb fun err =>
        seek_of_position_error (by simpa using hc)
          (liftPid_uninitialised (by simpa using hlen) (by simpa using hn) _ _ _),
      fun hc hlen hn hlegal hbounds htf hacc => ?_⟩
    have hok := liftPid_of_legal (i := pidPos) (t := (liftSample s).lift.target) (m := s.enc.pos)
      (dt := dt) (s := fsmEval true (liftSample s)) (by simpa using hlen) (by simpa using hn)
      (by simpa using hlegal) (by simpa using hbounds) ⟨htf, hpos, hdt⟩ (by simpa using hacc)
    have hspeed {r : Refusal}
        (h : ∀ v q, liftPid pidSpd v s.enc.spd dt (setPid pidPos q (fsmEval true (liftSample s))) =
          .error (.refused r)) :
        exec (.liftUpdate dt) s = .refused r :=
      exec_liftUpdate_seek_refused ht hf hm ha hb fun err =>
        seek_of_speed_error (by simpa using hc) (by simpa using hok) (by simpa using h _ _)
    refine ⟨fun hone => hspeed fun v q => liftPid_noSuchInstance (by simp [hone]) _ _ _,
      fun htwo hn1 => hspeed fun v q => liftPid_uninitialised (by simpa using htwo) ?_ _ _ _⟩
    rw [getPid_setPid_other (by decide : pidSpd ≠ pidPos)]
    simpa using hn1

end Sys2Proof.Machine
end

section
/-! SUPPORT. What each remaining instruction runs, what a dispatch, a seek and a tick leave unchanged, and
where the FSM stands after an evaluation. -/

namespace Sys2Proof.Machine

@[simp] theorem exec_notify (s : State) : exec .notify s = .next (notifyArrival s) := rfl

@[simp] theorem exec_cmdLiftManual (d : UpDown) (s : State) :
    exec (.cmdLiftManual d) s = .next (liftManual d s) := rfl

@[simp] theorem exec_cmdLiftStop (s : State) : exec .cmdLiftStop s = .next (liftStop s) := rfl

@[simp] theorem exec_cmdGripperOpen (s : State) :
    exec .cmdGripperOpen s = .next (emit .gripOpen s) := rfl

@[simp] theorem exec_cmdGripperClose (s : State) :
    exec .cmdGripperClose s = .next (emit .gripClose s) := rfl

@[simp] theorem exec_cmdGripperSetPosition (p : Int) (s : State) :
    exec (.cmdGripperSetPosition p) s = .next (gripSetPosition p s) := rfl

@[simp] theorem exec_fsmEval (x : Bool) (s : State) : exec (.fsmEval x) s = .next (fsmEval x s) := rfl

@[simp] theorem exec_tickIrq (s : State) :
    exec .tickIrq s = .next (setSeq (raiseTick s.seq) s) := rfl

@[simp] theorem exec_reset (s : State) : exec .reset s = .next (resetState s) := rfl

/-! ### The FSM -/

@[simp] theorem fsmNext_true (f : FsmState) : fsmNext f true = .moving := by cases f <;> rfl

@[simp] theorem fsmNext_false (f : FsmState) : fsmNext f false = .idle := by cases f <;> rfl

/-! ### What the lift controller leaves alone -/

@[simp] theorem dirOf_stop (m : DirMap) : dirOf m .stop = none := rfl

@[simp] theorem liftSample_rxq (s : State) : (liftSample s).rxq = s.rxq := rfl
@[simp] theorem liftSample_fsm (s : State) : (liftSample s).fsm = s.fsm := rfl

@[simp] theorem liftArrive_rxq (s : State) : (liftArrive s).rxq = s.rxq := by
  simp [liftArrive, notifyArrival]
@[simp] theorem liftArrive_fsm (s : State) : (liftArrive s).fsm = .idle := by
  simp [liftArrive, notifyArrival]
@[simp] theorem liftHold_rxq (s : State) : (liftHold s).rxq = s.rxq := by simp [liftHold]
@[simp] theorem liftHold_fsm (s : State) : (liftHold s).fsm = .idle := by simp [liftHold]

/-- `SEEK` writes the PID registers and nothing else. -/
theorem seek_frame {err dt : Num32} {s t : State} {d : Dir} (h : seek err dt s = .ok (d, t)) :
    t = { s with pid := t.pid } := by
  obtain ⟨_, rfl, _⟩ | ⟨_, _, q, _, _, rfl⟩ | ⟨_, _, _, q, q', _, _, _, rfl⟩ := seek_cases h <;> rfl

theorem liftUpdate_rxq {dt : Num32} {s t : State} (h : liftUpdate dt s = .ok t) : t.rxq = s.rxq := by
  obtain ⟨_, _, h⟩ := liftUpdate_eq_ok.1 h
  obtain ⟨d, _, rfl⟩ | ⟨_, _, _, d, u, hu, rfl⟩ | ⟨_, _, _, rfl⟩ | ⟨_, _, rfl⟩ := liftDecide_cases h
  · simp
  · rw [emit_rxq, seek_frame hu]; simp
  · simp
  · simp

theorem tickService_rxq {now cnt : Nat} {s t : State} (h : tickService now cnt s = .ok t) :
    t.rxq = s.rxq := by
  obtain ⟨u, hu, ht⟩ := tickService_eq_ok.1 h
  obtain ⟨_, _, _, rfl⟩ := encSample_eq_ok.1 hu
  simpa using liftUpdate_rxq ht

/-! ### What taking a byte leaves alone -/

theorem dispatchCommand_rxq {c : Command} {s t : State} (h : dispatchCommand c s = .ok t) :
    t.rxq = s.rxq := by
  obtain ⟨_, _, rfl⟩ | ⟨_, rfl⟩ | ⟨_, _, _, rfl⟩ | ⟨_, rfl⟩ | ⟨_, rfl⟩ | ⟨_, _, rfl⟩ :=
    dispatchCommand_cases h <;> rfl

theorem consumeByte_rxq {b : Byte} {s t : State} (h : consumeByte b s = .ok t) : t.rxq = s.rxq := by
  obtain ⟨_, o, c, _, ⟨_, rfl⟩ | ⟨cmd, _, hd⟩⟩ := consumeByte_cases h
  · rfl
  · simpa using dispatchCommand_rxq hd

end Sys2Proof.Machine
end

section
/-! SUPPORT. The ring as a queue: its indices without wrapping, and the queued bytes after a push and a
pop. -/

namespace Sys2Proof.Machine

/-- An index that has wrapped at most once. -/
theorem mod_of_lt_two_mul {x n : Nat} (h : x < 2 * n) : x % n = if x < n then x else x - n := by
  split
  · exact Nat.mod_eq_of_lt ‹_›
  · rw [Nat.mod_eq_sub_mod (by omega), Nat.mod_eq_of_lt (by omega)]

@[simp] theorem ringBytes_length (cfg : Params) (r : Rxq) :
    (ringBytes cfg r).length = ringCount cfg r := by
  simp [ringBytes]

theorem ringCount_lt {cfg : Params} (hn : 0 < cfg.rxqSize) (r : Rxq) : ringCount cfg r < cfg.rxqSize :=
  Nat.mod_lt _ hn

/-- The indices of a ring's invariant. -/
theorem indices_of_ringInv {cfg : Params} {r : Rxq} (h : ringInv cfg r = true) :
    r.head < cfg.rxqSize ∧ r.tail < cfg.rxqSize ∧ memWf r.buf = true := by
  simp only [ringInv, Bool.and_eq_true, decide_eq_true_eq] at h
  obtain ⟨⟨⟨hh, ht⟩, hw⟩, _⟩ := h
  exact ⟨hh, ht, hw⟩

section InRange

variable {cfg : Params} {r : Rxq} (hh : r.head < cfg.rxqSize) (ht : r.tail < cfg.rxqSize)
include hh ht

theorem ringCount_of_lt :
    ringCount cfg r = if r.tail ≤ r.head then r.head - r.tail else r.head + cfg.rxqSize - r.tail := by
  rw [ringCount, mod_of_lt_two_mul (by omega)]
  split_ifs <;> omega

/-- R14: the ring is full, the next head being the tail, exactly when `RXQ_SIZE - 1` bytes are queued. -/
theorem ringNext_head_eq_tail_iff :
    ringNext cfg.rxqSize r.head = r.tail ↔ ringCount cfg r = cfg.rxqSize - 1 := by
  rw [ringCount_of_lt hh ht, ringNext, mod_of_lt_two_mul (by omega)]
  split_ifs <;> omega

/-- The slot after the queued bytes is the head. -/
theorem tail_add_ringCount_mod : (r.tail + ringCount cfg r) % cfg.rxqSize = r.head := by
  rw [ringCount_of_lt hh ht]
  split
  · rw [Nat.add_sub_cancel' ‹_›, Nat.mod_eq_of_lt hh]
  · rw [Nat.add_sub_cancel' (by omega), Nat.add_mod_right, Nat.mod_eq_of_lt hh]

/-- No queued byte stands in the slot the producer writes next. -/
theorem tail_add_mod_ne_head {k : Nat} (hk : k < ringCount cfg r) :
    (r.tail + k) % cfg.rxqSize ≠ r.head := by
  rw [ringCount_of_lt hh ht] at hk
  rw [mod_of_lt_two_mul (by split_ifs at hk <;> omega)]
  split_ifs at hk ⊢ <;> omega

theorem ringCount_pushed (m : Memory) (hfull : ringNext cfg.rxqSize r.head ≠ r.tail) :
    ringCount cfg { r with buf := m, head := ringNext cfg.rxqSize r.head } = ringCount cfg r + 1 := by
  have hnext : ringNext cfg.rxqSize r.head < cfg.rxqSize := ringNext_lt (by omega) _
  rw [ringCount_of_lt (r := { r with buf := m, head := ringNext cfg.rxqSize r.head }) hnext ht,
    ringCount_of_lt hh ht]
  rw [ringNext, mod_of_lt_two_mul (by omega)] at hfull ⊢
  simp only
  split_ifs at hfull ⊢ <;> omega

theorem ringCount_popped (hne : r.head ≠ r.tail) :
    ringCount cfg r = ringCount cfg { r with tail := ringNext cfg.rxqSize r.tail } + 1 := by
  have hnext : ringNext cfg.rxqSize r.tail < cfg.rxqSize := ringNext_lt (by omega) _
  rw [ringCount_of_lt (r := { r with tail := ringNext cfg.rxqSize r.tail }) hh hnext,
    ringCount_of_lt hh ht]
  rw [ringNext, mod_of_lt_two_mul (by omega)]
  simp only
  split_ifs <;> omega

/-- A push into a ring that is not full appends its byte. -/
theorem ringBytes_pushed (hw : memWf r.buf = true) (b : Byte)
    (hfull : ringNext cfg.rxqSize r.head ≠ r.tail) :
    ringBytes cfg { r with buf := memWrite r.buf r.head b, head := ringNext cfg.rxqSize r.head } =
      ringBytes cfg r ++ [b] := by
  simp only [ringBytes, ringCount_pushed hh ht _ hfull, List.range_succ, List.map_append, List.map_cons,
    List.map_nil, tail_add_ringCount_mod hh ht, memRead_memWrite_same hw]
  congr 1
  refine List.map_congr_left fun k hk => ?_
  exact memRead_memWrite_other _ _ (tail_add_mod_ne_head hh ht (List.mem_range.1 hk))

/-- A ring that is not empty holds the byte at its tail and, after it, what a pop leaves. -/
theorem ringBytes_eq_cons (hne : r.head ≠ r.tail) :
    ringBytes cfg r =
      memRead r.buf r.tail :: ringBytes cfg { r with tail := ringNext cfg.rxqSize r.tail } := by
  rw [ringBytes, ringCount_popped hh ht hne, List.range_succ_eq_map]
  simp only [List.map_cons, List.map_map, Nat.add_zero, Nat.mod_eq_of_lt ht, ringBytes]
  congr 1
  refine List.map_congr_left fun k _ => ?_
  simp only [Function.comp_apply, ringNext, Nat.mod_add_mod]
  congr 2
  omega

end InRange

theorem ringBytes_of_empty {cfg : Params} {r : Rxq} (he : r.head = r.tail) : ringBytes cfg r = [] := by
  simp [ringBytes, ringCount, he]

end Sys2Proof.Machine
end

section
/-! SUPPORT. A main-loop pass over a byte is the instruction decoded from it. -/

namespace Sys2Proof.Machine

/-- A pass that pops a byte takes it, and stops where taking it stops. -/
theorem mainStep_of_pop {s : State} {b : Byte} {r : Rxq} (now cnt : Nat)
    (h : rxqPop s.cfg s.rxq = .ok (some b, r)) :
    mainStep now cnt s = consumeByte b (setRxq r s) := by
  cases hs : storageOk s.cfg with
  | false => rw [mainStep_storageIllegal hs, consumeByte_storageIllegal (by simpa using hs)]
  | true => simp [mainStep, popByte, hs, h]

theorem step_of_mainPass {s : State} {now cnt : Nat} {es : List Event}
    (h : s.sched = .mainPass now cnt :: es) : step s = exec (.mainStep now cnt) (setSched es s) := by
  simp [step, nextOperation, eventInstr, h]

@[simp] theorem consumeBytes_singleton (b : Byte) (s : State) :
    consumeBytes [b] s = consumeByte b s := by
  rw [consumeBytes_cons]
  cases consumeByte b s <;> rfl

/-- R85: the start delimiter opens a capture at index 0. -/
theorem consumeByte_sof {s : State} (hs : storageOk s.cfg = true) :
    consumeByte chSof s = .ok (setCfp { s.cfp with st := .capturing, idx := 0 } s) := by
  simp [consumeByte, feedByte, hs]

/-- R87: a body byte that fits is stored and completes no command. -/
theorem consumeByte_content {s : State} {b : Byte} (hs : storageOk s.cfg = true)
    (hst : s.cfp.st = .capturing) (hsof : b ≠ chSof) (heof : b ≠ chEof)
    (hi : s.cfp.idx < maxBody s.cfg) :
    consumeByte b s =
      .ok (setCfp { s.cfp with buf := memWrite s.cfp.buf s.cfp.idx b, idx := s.cfp.idx + 1 } s) := by
  simp [consumeByte, feedByte, hs, cfpFeed_capturing hst, hsof, heof, hi]

/-- Taking again, from index 0, bytes the buffer already holds leaves the buffer as it is. -/
theorem consumeBytes_memSlice {s : State} {m : Memory} {n : Nat} (hs : storageOk s.cfg = true)
    (hn : n ≤ maxBody s.cfg) (hclean : bodyClean (memSlice m n) = true) :
    consumeBytes (memSlice m n) (setCfp { st := .capturing, buf := m, idx := 0 } s) =
      .ok (setCfp { st := .capturing, buf := m, idx := n } s) := by
  induction n with
  | zero => rfl
  | succ n ih =>
    rw [memSlice_succ, bodyClean_append, Bool.and_eq_true] at hclean
    obtain ⟨hbody, hlast⟩ := hclean
    have ⟨hsof, heof⟩ : memRead m n ≠ chSof ∧ memRead m n ≠ chEof := by simpa [bodyClean] using hlast
    rw [memSlice_succ, consumeBytes_append, ih (by omega) hbody, andThen_ok, consumeBytes_singleton,
      consumeByte_content (s := setCfp { st := .capturing, buf := m, idx := n } s) hs rfl hsof heof hn]
    simp [setCfp]

/-- At the terminator of a captured body, the whole frame taken again is the terminator taken. -/
theorem consumeBytes_frame_captured {s : State} (hst : s.cfp.st = .capturing)
    (hidx : s.cfp.idx ≤ maxBody s.cfg)
    (hclean : bodyClean (memSlice s.cfp.buf s.cfp.idx) = true) :
    consumeBytes (frameBytes (memSlice s.cfp.buf s.cfp.idx)) s = consumeByte chEof s := by
  cases hs : storageOk s.cfg with
  | false => rw [consumeBytes_frame_storageIllegal hs, consumeByte_storageIllegal hs]
  | true =>
    have hself : setCfp { st := .capturing, buf := s.cfp.buf, idx := s.cfp.idx } s = s := by
      rw [← hst]; exact setCfp_self s
    rw [frameBytes, consumeBytes_cons, consumeByte_sof hs, andThen_ok, consumeBytes_append,
      consumeBytes_memSlice hs hidx hclean, andThen_ok, hself, consumeBytes_singleton]

/-- The four instructions that have a frame body. -/
theorem frameBody_cases {i : Instr} {body : List Byte} (h : frameBody i = some body) :
    ∃ r, (i = .fLifter r ∧ body = litLifter ++ r) ∨ (i = .fGripOpen r ∧ body = litGripOpen ++ r) ∨
      (i = .fGripClose r ∧ body = litGripClose ++ r) ∨ (i = .fGripPos r ∧ body = litGripPos ++ r) := by
  unfold frameBody at h
  split at h
  · exact ⟨_, .inl ⟨rfl, (Option.some.inj h).symm⟩⟩
  · exact ⟨_, .inr (.inl ⟨rfl, (Option.some.inj h).symm⟩)⟩
  · exact ⟨_, .inr (.inr (.inl ⟨rfl, (Option.some.inj h).symm⟩))⟩
  · exact ⟨_, .inr (.inr (.inr ⟨rfl, (Option.some.inj h).symm⟩))⟩
  · cases h

theorem frameBody_of_frameOf {i : Instr} {body : List Byte} (h : frameOf body = some i) :
    frameBody i = some body := by
  have body_of_strip {lit r : List Byte} (hlit : stripLit lit body = some r) :
      some (lit ++ r) = some body := by rw [(stripLit_eq_some_iff _ _ _).1 hlit]
  unfold frameOf at h
  repeat' split at h
  case h_2 => cases h
  all_goals
    cases h
    exact body_of_strip ‹_›

/-- A frame instruction takes its frame's bytes. -/
theorem exec_of_frameBody {i : Instr} {body : List Byte} (h : frameBody i = some body) (s : State) :
    exec i s = finish (consumeBytes (frameBytes body) s) := by
  obtain ⟨r, ⟨rfl, rfl⟩ | ⟨rfl, rfl⟩ | ⟨rfl, rfl⟩ | ⟨rfl, rfl⟩⟩ := frameBody_cases h <;> rfl

theorem bodyClean_of_operandFits {n : Nat} {lit r : List Byte} (hlit : bodyClean lit = true)
    (h : operandFits n lit r = true) : bodyClean (lit ++ r) = true ∧ (lit ++ r).length ≤ n := by
  simp only [operandFits, Bool.and_eq_true, decide_eq_true_eq] at h
  obtain ⟨hclean, hlen⟩ := h
  exact ⟨by rw [bodyClean_append, hlit, hclean, Bool.and_self], hlen⟩

/-- A well-formed frame instruction's body holds no delimiter and fits the frame buffer. -/
theorem bodyClean_of_wellFormed {cfg : Params} {i : Instr} {body : List Byte}
    (h : frameBody i = some body) (hw : wellFormed cfg i = true) :
    bodyClean body = true ∧ body.length ≤ maxBody cfg := by
  obtain ⟨r, ⟨rfl, rfl⟩ | ⟨rfl, rfl⟩ | ⟨rfl, rfl⟩ | ⟨rfl, rfl⟩⟩ := frameBody_cases h
  all_goals exact bodyClean_of_operandFits (by decide) hw

/-- The instruction decoded from a byte, run whole, is the byte taken (R64). -/
theorem exec_of_decodeAt {s : State} {b : Byte} {i : Instr}
    (hd : decodeAt s.cfp.st (memSlice s.cfp.buf s.cfp.idx) b = .ok i)
    (hw : wellFormed s.cfg i = true) : exec i s = finish (consumeByte b s) := by
  cases hst : s.cfp.st with
  | idle =>
    simp only [hst, decodeAt] at hd
    split_ifs at hd with h1 h2 h3 h4
    · cases hd; rw [h1, exec_sof]
    · cases hd; rw [h2, exec_legStop]
    · cases hd; rw [h3, exec_legUp]
    · cases hd; rw [h4, exec_legDown]
  | capturing =>
    simp only [hst, decodeAt] at hd
    split_ifs at hd with h1 h2
    · cases hd; rw [h1, exec_sof]
    · split at hd
      · rename_i hf
        cases hd
        have hbody := frameBody_of_frameOf hf
        have ⟨hclean, hlen⟩ := bodyClean_of_wellFormed hbody hw
        rw [exec_of_frameBody hbody, h2,
          consumeBytes_frame_captured hst (by simpa using hlen) hclean]
      · cases hd; rw [h2, exec_eof]

end Sys2Proof.Machine
end

section
/-! SUPPORT. The integral a PID call commits, and the invariant of one PID. -/

namespace Sys2Proof.Machine

/-- Zero lies within limits that are not negative. -/
theorem numZero_between {l : Num32} (hf : numIsFinite l = true) (h0 : numLt l numZero = false) :
    numLe (numNeg l) numZero = true ∧ numLe numZero l = true := by
  have hle := numLe_of_not_numLt (notNaN_of_finite hf) numIsNaN_numZero h0
  have ⟨_, hn, hk⟩ := numLe_iff.1 hle
  refine ⟨numLe_iff.2 ⟨by simpa using hn, by simp, ?_⟩, hle⟩
  simpa using hk

/-- S8 (R120) commits the accumulation or zero. -/
theorem pidSeparate_cases (p : Pid) (e acc : Num32) :
    pidSeparate p e acc = numZero ∨ pidSeparate p e acc = acc := by
  unfold pidSeparate
  split
  · exact .inl rfl
  · exact .inr rfl

theorem pidStages_of_deadZone {cfg : Params} {p : Pid} {t m dt : Num32}
    (h : numLt (numAbs (numSub t m)) p.deadZone = true) : pidStages cfg p t m dt = (numZero, p) := by
  simp [pidStages, h]

theorem pidStages_integral {cfg : Params} {p : Pid} {t m dt : Num32}
    (h : numLt (numAbs (numSub t m)) p.deadZone = false) :
    (pidStages cfg p t m dt).2.integral =
      pidSeparate p (numSub t m) (pidAccum p (numSub t m) (clampDt cfg dt)) := by
  simp [pidStages, h]

theorem pidStages_intLimit (cfg : Params) (p : Pid) (t m dt : Num32) :
    (pidStages cfg p t m dt).2.intLimit = p.intLimit := by rw [pidStages_config]

theorem pidStages_legal (cfg : Params) (p : Pid) (t m dt : Num32) :
    pidConfigLegal (pidStages cfg p t m dt).2 = pidConfigLegal p := by rw [pidStages_config]; rfl

/-- R125: a call outside the dead zone commits an integral within the limits, whatever overflowed. -/
theorem pidCalc_integral_between {cfg : Params} {p : Pid} {t m dt : Num32} {r : Num32 × Pid}
    (h0 : numLt numZero cfg.dtMin = true) (hc : numLe cfg.dtMin cfg.dtMax = true)
    (hz : numLt (numAbs (numSub t m)) p.deadZone = false) (h : pidCalc cfg p t m dt = .ok r) :
    numLe (numNeg p.intLimit) r.2.integral = true ∧ numLe r.2.integral p.intLimit = true := by
  obtain ⟨_, hlegal, hbounds, ⟨ht, hm, hdt⟩, hacc, rfl⟩ := pidCalc_eq_ok.1 h
  have hint : numIsFinite p.integral = true := by
    simp only [pidAccumulatorsFinite, Bool.and_eq_true] at hacc
    exact hacc.1.1
  rw [pidStages_integral hz]
  obtain hs | hs := pidSeparate_cases p (numSub t m) (pidAccum p (numSub t m) (clampDt cfg dt)) <;> rw [hs]
  · obtain ⟨hl, hl0⟩ := intLimit_of_legal hlegal
    exact numZero_between hl hl0
  · exact pidAccum_between hlegal hbounds h0 hc hint ht hm hdt

theorem pidInv_iff {p : Pid} :
    pidInv p = true ↔ (p.inited = true → pidConfigLegal p = true ∧
      numLe (numNeg p.intLimit) p.integral = true ∧ numLe p.integral p.intLimit = true) := by
  cases h : p.inited <;> simp [pidInv, h, and_assoc]

/-- `PID_CALC` keeps its PID's invariant: in the dead zone all registers are as before. -/
theorem pidInv_pidCalc {cfg : Params} {p : Pid} {t m dt : Num32} {r : Num32 × Pid}
    (h0 : numLt numZero cfg.dtMin = true) (hc : numLe cfg.dtMin cfg.dtMax = true)
    (hp : pidInv p = true) (h : pidCalc cfg p t m dt = .ok r) : pidInv r.2 = true := by
  obtain ⟨_, hlegal, _, _, _, hr⟩ := pidCalc_eq_ok.1 h
  cases hz : numLt (numAbs (numSub t m)) p.deadZone with
  | true => rw [← hr, pidStages_of_deadZone hz]; exact hp
  | false =>
    have hbetween := pidCalc_integral_between h0 hc hz h
    subst hr
    refine pidInv_iff.2 fun _ => ⟨by rw [pidStages_legal, hlegal], ?_⟩
    rwa [pidStages_intLimit]

/-- `PID_INIT` makes a PID that meets the invariant: legal operands, and zero for the integral. -/
theorem pidInv_pidInit {kp ki kd ol il al it dz : Num32} {p : Pid}
    (h : pidInit kp ki kd ol il al it dz = .ok p) : pidInv p = true := by
  simp only [pidInit, refuseUnless_eq_ok, Except.ok.injEq] at h
  obtain ⟨hfin, hrange, rfl⟩ := h
  refine pidInv_iff.2 fun _ => ?_
  have hlegal : pidConfigLegal
      { kp := kp, ki := ki, kd := kd, outLimit := ol, intLimit := il, alpha := al, intThreshold := it
        deadZone := dz, integral := numZero, lastMeasured := numZero, lastFiltered := numZero
        inited := true } = true := by
    simp only [pidConfigLegal, hfin, hrange, Bool.and_self]
  obtain ⟨hl, hl0⟩ := intLimit_of_legal hlegal
  exact ⟨hlegal, numZero_between hl hl0⟩

end Sys2Proof.Machine
end

section
/-! SUPPORT. The block's invariant: what each writer must be given to keep it, and that each operation
keeps it. -/

namespace Sys2Proof.Machine

theorem cfgInv_iff {cfg : Params} :
    cfgInv cfg = true ↔ storageOk cfg = true ∧ dtBoundsFinite cfg = true ∧
      numLt numZero cfg.dtMin = true ∧ numLe cfg.dtMin cfg.dtMax = true := by
  simp [cfgInv, and_assoc]

theorem sizes_of_storageOk {cfg : Params} (h : storageOk cfg = true) :
    0 < cfg.rxqSize ∧ 1 ≤ cfg.frameCap := by
  simp only [storageOk, Bool.and_eq_true, decide_eq_true_eq] at h
  omega

theorem liftInv_iff {l : Lift} :
    liftInv l = true ↔ (l.pending = true → numIsFinite l.delta = true) ∧
      (l.active = true → numIsNaN l.target = false) := by
  cases hp : l.pending <;> cases ha : l.active <;> simp [liftInv, hp, ha]

theorem widthInv_iff {cfg : Params} {e : Enc} {q : SeqRegs} :
    widthInv cfg e q = true ↔ e.cntLast < 2 ^ cfg.cntBits ∧ inSigned cfg.accBits e.acc = true ∧
      q.tLast < 2 ^ cfg.tsBits := by
  simp [widthInv, and_assoc]

theorem stateInv_iff {s : State} :
    stateInv s = true ↔ cfgInv s.cfg = true ∧ ringInv s.cfg s.rxq = true ∧
      parserInv s.cfg s.cfp = true ∧ s.pid.length = s.cfg.nPid ∧ s.pid.all pidInv = true ∧
      liftInv s.lift = true ∧ widthInv s.cfg s.enc s.seq = true := by
  simp only [stateInv, Bool.and_eq_true, decide_eq_true_eq, and_assoc]

theorem cfgInv_of_stateInv {s : State} (h : stateInv s = true) : cfgInv s.cfg = true :=
  (stateInv_iff.1 h).1

theorem liftInv_of_stateInv {s : State} (h : stateInv s = true) : liftInv s.lift = true := by
  obtain ⟨_, _, _, _, _, hlift, _⟩ := stateInv_iff.1 h
  exact hlift

theorem widthInv_of_stateInv {s : State} (h : stateInv s = true) :
    widthInv s.cfg s.enc s.seq = true := by
  obtain ⟨_, _, _, _, _, _, hwidth⟩ := stateInv_iff.1 h
  exact hwidth

/-- The storages of a state that meets the invariant are not empty. -/
theorem sizes_of_stateInv {s : State} (h : stateInv s = true) :
    0 < s.cfg.rxqSize ∧ 1 ≤ s.cfg.frameCap :=
  sizes_of_storageOk (cfgInv_iff.1 (cfgInv_of_stateInv h)).1

/-! ### The invariant and the writers -/

@[simp] theorem stateInv_emit (e : OutEvent) (s : State) : stateInv (emit e s) = stateInv s := rfl
@[simp] theorem stateInv_setRet (r : Ret) (s : State) : stateInv (setRet r s) = stateInv s := rfl
@[simp] theorem stateInv_setSched (es : List Event) (s : State) :
    stateInv (setSched es s) = stateInv s := rfl
@[simp] theorem stateInv_setInputN (n : Nat) (s : State) : stateInv (setInputN n s) = stateInv s := rfl

@[simp] theorem stateInv_fsmEval (x : Bool) (s : State) : stateInv (fsmEval x s) = stateInv s := by
  rw [fsmEval_eq]; rfl

section Writers

variable {s : State} (h : stateInv s = true)
include h

theorem stateInv_setRxq {r : Rxq} (hr : ringInv s.cfg r = true) : stateInv (setRxq r s) = true := by
  obtain ⟨hcfg, _, hparser, hlen, hpid, hlift, hwidth⟩ := stateInv_iff.1 h
  exact stateInv_iff.2 ⟨hcfg, hr, hparser, hlen, hpid, hlift, hwidth⟩

theorem stateInv_setCfp {c : Cfp} (hc : parserInv s.cfg c = true) : stateInv (setCfp c s) = true := by
  obtain ⟨hcfg, hring, _, hlen, hpid, hlift, hwidth⟩ := stateInv_iff.1 h
  exact stateInv_iff.2 ⟨hcfg, hring, hc, hlen, hpid, hlift, hwidth⟩

theorem stateInv_setLift {l : Lift} (hl : liftInv l = true) : stateInv (setLift l s) = true := by
  obtain ⟨hcfg, hring, hparser, hlen, hpid, _, hwidth⟩ := stateInv_iff.1 h
  exact stateInv_iff.2 ⟨hcfg, hring, hparser, hlen, hpid, hl, hwidth⟩

theorem stateInv_setPid {i : Nat} {p : Pid} (hp : pidInv p = true) :
    stateInv (setPid i p s) = true := by
  obtain ⟨hcfg, hring, hparser, hlen, hpid, hlift, hwidth⟩ := stateInv_iff.1 h
  exact stateInv_iff.2 ⟨hcfg, hring, hparser, by simpa using hlen, setPid_all hpid hp, hlift, hwidth⟩

theorem stateInv_setEnc {e : Enc} (he : widthInv s.cfg e s.seq = true) :
    stateInv (setEnc e s) = true := by
  obtain ⟨hcfg, hring, hparser, hlen, hpid, hlift, _⟩ := stateInv_iff.1 h
  exact stateInv_iff.2 ⟨hcfg, hring, hparser, hlen, hpid, hlift, he⟩

theorem stateInv_setSeq {q : SeqRegs} (hq : q.tLast < 2 ^ s.cfg.tsBits) :
    stateInv (setSeq q s) = true := by
  obtain ⟨hcfg, hring, hparser, hlen, hpid, hlift, hwidth⟩ := stateInv_iff.1 h
  obtain ⟨hcnt, hacc, _⟩ := widthInv_iff.1 hwidth
  exact stateInv_iff.2 ⟨hcfg, hring, hparser, hlen, hpid, hlift, widthInv_iff.2 ⟨hcnt, hacc, hq⟩⟩

end Writers

/-! ### The invariant and the operations -/

section Operations

variable {s t : State} (h : stateInv s = true)
include h

theorem stateInv_pushByte {b : Byte} (hs : pushByte b s = .ok t) : stateInv t = true := by
  obtain ⟨_, r, hr, rfl⟩ := pushByte_eq_ok.1 hs
  obtain ⟨_, hring, _⟩ := stateInv_iff.1 h
  exact stateInv_setRxq h (ringInv_rxqPush (sizes_of_stateInv h).1 hring hr)

theorem stateInv_rxqPop {o : Option Byte} {r : Rxq} (hs : rxqPop s.cfg s.rxq = .ok (o, r)) :
    stateInv (setRxq r s) = true := by
  obtain ⟨_, hring, _⟩ := stateInv_iff.1 h
  exact stateInv_setRxq h (ringInv_rxqPop (sizes_of_stateInv h).1 hring hs)

theorem stateInv_cfpFeed {b : Byte} {o : Option Command} {c : Cfp}
    (hs : cfpFeed s.cfg b s.cfp = .ok (o, c)) : stateInv (setCfp c s) = true := by
  obtain ⟨_, _, hparser, _⟩ := stateInv_iff.1 h
  exact stateInv_setCfp h (parserInv_cfpFeed (sizes_of_stateInv h).2 hparser hs)

theorem stateInv_liftManual (d : UpDown) : stateInv (liftManual d s) = true :=
  stateInv_setLift h (liftInv_of_stateInv h)

/-- A stop keeps the outstanding target or cancels it (R144). -/
theorem stateInv_liftStop : stateInv (liftStop s) = true := by
  refine stateInv_setLift h ?_
  split
  · rfl
  · exact liftInv_of_stateInv h

theorem stateInv_liftSetDelta {v : Num32} (hs : liftSetDelta v s = .ok t) : stateInv t = true := by
  simp only [liftSetDelta, refuseUnless_eq_ok, Except.ok.injEq] at hs
  obtain ⟨hv, rfl⟩ := hs
  obtain ⟨_, htarget⟩ := liftInv_iff.1 (liftInv_of_stateInv h)
  exact stateInv_setLift h (liftInv_iff.2 ⟨fun _ => hv, htarget⟩)

theorem stateInv_dispatchCommand {c : Command} (hs : dispatchCommand c s = .ok t) :
    stateInv t = true := by
  cases c with
  | liftManual d => cases hs; exact stateInv_liftManual h d
  | liftSetDelta v => exact stateInv_liftSetDelta h hs
  | liftStop => cases hs; exact stateInv_liftStop h
  | gripperOpen => cases hs; exact h
  | gripperClose => cases hs; exact h
  | gripperSetPosition p => cases hs; exact h

theorem stateInv_consumeByte {b : Byte} (hs : consumeByte b s = .ok t) : stateInv t = true := by
  obtain ⟨_, o, c, hc, ⟨_, rfl⟩ | ⟨cmd, _, hd⟩⟩ := consumeByte_cases hs
  · exact stateInv_cfpFeed h hc
  · exact stateInv_dispatchCommand (stateInv_cfpFeed h hc) hd

theorem stateInv_consumeBytes {bs : List Byte} (hs : consumeBytes bs s = .ok t) :
    stateInv t = true := by
  induction bs generalizing s with
  | nil => cases hs; exact h
  | cons b bs ih =>
    rw [consumeBytes_cons, andThen_eq_ok] at hs
    obtain ⟨u, hu, hbs⟩ := hs
    exact ih (stateInv_consumeByte h hu) hbs

theorem stateInv_pidCalc {i : Nat} {tg m dt : Num32} {q : Num32 × Pid} (hi : hasPid i s = true)
    (hq : pidCalc s.cfg (getPid i s) tg m dt = .ok q) : stateInv (setPid i q.2 s) = true := by
  obtain ⟨hcfg, _, _, _, hpid, _⟩ := stateInv_iff.1 h
  obtain ⟨_, _, h0, hc⟩ := cfgInv_iff.1 hcfg
  exact stateInv_setPid h (pidInv_pidCalc h0 hc (getPid_of_all hpid hi) hq)

theorem stateInv_seek {err dt : Num32} {d : Dir} (hs : seek err dt s = .ok (d, t)) :
    stateInv t = true := by
  obtain ⟨_, rfl, _⟩ | ⟨_, hi, q, hq, _, rfl⟩ | ⟨_, hi, hi', q, q', hq, hq', _, rfl⟩ := seek_cases hs
  · exact h
  · exact stateInv_pidCalc h hi hq
  · have hpos : stateInv (setPid pidPos q.2 s) = true := stateInv_pidCalc h hi hq
    rw [← getPid_setPid_other (by decide : pidSpd ≠ pidPos) q.2 s] at hq'
    exact stateInv_pidCalc hpos (by simpa using hi') hq'

/-- R145: a finite position and a finite delta add to a target that is no NaN. -/
theorem liftInv_convertTarget (hpos : numIsFinite s.enc.pos = true) :
    liftInv (convertTarget { s.lift with pos := s.enc.pos }) = true := by
  obtain ⟨hdelta, htarget⟩ := liftInv_iff.1 (liftInv_of_stateInv h)
  unfold convertTarget
  split
  · rename_i hp
    exact liftInv_iff.2 ⟨nofun, fun _ => notNaN_numAdd hpos (notNaN_of_finite (hdelta hp))⟩
  · exact liftInv_iff.2 ⟨hdelta, htarget⟩

theorem stateInv_liftArrive : stateInv (liftArrive s) = true := by
  obtain ⟨hdelta, _⟩ := liftInv_iff.1 (liftInv_of_stateInv h)
  refine stateInv_setLift (by simpa [notifyArrival] using h) ?_
  simp only [notifyArrival, emit_lift, fsmEval_lift]
  exact liftInv_iff.2 ⟨hdelta, nofun⟩

theorem stateInv_liftUpdate {dt : Num32} (hs : liftUpdate dt s = .ok t) : stateInv t = true := by
  obtain ⟨_, hfin, hs⟩ := liftUpdate_eq_ok.1 hs
  obtain ⟨_, hpos, _⟩ := liftInputsFinite_iff.1 hfin
  have hsample : stateInv (liftSample s) = true :=
    stateInv_setLift h (liftInv_convertTarget h hpos)
  obtain ⟨d, _, rfl⟩ | ⟨_, _, _, d, u, hu, rfl⟩ | ⟨_, _, _, rfl⟩ | ⟨_, _, rfl⟩ := liftDecide_cases hs
  · exact hsample
  · rw [stateInv_emit]
    exact stateInv_seek (by rwa [stateInv_fsmEval]) hu
  · exact stateInv_liftArrive hsample
  · simpa [liftHold] using hsample

theorem stateInv_encSample {cnt : Nat} {dt : Num32} (hs : encSample cnt dt s = .ok t) :
    stateInv t = true := by
  obtain ⟨_, _, _, rfl⟩ := encSample_eq_ok.1 hs
  obtain ⟨_, _, htime⟩ := widthInv_iff.1 (widthInv_of_stateInv h)
  exact stateInv_setEnc h (widthInv_iff.2 ⟨lowBits_lt _ _, inSigned_sextN _ _, htime⟩)

theorem stateInv_tickService {now cnt : Nat} (hs : tickService now cnt s = .ok t) :
    stateInv t = true := by
  obtain ⟨u, hu, ht⟩ := tickService_eq_ok.1 hs
  exact stateInv_liftUpdate (stateInv_encSample (stateInv_setSeq h (lowBits_lt _ _)) hu) ht

/-- A change of the tick flag alone keeps the invariant. -/
theorem stateInv_setTickFlag (f : Bool) : stateInv (setSeq { s.seq with tickFlag := f } s) = true := by
  obtain ⟨_, _, htime⟩ := widthInv_iff.1 (widthInv_of_stateInv h)
  exact stateInv_setSeq h htime

theorem stateInv_mainStep {now cnt : Nat} (hs : mainStep now cnt s = .ok t) : stateInv t = true := by
  obtain ⟨_, ⟨b, r, hr, hb⟩ | ⟨_, _, ht⟩ | ⟨_, _, rfl⟩⟩ := mainStep_cases hs
  · exact stateInv_consumeByte (stateInv_rxqPop h hr) hb
  · exact stateInv_tickService (stateInv_setTickFlag h false) ht
  · exact h

end Operations

/-- The state `RESET` gives meets the invariant of every build whose parameters are legal. -/
theorem stateInv_resetState {s : State} (h : cfgInv s.cfg = true) : stateInv (resetState s) = true := by
  obtain ⟨hn, hf⟩ := sizes_of_storageOk (cfgInv_iff.1 h).1
  refine stateInv_iff.2 ⟨h, ?_, ?_, List.length_replicate, ?_, rfl, ?_⟩
  · simp [ringInv, resetState, State.reset, memWf, memBelow, hn]
  · simp [parserInv, resetState, State.reset, memWf, memBelow, memSlice, bodyClean]
  · simp [resetState, List.all_replicate, pidInv, Pid.atReset]
  · refine widthInv_iff.2 ⟨Nat.two_pow_pos _, inSigned_iff.2 ⟨?_, ?_⟩, Nat.two_pow_pos _⟩
    · simp [State.reset, resetState]
    · simp [State.reset, resetState]

/-- The next operation runs on a state that differs only in the schedule or the count of free inputs. -/
theorem stateInv_nextOperation (s : State) : stateInv (nextOperation s).2 = stateInv s := by
  unfold nextOperation
  split
  · exact stateInv_setSched _ _
  · exact stateInv_setInputN _ _

end Sys2Proof.Machine
end

section
/-! The settled statements on the state, its invariant and its units. -/

namespace Sys2Proof.Machine

/-- Settles O57: one case per instruction, each the lemma of the operation it runs. -/
theorem everyInstructionKeepsTheInvariant : Obligations.EveryInstructionKeepsTheInvariant := by
  intro i s t h hs
  cases i with
  | legStop => exact stateInv_consumeByte h (by simpa using hs)
  | legUp => exact stateInv_consumeByte h (by simpa using hs)
  | legDown => exact stateInv_consumeByte h (by simpa using hs)
  | sof => exact stateInv_consumeByte h (by simpa using hs)
  | eof => exact stateInv_consumeByte h (by simpa using hs)
  | fLifter r => exact stateInv_consumeBytes h (finish_eq_next.1 hs)
  | fGripOpen r => exact stateInv_consumeBytes h (finish_eq_next.1 hs)
  | fGripClose r => exact stateInv_consumeBytes h (finish_eq_next.1 hs)
  | fGripPos r => exact stateInv_consumeBytes h (finish_eq_next.1 hs)
  | notify => rw [exec_notify] at hs; cases hs; exact h
  | rxqPush b => exact stateInv_pushByte h (finish_eq_next.1 hs)
  | rxqPop =>
    rw [exec_rxqPop, finish_eq_next, andThen_eq_ok] at hs
    obtain ⟨p, hp, hs⟩ := hs
    obtain ⟨_, q, hq, rfl⟩ := popByte_eq_ok.1 hp
    cases hs
    rw [stateInv_setRet]
    exact stateInv_rxqPop h hq
  | cfpFeed b =>
    rw [exec_cfpFeed, finish_eq_next, andThen_eq_ok] at hs
    obtain ⟨p, hp, hs⟩ := hs
    obtain ⟨_, q, hq, rfl⟩ := feedByte_eq_ok.1 hp
    cases hs
    rw [stateInv_setRet]
    exact stateInv_cfpFeed h hq
  | pidInit who j kp ki kd ol il al it dz =>
    rw [exec_pidInit, finish_eq_next, refuseUnless_eq_ok, refuseUnless_eq_ok, andThen_eq_ok] at hs
    obtain ⟨_, _, p, hp, hs⟩ := hs
    cases hs
    exact stateInv_setPid h (pidInv_pidInit hp)
  | pidCalc j tg m dt =>
    rw [exec_pidCalc, finish_eq_next, refuseUnless_eq_ok, refuseUnless_eq_ok, andThen_eq_ok] at hs
    obtain ⟨hj, _, q, hq, hs⟩ := hs
    cases hs
    rw [stateInv_setRet]
    exact stateInv_pidCalc h hj hq
  | cmdDispatch c => exact stateInv_dispatchCommand h (finish_eq_next.1 hs)
  | cmdLiftSetDelta v => exact stateInv_liftSetDelta h (finish_eq_next.1 hs)
  | cmdLiftManual d => rw [exec_cmdLiftManual] at hs; cases hs; exact stateInv_liftManual h d
  | cmdLiftStop => rw [exec_cmdLiftStop] at hs; cases hs; exact stateInv_liftStop h
  | cmdGripperOpen => rw [exec_cmdGripperOpen] at hs; cases hs; exact h
  | cmdGripperClose => rw [exec_cmdGripperClose] at hs; cases hs; exact h
  | cmdGripperSetPosition p => rw [exec_cmdGripperSetPosition] at hs; cases hs; exact h
  | liftUpdate dt => exact stateInv_liftUpdate h (finish_eq_next.1 hs)
  | fsmEval x => rw [exec_fsmEval] at hs; cases hs; rwa [stateInv_fsmEval]
  | encSample cnt dt => exact stateInv_encSample h (finish_eq_next.1 hs)
  | tickIrq => rw [exec_tickIrq] at hs; cases hs; exact stateInv_setTickFlag h true
  | mainStep now cnt => exact stateInv_mainStep h (finish_eq_next.1 hs)
  | tickService now cnt => exact stateInv_tickService h (finish_eq_next.1 hs)
  | reset => rw [exec_reset] at hs; cases hs; exact stateInv_resetState (cfgInv_of_stateInv h)

/-- Settles O56: a step is an instruction on a state that meets the invariant as this one does. -/
theorem everyStepKeepsTheInvariant : Obligations.EveryStepKeepsTheInvariant := by
  intro s t h hs
  exact everyInstructionKeepsTheInvariant _ _ t ((stateInv_nextOperation s).trans h) hs

/-- Settles O55: the reset state is what `RESET` makes of it, and R7's parameters are legal. -/
theorem resetStateMeetsTheInvariant : Obligations.ResetStateMeetsTheInvariant := by
  have hself : resetState State.reset = State.reset := rfl
  have h : stateInv (resetState State.reset) = true := stateInv_resetState (by decide)
  rwa [hself] at h

/-- Settles O5: both the pass and the decoded instruction are the byte taken. -/
theorem mainPassRunsTheDecodedInstruction : Obligations.MainPassRunsTheDecodedInstruction := by
  intro s now cnt b r i hpop hdec hwf
  have pass (u : State) (hu : rxqPop u.cfg u.rxq = .ok (some b, r)) (hcfp : u.cfp = s.cfp)
      (hcfg : u.cfg = s.cfg) : exec (.mainStep now cnt) u = exec i (setRxq r u) := by
    rw [exec_mainStep, mainStep_of_pop now cnt hu,
      exec_of_decodeAt (s := setRxq r u) (by simpa [hcfp] using hdec) (by simpa [hcfg] using hwf)]
  refine ⟨pass s hpop rfl rfl, fun es hsched => ?_⟩
  rw [step_of_mainPass hsched]
  exact pass (setSched es s) hpop rfl rfl

/-- Settles O9: the queue's length by the indices, then a push by whether the ring is full and a pop by
whether it is empty. -/
theorem ringIsFirstInFirstOut : Obligations.RingIsFirstInFirstOut := by
  intro s b hs hring
  obtain ⟨hh, ht, hw⟩ := indices_of_ringInv hring
  refine ⟨?_, ?_, ?_⟩
  · rw [ringBytes_length]
    exact Nat.le_sub_one_of_lt (ringCount_lt (by omega) _)
  · obtain ⟨r, hr⟩ := rxqPush_ok hh b
    refine ⟨setRxq r s, finish_eq_next.2 (pushByte_eq_ok.2 ⟨hs, r, hr, rfl⟩), ?_⟩
    rw [setRxq_cfg, setRxq_rxq, ringBytes_length]
    obtain ⟨hfull, rfl⟩ | ⟨hfull, _, rfl⟩ := rxqPush_cases hr
    · rw [if_pos ((ringNext_head_eq_tail_iff hh ht).1 hfull)]
    · rw [if_neg (mt (ringNext_head_eq_tail_iff hh ht).2 hfull), ringBytes_pushed hh ht hw b hfull]
  · obtain ⟨⟨o, r⟩, hr⟩ := rxqPop_ok ht
    refine ⟨setRet (.byte o) (setRxq r s), by simp [popByte, hs, hr], ?_⟩
    rw [setRet_ret, setRet_cfg, setRet_rxq, setRxq_cfg, setRxq_rxq]
    obtain ⟨he, rfl, rfl⟩ | ⟨hne, _, rfl, rfl⟩ := rxqPop_cases hr
    · simp [ringBytes_of_empty he]
    · simp [ringBytes_eq_cons hh ht hne]

/-- Settles O10: only the pop of a pass writes the ring. -/
theorem consumerNeverTouchesTheProducerSide : Obligations.ConsumerNeverTouchesTheProducerSide := by
  intro s t now cnt hs
  rw [exec_mainStep, finish_eq_next] at hs
  obtain ⟨_, ⟨b, r, hr, hb⟩ | ⟨he, _, ht⟩ | ⟨he, _, rfl⟩⟩ := mainStep_cases hs
  · obtain ⟨_, hnone, _⟩ | ⟨hne, _, _, rfl⟩ := rxqPop_cases hr
    · cases hnone
    · rw [consumeByte_rxq hb]
      exact ⟨rfl, rfl, .inr ⟨hne, rfl⟩⟩
  · rw [tickService_rxq ht]
    exact ⟨rfl, rfl, .inl ⟨he, rfl⟩⟩
  · exact ⟨rfl, rfl, .inl ⟨he, rfl⟩⟩

/-- Settles O34: the client's call commits what `PID_CALC` gives. -/
theorem pidIntegralStaysWithinItsLimits : Obligations.PidIntegralStaysWithinItsLimits := by
  intro s t i target m dt h0 hc hs hz
  rw [exec_pidCalc, finish_eq_next, refuseUnless_eq_ok, refuseUnless_eq_ok, andThen_eq_ok] at hs
  obtain ⟨hi, _, q, hq, hs⟩ := hs
  cases hs
  rw [getPid_setRet, getPid_setPid_same hi]
  exact pidCalc_integral_between h0 hc hz hq

/-- Settles O47, by the branch the tick takes: a manual one does not evaluate the FSM, a seek evaluates it
with the band exceeded, arrival and hold without. -/
theorem fsmMovesWithTheErrorBand : Obligations.FsmMovesWithTheErrorBand := by
  intro s t dt hs
  rw [exec_liftUpdate, finish_eq_next] at hs
  obtain ⟨_, _, hs⟩ := liftUpdate_eq_ok.1 hs
  have herr : liftError (liftSample s).lift = numSub (liftSample s).lift.target s.enc.pos := by
    rw [liftError, liftSample_pos]
  have hcases := liftDecide_cases hs
  rw [herr, liftSample_man, liftSample_cfg] at hcases
  obtain ⟨d, hd, rfl⟩ | ⟨hm, ha, hb, d, u, hu, rfl⟩ | ⟨hm, ha, hb, rfl⟩ | ⟨hm, ha, rfl⟩ := hcases
  · exact ⟨fun _ => by rw [emit_fsm, liftSample_fsm], fun hm => by simp [hm] at hd⟩
  · have hfsm : u.fsm = .moving := by rw [seek_frame hu]; simp
    exact ⟨fun h => absurd hm h, fun _ => by simp [hfsm, ha, hb]⟩
  · exact ⟨fun h => absurd hm h, fun _ => by simp [hb]⟩
  · exact ⟨fun h => absurd hm h, fun _ => by simp [ha]⟩

/-- Settles O36, by the manual direction and, where it is `Stop`, by the two flags. -/
theorem manualDirectionMasksTheTargetInTheMode : Obligations.ManualDirectionMasksTheTargetInTheMode := by
  intro l
  cases hm : l.man with
  | up => simp [motionMode, hm]
  | down => simp [motionMode, hm]
  | stop => cases hp : l.pending <;> cases ha : l.active <;> simp [motionMode, hm, hp, ha]

/-- Settles O54: the fields of `resetState` as it writes them; each PID is `Pid.atReset`. -/
theorem resetGivesTheTable : Obligations.ResetGivesTheTable := by
  refine ⟨fun s => ⟨resetState s, rfl, rfl, rfl, rfl, rfl, rfl, rfl, rfl, rfl, List.length_replicate,
    fun p hp => ?_, rfl, rfl, rfl, rfl, rfl, rfl, rfl, rfl⟩, rfl⟩
  rw [List.eq_of_mem_replicate hp]
  rfl

end Sys2Proof.Machine
end

section
/-! SUPPORT. Each ring operation's two arms, what a pass runs on an empty ring, and what taking a byte
reads and writes: neither the ring nor the schedule. -/

namespace Sys2Proof.Machine

/-! ### The next operation -/

/-- R50: with an event scheduled, a step is its operation on the state without it. -/
theorem step_of_sched_cons {s : State} {e : Event} {es : List Event} (h : s.sched = e :: es) :
    step s = exec (eventInstr e) (setSched es s) := by
  simp [step, nextOperation, h]

theorem step_of_sched_nil {s : State} (h : s.sched = []) :
    step s = exec (.mainStep (Config.freeNow s.inputN) (Config.freeCnt s.inputN))
      (setInputN (s.inputN + 1) s) := by
  simp [step, nextOperation, h]

/-! ### A push and a pop, arm by arm -/

theorem rxqPush_of_full {cfg : Params} {r : Rxq} (h : ringNext cfg.rxqSize r.head = r.tail) (b : Byte) :
    rxqPush cfg b r = .ok r := by
  simp [rxqPush, h]

theorem rxqPush_of_room {cfg : Params} {r : Rxq} (hh : r.head < cfg.rxqSize)
    (h : ringNext cfg.rxqSize r.head ≠ r.tail) (b : Byte) :
    rxqPush cfg b r =
      .ok { r with buf := memWrite r.buf r.head b, head := ringNext cfg.rxqSize r.head } := by
  simp [rxqPush, hh, h]

theorem rxqPop_of_empty {cfg : Params} {r : Rxq} (h : r.head = r.tail) :
    rxqPop cfg r = .ok (none, r) := by
  simp [rxqPop, h]

theorem rxqPop_of_waiting {cfg : Params} {r : Rxq} (ht : r.tail < cfg.rxqSize) (h : r.head ≠ r.tail) :
    rxqPop cfg r =
      .ok (some (memRead r.buf r.tail), { r with tail := ringNext cfg.rxqSize r.tail }) := by
  simp [rxqPop, ht, h]

theorem pushByte_of_ok {b : Byte} {s : State} {r : Rxq} (hs : storageOk s.cfg = true)
    (h : rxqPush s.cfg b s.rxq = .ok r) : pushByte b s = .ok (setRxq r s) :=
  pushByte_eq_ok.2 ⟨hs, r, h, rfl⟩

theorem popByte_of_ok {s : State} {o : Option Byte} {r : Rxq} (hs : storageOk s.cfg = true)
    (h : rxqPop s.cfg s.rxq = .ok (o, r)) : popByte s = .ok (o, setRxq r s) :=
  popByte_eq_ok.2 ⟨hs, (o, r), h, rfl⟩

/-- A pass on an empty ring pops nothing and goes on to the tick. -/
theorem mainStep_of_empty {s : State} (now cnt : Nat) (hs : storageOk s.cfg = true)
    (h : s.rxq.head = s.rxq.tail) : mainStep now cnt s = idlePass now cnt s := by
  rw [mainStep, popByte_of_ok hs (rxqPop_of_empty h), andThen_ok, setRxq_self]

/-! ### What taking a byte writes -/

/-- A command writes LIFT's registers and the trace. -/
theorem dispatchCommand_frame {c : Command} {s t : State} (h : dispatchCommand c s = .ok t) :
    t = { s with lift := t.lift, trace := t.trace } := by
  obtain ⟨_, _, rfl⟩ | ⟨_, rfl⟩ | ⟨_, _, _, rfl⟩ | ⟨_, rfl⟩ | ⟨_, rfl⟩ | ⟨_, _, rfl⟩ :=
    dispatchCommand_cases h <;> rfl

/-- A byte taken writes the parser, LIFT's registers and the trace. -/
theorem consumeByte_frame {b : Byte} {s t : State} (h : consumeByte b s = .ok t) :
    t = { s with cfp := t.cfp, lift := t.lift, trace := t.trace } := by
  obtain ⟨_, o, c, _, ⟨_, rfl⟩ | ⟨cmd, _, hd⟩⟩ := consumeByte_cases h
  · rfl
  · rw [dispatchCommand_frame hd]; rfl

theorem consumeByte_cfg {b : Byte} {s t : State} (h : consumeByte b s = .ok t) : t.cfg = s.cfg := by
  rw [consumeByte_frame h]

/-! ### What taking a byte reads -/

/-- A command does not read the ring or the schedule. -/
theorem dispatchCommand_setRxq_setSched (c : Command) (r : Rxq) (es : List Event) (s : State) :
    dispatchCommand c (setSched es (setRxq r s)) =
      andThen (dispatchCommand c s) fun t => .ok (setSched es (setRxq r t)) := by
  cases c with
  | liftSetDelta v => 
    cases hv : numIsFinite v with
    | false => simp [dispatchCommand, liftSetDelta, hv]
    | true => simp [dispatchCommand, liftSetDelta, hv]; rfl
  | liftManual d => rfl
  | liftStop => rfl
  | gripperOpen => rfl
  | gripperClose => rfl
  | gripperSetPosition p => rfl

/-- Taking a byte does not read the ring or the schedule. -/
theorem consumeByte_setRxq_setSched (b : Byte) (r : Rxq) (es : List Event) (s : State) :
    consumeByte b (setSched es (setRxq r s)) =
      andThen (consumeByte b s) fun t => .ok (setSched es (setRxq r t)) := by
  cases hs : storageOk s.cfg with
  | false => simp [consumeByte_storageIllegal, hs]
  | true =>
    cases hc : cfpFeed s.cfg b s.cfp with
    | error e => simp [consumeByte, feedByte, hs, hc]
    | ok p =>
      obtain ⟨o, c⟩ := p
      cases o with
      | none => simp [consumeByte, feedByte, hs, hc]; rfl
      | some cmd =>
        simp only [consumeByte, feedByte, setSched_cfg, setRxq_cfg, setSched_cfp, setRxq_cfp, hs, hc,
          refuseUnless_true, andThen_ok]
        exact dispatchCommand_setRxq_setSched cmd r es (setCfp c s)

/-! ### Passes over waiting bytes -/

/-- A run goes on from the first step's next state. -/
theorem run_succ_of_next {M : Host.Core} {s t : M.State} (n : Nat) (h : M.step s = .next t) :
    M.run (n + 1) s = M.run n t := by
  rw [Host.Core.run, h]

theorem run_succ_of_fault {M : Host.Core} {s : M.State} {f : M.Fault} (n : Nat)
    (h : M.step s = .fault f) : M.run (n + 1) s = .fault f := by
  rw [Host.Core.run, h]

theorem run_succ_of_refused {M : Host.Core} {s : M.State} {r : M.Refusal} (n : Nat)
    (h : M.step s = .refused r) : M.run (n + 1) s = .refused r := by
  rw [Host.Core.run, h]

/-- A run stops where its first step does. -/
theorem core_run_succ_of_error {s : State} {e : Stop} (n : Nat) (h : step s = finish (.error e)) :
    Host.Core.run core (n + 1) s = finish (.error e) := by
  cases e with
  | fault f => exact run_succ_of_fault (M := core) n h
  | refused r => exact run_succ_of_refused (M := core) n h

/-- A scheduled pass over a waiting byte is the byte taken, on the state without the pass whose tail has
moved past the byte. -/
theorem step_of_mainPass_waiting {s : State} {now cnt : Nat} {es : List Event}
    (hsched : s.sched = .mainPass now cnt :: es) (ht : s.rxq.tail < s.cfg.rxqSize)
    (hne : s.rxq.head ≠ s.rxq.tail) :
    step s = finish (consumeByte (memRead s.rxq.buf s.rxq.tail)
      (setSched es (setRxq { s.rxq with tail := ringNext s.cfg.rxqSize s.rxq.tail } s))) := by
  rw [step_of_mainPass hsched, exec_mainStep,
    mainStep_of_pop (s := setSched es s) now cnt (rxqPop_of_waiting ht hne)]
  rfl

/-- R48, R101: as many passes as there are bytes take the bytes at the front of the ring in order.  The
bytes do not read the ring or the schedule, so both may be moved past all the bytes beforehand. -/
theorem run_mainPasses {bs more : List Byte} {ins : List (Nat × Nat)} {es : List Event} {s : State}
    (hh : s.rxq.head < s.cfg.rxqSize) (ht : s.rxq.tail < s.cfg.rxqSize)
    (hbytes : ringBytes s.cfg s.rxq = bs ++ more) (hlen : ins.length = bs.length)
    (hsched : s.sched = ins.map (fun p => Event.mainPass p.1 p.2) ++ es) :
    Host.Core.run core bs.length s =
      finish (consumeBytes bs
        (setSched es (setRxq { s.rxq with tail := (s.rxq.tail + bs.length) % s.cfg.rxqSize } s))) := by
  induction bs generalizing s ins with
  | nil =>
    obtain rfl : ins = [] := List.length_eq_zero_iff.1 hlen
    have hself : setSched es s = s := by rw [← setSched_self s, hsched]; rfl
    simp only [List.length_nil, Nat.add_zero, Nat.mod_eq_of_lt ht, consumeBytes_nil, finish_ok]
    rw [setRxq_self, hself]
    rfl
  | cons b bs ih =>
    obtain ⟨⟨now, cnt⟩, ins, rfl⟩ : ∃ p ps, ins = p :: ps :=
      List.exists_cons_of_length_eq_add_one hlen
    have hne : s.rxq.head ≠ s.rxq.tail := fun he => by simp [ringBytes_of_empty he] at hbytes
    rw [ringBytes_eq_cons hh ht hne, List.cons_append, List.cons.injEq] at hbytes
    obtain ⟨hb, hrest⟩ := hbytes
    have hstep := step_of_mainPass_waiting hsched ht hne
    rw [hb, consumeByte_setRxq_setSched] at hstep
    rw [List.length_cons, consumeBytes_cons, consumeByte_setRxq_setSched]
    cases hc : consumeByte b s with
    | error e =>
      rw [hc, andThen_error] at hstep
      exact core_run_succ_of_error _ hstep
    | ok t =>
      have hcfg := consumeByte_cfg hc
      have hnext : ringNext s.cfg.rxqSize s.rxq.tail < s.cfg.rxqSize := ringNext_lt (by omega) _
      rw [hc, andThen_ok] at hstep
      refine (run_succ_of_next (M := core) _ hstep).trans ?_
      rw [andThen_ok, andThen_ok, ih (ins := ins) (by simpa [hcfg] using hh) (by simpa [hcfg] using hnext)
        (by simpa [hcfg] using hrest) (by simpa using hlen) rfl]
      simp only [setSched_rxq, setRxq_rxq, setSched_cfg, setRxq_cfg, hcfg, ringNext, Nat.mod_add_mod,
        Nat.add_assoc, Nat.add_comm 1]
      rfl

end Sys2Proof.Machine
end

section
/-! SUPPORT. The operations that neither drive the actuator nor move the FSM, and the events of a lift
update. -/

namespace Sys2Proof.Machine

/-- From `s` to `t` the FSM stays and the trace grows by no actuator direction and no hook. -/
def QuietFrom (s t : State) : Prop :=
  t.fsm = s.fsm ∧ ∃ evs : List OutEvent,
    t.trace = s.trace ++ evs ∧ evs.all (fun e => !isActDir e && !isHook e) = true

theorem QuietFrom.of_eq {s t : State} (hf : t.fsm = s.fsm) (ht : t.trace = s.trace) : QuietFrom s t :=
  ⟨hf, [], by simp [ht], rfl⟩

theorem QuietFrom.refl (s : State) : QuietFrom s s := .of_eq rfl rfl

theorem QuietFrom.trans {s t u : State} (h : QuietFrom s t) (h' : QuietFrom t u) : QuietFrom s u := by
  obtain ⟨hf, evs, ht, he⟩ := h
  obtain ⟨hf', evs', ht', he'⟩ := h'
  exact ⟨hf'.trans hf, evs ++ evs', by rw [ht', ht, List.append_assoc],
    by rw [List.all_append, he, he', Bool.and_self]⟩

theorem quietFrom_emit {e : OutEvent} (ha : isActDir e = false) (hh : isHook e = false) (s : State) :
    QuietFrom s (emit e s) :=
  ⟨rfl, [e], rfl, by simp [ha, hh]⟩

/-- A command's only events are the gripper's. -/
theorem quietFrom_dispatchCommand {c : Command} {s t : State} (h : dispatchCommand c s = .ok t) :
    QuietFrom s t := by
  obtain ⟨_, _, rfl⟩ | ⟨_, rfl⟩ | ⟨_, _, _, rfl⟩ | ⟨_, rfl⟩ | ⟨_, rfl⟩ | ⟨_, _, rfl⟩ :=
    dispatchCommand_cases h
  · exact .of_eq rfl rfl
  · exact .of_eq rfl rfl
  · exact .of_eq rfl rfl
  · exact quietFrom_emit rfl rfl s
  · exact quietFrom_emit rfl rfl s
  · exact quietFrom_emit rfl rfl s

theorem quietFrom_consumeByte {b : Byte} {s t : State} (h : consumeByte b s = .ok t) :
    QuietFrom s t := by
  obtain ⟨_, o, c, _, ⟨_, rfl⟩ | ⟨cmd, _, hd⟩⟩ := consumeByte_cases h
  · exact .of_eq rfl rfl
  · have hcfp : QuietFrom s (setCfp c s) := .of_eq rfl rfl
    exact hcfp.trans (quietFrom_dispatchCommand hd)

theorem quietFrom_consumeBytes {bs : List Byte} {s t : State} (h : consumeBytes bs s = .ok t) :
    QuietFrom s t := by
  induction bs generalizing s with
  | nil => cases h; exact .refl _
  | cons b bs ih =>
    rw [consumeBytes_cons, andThen_eq_ok] at h
    obtain ⟨u, hu, hbs⟩ := h
    exact (quietFrom_consumeByte hu).trans (ih hbs)

/-- A pass over a waiting byte only takes the byte. -/
theorem quietFrom_mainStep {now cnt : Nat} {s t : State} (hne : s.rxq.head ≠ s.rxq.tail)
    (h : mainStep now cnt s = .ok t) : QuietFrom s t := by
  obtain ⟨_, ⟨b, r, _, hb⟩ | ⟨he, _⟩ | ⟨he, _⟩⟩ := mainStep_cases h
  · have hpop : QuietFrom s (setRxq r s) := .of_eq rfl rfl
    exact hpop.trans (quietFrom_consumeByte hb)
  · exact absurd he hne
  · exact absurd he hne

/-! ### The events of a lift update -/

@[simp] theorem liftSample_trace (s : State) : (liftSample s).trace = s.trace := rfl

@[simp] theorem liftHold_trace (s : State) :
    (liftHold s).trace = s.trace ++ fsmHooks false s.fsm ++ [.actDir .stop] := by
  simp [liftHold]

@[simp] theorem liftArrive_trace (s : State) :
    (liftArrive s).trace =
      s.trace ++ fsmHooks false s.fsm ++ [.actDir .stop] ++ [.notify (notifyBytes s.cfg.lineTerm)] := by
  simp [liftArrive, notifyArrival]

/-- An FSM evaluation emits the hooks of its transition, or none where the FSM stays (R171). -/
theorem fsmHooks_cases (x : Bool) (f : FsmState) :
    (fsmHooks x f = [] ∧ fsmNext f x = f) ∨
      (fsmHooks x f = [.hook .exit f, .hook .entry (fsmNext f x)] ∧ fsmNext f x ≠ f) := by
  unfold fsmHooks
  split
  · exact .inl ⟨rfl, ‹_›⟩
  · exact .inr ⟨rfl, ‹_›⟩

end Sys2Proof.Machine
end

section
/-! SUPPORT. Which operations complete in a state that meets the invariant, and that none faults there. -/

namespace Sys2Proof.Machine

/-! ### Operations that complete -/

/-- Every command completes but a delta that is not finite. -/
theorem dispatchCommand_ok {c : Command} (h : ∀ v, c = .liftSetDelta v → numIsFinite v = true)
    (s : State) : ∃ t, dispatchCommand c s = .ok t := by
  cases c with
  | liftSetDelta v => exact ⟨_, by rw [dispatchCommand, liftSetDelta, h v rfl, refuseUnless_true]⟩
  | liftManual d => exact ⟨_, rfl⟩
  | liftStop => exact ⟨_, rfl⟩
  | gripperOpen => exact ⟨_, rfl⟩
  | gripperClose => exact ⟨_, rfl⟩
  | gripperSetPosition p => exact ⟨_, rfl⟩

theorem storageOk_of_stateInv {s : State} (h : stateInv s = true) : storageOk s.cfg = true :=
  (cfgInv_iff.1 (cfgInv_of_stateInv h)).1

theorem indices_of_stateInv {s : State} (h : stateInv s = true) :
    s.rxq.head < s.cfg.rxqSize ∧ s.rxq.tail < s.cfg.rxqSize := by
  obtain ⟨_, hring, _⟩ := stateInv_iff.1 h
  obtain ⟨hh, ht, _⟩ := indices_of_ringInv hring
  exact ⟨hh, ht⟩

/-- R26 (a), R47: the parser's write index names a byte of its buffer. -/
theorem idx_lt_of_stateInv {s : State} (h : stateInv s = true) : s.cfp.idx < s.cfg.frameCap := by
  obtain ⟨_, _, hparser, _⟩ := stateInv_iff.1 h
  simp only [parserInv, Bool.and_eq_true, decide_eq_true_eq] at hparser
  obtain ⟨⟨⟨⟨hidx, _⟩, _⟩, _⟩, _⟩ := hparser
  have hcap := (sizes_of_stateInv h).2
  unfold maxBody at hidx
  omega

/-- R81, R203: every byte is taken. -/
theorem consumeByte_ok {s : State} (h : stateInv s = true) (b : Byte) :
    ∃ t, consumeByte b s = .ok t := by
  obtain ⟨⟨o, c⟩, hc⟩ := cfpFeed_ok (idx_lt_of_stateInv h) b
  have hfeed : feedByte b s = .ok (o, setCfp c s) :=
    feedByte_eq_ok.2 ⟨storageOk_of_stateInv h, (o, c), hc, rfl⟩
  rw [consumeByte, hfeed, andThen_ok]
  cases o with
  | none => exact ⟨_, rfl⟩
  | some cmd => exact dispatchCommand_ok (fun v hv => cfpFeed_finite (hv ▸ hc)) _

theorem consumeBytes_ok {bs : List Byte} {s : State} (h : stateInv s = true) :
    ∃ t, consumeBytes bs s = .ok t := by
  induction bs generalizing s with
  | nil => exact ⟨s, rfl⟩
  | cons b bs ih =>
    obtain ⟨u, hu⟩ := consumeByte_ok h b
    rw [consumeBytes_cons, hu, andThen_ok]
    exact ih (stateInv_consumeByte h hu)

/-! ### Operations that do not fault -/

/-- The operation completes or is refused. -/
def NeverFaults {α : Type} (r : Except Stop α) : Prop := ∀ f, r ≠ .error (.fault f)

theorem neverFaults_ok {α : Type} (a : α) : NeverFaults (.ok a) := nofun

theorem neverFaults_of_ok {α : Type} {r : Except Stop α} (h : ∃ a, r = .ok a) : NeverFaults r := by
  obtain ⟨a, rfl⟩ := h
  exact neverFaults_ok a

theorem NeverFaults.refuseUnless {α : Type} {c : Bool} {why : Refusal} {k : Except Stop α}
    (h : NeverFaults k) : NeverFaults (refuseUnless c why k) :=
  fun f hf => h f (refuseUnless_eq_fault.1 hf).2

theorem NeverFaults.andThen {α β : Type} {r : Except Stop α} {g : α → Except Stop β}
    (h : NeverFaults r) (hg : ∀ a, r = .ok a → NeverFaults (g a)) : NeverFaults (andThen r g) := by
  cases r with
  | ok a => exact hg a rfl
  | error e =>
    rintro f hf
    cases hf
    exact h f rfl

theorem NeverFaults.finish {r : Except Stop State} (h : NeverFaults r) (f : Fault) :
    finish r ≠ .fault f :=
  fun hf => h f (finish_eq_fault.1 hf)

theorem neverFaults_pidInit (kp ki kd ol il al it dz : Num32) :
    NeverFaults (pidInit kp ki kd ol il al it dz) :=
  .refuseUnless (.refuseUnless (neverFaults_ok _))

theorem neverFaults_liftSetDelta (v : Num32) (s : State) : NeverFaults (liftSetDelta v s) :=
  .refuseUnless (neverFaults_ok _)

theorem neverFaults_dispatchCommand (c : Command) (s : State) : NeverFaults (dispatchCommand c s) := by
  cases c with
  | liftSetDelta v => exact neverFaults_liftSetDelta v s
  | liftManual d => exact neverFaults_ok _
  | liftStop => exact neverFaults_ok _
  | gripperOpen => exact neverFaults_ok _
  | gripperClose => exact neverFaults_ok _
  | gripperSetPosition p => exact neverFaults_ok _

theorem neverFaults_liftPid (i : Nat) (t m dt : Num32) (s : State) : NeverFaults (liftPid i t m dt s) :=
  .refuseUnless (.andThen (pidCalc_no_fault _ _ _ _ _) fun _ _ => neverFaults_ok _)

theorem neverFaults_seek (err dt : Num32) (s : State) : NeverFaults (seek err dt s) := by
  unfold seek
  cases s.cfg.cascade with
  | off => exact neverFaults_ok _
  | pos => exact .andThen (neverFaults_liftPid _ _ _ _ _) fun _ _ => neverFaults_ok _
  | posSpd =>
    exact .andThen (neverFaults_liftPid _ _ _ _ _) fun _ _ =>
      .andThen (neverFaults_liftPid _ _ _ _ _) fun _ _ => neverFaults_ok _

theorem neverFaults_liftDecide (dt : Num32) (s : State) : NeverFaults (liftDecide dt s) := by
  unfold liftDecide
  split
  · exact neverFaults_ok _
  · split_ifs
    · exact .andThen (neverFaults_seek _ _ _) fun _ _ => neverFaults_ok _
    · exact neverFaults_ok _
    · exact neverFaults_ok _

theorem neverFaults_liftUpdate (dt : Num32) (s : State) : NeverFaults (liftUpdate dt s) :=
  .refuseUnless (.refuseUnless (neverFaults_liftDecide _ _))

theorem neverFaults_encSample (cnt : Nat) (dt : Num32) (s : State) : NeverFaults (encSample cnt dt s) :=
  .refuseUnless (.refuseUnless (.refuseUnless (neverFaults_ok _)))

theorem neverFaults_tickService (now cnt : Nat) (s : State) : NeverFaults (tickService now cnt s) :=
  .andThen (neverFaults_encSample _ _ _) fun _ _ => neverFaults_liftUpdate _ _

theorem neverFaults_idlePass (now cnt : Nat) (s : State) : NeverFaults (idlePass now cnt s) := by
  unfold idlePass
  split
  · exact neverFaults_tickService _ _ _
  · exact neverFaults_ok _

section Legal

variable {s : State} (h : stateInv s = true)
include h

theorem neverFaults_pushByte (b : Byte) : NeverFaults (pushByte b s) :=
  .refuseUnless (.andThen (neverFaults_of_ok (rxqPush_ok (indices_of_stateInv h).1 b)) fun _ _ =>
    neverFaults_ok _)

theorem neverFaults_popByte : NeverFaults (popByte s) :=
  .refuseUnless (.andThen (neverFaults_of_ok (rxqPop_ok (indices_of_stateInv h).2)) fun _ _ =>
    neverFaults_ok _)

theorem neverFaults_feedByte (b : Byte) : NeverFaults (feedByte b s) :=
  .refuseUnless (.andThen (neverFaults_of_ok (cfpFeed_ok (idx_lt_of_stateInv h) b)) fun _ _ =>
    neverFaults_ok _)

theorem neverFaults_consumeByte (b : Byte) : NeverFaults (consumeByte b s) :=
  neverFaults_of_ok (consumeByte_ok h b)

theorem neverFaults_consumeBytes (bs : List Byte) : NeverFaults (consumeBytes bs s) :=
  neverFaults_of_ok (consumeBytes_ok h)

/-- R203: a pass over a waiting byte completes, with the byte taken from a ring whose tail has moved. -/
theorem mainStep_ok_of_waiting (now cnt : Nat) (hne : s.rxq.head ≠ s.rxq.tail) :
    ∃ t, mainStep now cnt s = .ok t ∧
      consumeByte (memRead s.rxq.buf s.rxq.tail)
        (setRxq { s.rxq with tail := ringNext s.cfg.rxqSize s.rxq.tail } s) = .ok t := by
  have hpop := rxqPop_of_waiting (indices_of_stateInv h).2 hne
  obtain ⟨t, ht⟩ := consumeByte_ok (stateInv_rxqPop h hpop) (memRead s.rxq.buf s.rxq.tail)
  exact ⟨t, (mainStep_of_pop now cnt hpop).trans ht, ht⟩

theorem neverFaults_mainStep (now cnt : Nat) : NeverFaults (mainStep now cnt s) := by
  by_cases he : s.rxq.head = s.rxq.tail
  · rw [mainStep_of_empty now cnt (storageOk_of_stateInv h) he]
    exact neverFaults_idlePass now cnt s
  · obtain ⟨t, ht, _⟩ := mainStep_ok_of_waiting h now cnt he
    exact neverFaults_of_ok ⟨t, ht⟩

end Legal

end Sys2Proof.Machine
end

section
/-! The settled statements on the schedule, the ring, the frame buffer and what an operation may emit. -/

namespace Sys2Proof.Machine

/-- Settles O6: the passes take the bytes in order, and no byte reads the ring or the schedule. -/
theorem drainFeedsTheParserInOrder : Obligations.DrainFeedsTheParserInOrder := by
  intro s bs more ins es h hbytes hlen hsched
  obtain ⟨hh, ht⟩ := indices_of_stateInv h
  exact run_mainPasses hh ht hbytes hlen hsched

/-- Settles O43, by the branch the tick takes: the hooks are those of its FSM evaluation, where it makes
one, and only arrival notifies. -/
theorem oneActuatorEventPerTick : Obligations.OneActuatorEventPerTick := by
  intro s t dt h
  rw [exec_liftUpdate, finish_eq_next] at h
  obtain ⟨_, _, h⟩ := liftUpdate_eq_ok.1 h
  have hstops := fsmHooks_cases false s.fsm
  have hseeks := fsmHooks_cases true s.fsm
  rw [fsmNext_false] at hstops
  rw [fsmNext_true] at hseeks
  obtain ⟨d, _, rfl⟩ | ⟨_, _, _, d, u, hu, rfl⟩ | ⟨_, _, _, rfl⟩ | ⟨_, _, rfl⟩ := liftDecide_cases h
  · exact ⟨[], d, [], by simp, .inl ⟨rfl, rfl⟩, .inl rfl⟩
  · rw [seek_frame hu]
    exact ⟨fsmHooks true s.fsm, d, [], by simp, by simpa using hseeks, .inl rfl⟩
  · exact ⟨fsmHooks false s.fsm, .stop, [.notify (notifyBytes s.cfg.lineTerm)], by simp,
      by simpa using hstops, .inr ⟨rfl, rfl⟩⟩
  · exact ⟨fsmHooks false s.fsm, .stop, [], by simp, by simpa using hstops, .inl rfl⟩

/-- Settles O44: one case per instruction; what takes bytes is `consumeByte`, and what remains writes the
FSM and the trace not at all or emits one event of another kind. -/
theorem onlyTheTickDrivesTheActuator : Obligations.OnlyTheTickDrivesTheActuator := by
  intro s t i h hlift htick hfsm hreset hmain
  show QuietFrom s t
  cases i with
  | legStop => exact quietFrom_consumeByte (finish_eq_next.1 h)
  | legUp => exact quietFrom_consumeByte (finish_eq_next.1 h)
  | legDown => exact quietFrom_consumeByte (finish_eq_next.1 h)
  | sof => exact quietFrom_consumeByte (finish_eq_next.1 h)
  | eof => exact quietFrom_consumeByte (finish_eq_next.1 h)
  | fLifter r => exact quietFrom_consumeBytes (finish_eq_next.1 h)
  | fGripOpen r => exact quietFrom_consumeBytes (finish_eq_next.1 h)
  | fGripClose r => exact quietFrom_consumeBytes (finish_eq_next.1 h)
  | fGripPos r => exact quietFrom_consumeBytes (finish_eq_next.1 h)
  | notify => cases h; exact quietFrom_emit rfl rfl s
  | rxqPush b =>
    obtain ⟨_, r, _, rfl⟩ := pushByte_eq_ok.1 (finish_eq_next.1 h)
    exact .of_eq rfl rfl
  | rxqPop =>
    rw [exec_rxqPop, finish_eq_next, andThen_eq_ok] at h
    obtain ⟨p, hp, h⟩ := h
    obtain ⟨_, q, _, rfl⟩ := popByte_eq_ok.1 hp
    cases h
    exact .of_eq rfl rfl
  | cfpFeed b =>
    rw [exec_cfpFeed, finish_eq_next, andThen_eq_ok] at h
    obtain ⟨p, hp, h⟩ := h
    obtain ⟨_, q, _, rfl⟩ := feedByte_eq_ok.1 hp
    cases h
    exact .of_eq rfl rfl
  | pidInit who j kp ki kd ol il al it dz =>
    rw [exec_pidInit, finish_eq_next, refuseUnless_eq_ok, refuseUnless_eq_ok, andThen_eq_ok] at h
    obtain ⟨_, _, p, _, h⟩ := h
    cases h
    exact .of_eq rfl rfl
  | pidCalc j tg m dt =>
    rw [exec_pidCalc, finish_eq_next, refuseUnless_eq_ok, refuseUnless_eq_ok, andThen_eq_ok] at h
    obtain ⟨_, _, q, _, h⟩ := h
    cases h
    exact .of_eq rfl rfl
  | cmdDispatch c => exact quietFrom_dispatchCommand (finish_eq_next.1 h)
  | cmdLiftSetDelta v =>
    exact quietFrom_dispatchCommand (c := .liftSetDelta v) (finish_eq_next.1 h)
  | cmdLiftManual d => cases h; exact .of_eq rfl rfl
  | cmdLiftStop => cases h; exact .of_eq rfl rfl
  | cmdGripperOpen => cases h; exact quietFrom_emit rfl rfl s
  | cmdGripperClose => cases h; exact quietFrom_emit rfl rfl s
  | cmdGripperSetPosition p => cases h; exact quietFrom_emit rfl rfl s
  | liftUpdate dt => exact absurd rfl (hlift dt)
  | fsmEval x => exact absurd rfl (hfsm x)
  | encSample cnt dt =>
    obtain ⟨_, _, _, rfl⟩ := encSample_eq_ok.1 (finish_eq_next.1 h)
    exact .of_eq rfl rfl
  | tickIrq => cases h; exact .of_eq rfl rfl
  | mainStep now cnt => exact quietFrom_mainStep (hmain ⟨now, cnt, rfl⟩) (finish_eq_next.1 h)
  | tickService now cnt => exact absurd rfl (htick now cnt)
  | reset => exact absurd rfl hreset

/-- Settles O52: a waiting byte is taken, which writes the parser, LIFT and the trace alone; an empty ring
leaves the pass to the tick flag. -/
theorem mainStepTakesAByteBeforeATick : Obligations.MainStepTakesAByteBeforeATick := by
  intro s now cnt
  refine ⟨fun h hne => ?_, fun hs he hf => ?_, fun hs he hf => ?_⟩
  · obtain ⟨t, ht, hb⟩ := mainStep_ok_of_waiting h now cnt hne
    refine ⟨t, finish_eq_next.2 ht, ?_⟩
    rw [consumeByte_frame hb]
    exact ⟨rfl, rfl, rfl, rfl, rfl⟩
  · rw [exec_mainStep, mainStep_of_empty now cnt hs he, idlePass, if_pos hf]
    rfl
  · rw [exec_mainStep, mainStep_of_empty now cnt hs he, idlePass, hf]
    rfl

/-- Settles O58: one case per instruction; only the ring and the parser can fault, and their indices are
legal. -/
theorem goodStatesNeverFault : Obligations.GoodStatesNeverFault := by
  intro i s f h
  cases i with
  | legStop => exact (neverFaults_consumeByte h _).finish f
  | legUp => exact (neverFaults_consumeByte h _).finish f
  | legDown => exact (neverFaults_consumeByte h _).finish f
  | sof => exact (neverFaults_consumeByte h _).finish f
  | eof => exact (neverFaults_consumeByte h _).finish f
  | fLifter r => exact (neverFaults_consumeBytes h _).finish f
  | fGripOpen r => exact (neverFaults_consumeBytes h _).finish f
  | fGripClose r => exact (neverFaults_consumeBytes h _).finish f
  | fGripPos r => exact (neverFaults_consumeBytes h _).finish f
  | rxqPush b => exact (neverFaults_pushByte h b).finish f
  | rxqPop =>
    exact ((neverFaults_popByte h).andThen fun _ _ => neverFaults_ok _).finish f
  | cfpFeed b =>
    exact ((neverFaults_feedByte h b).andThen fun _ _ => neverFaults_ok _).finish f
  | pidInit who j kp ki kd ol il al it dz =>
    have hinit := neverFaults_pidInit kp ki kd ol il al it dz
    exact NeverFaults.finish (.refuseUnless (.refuseUnless (hinit.andThen fun _ _ => neverFaults_ok _))) f
  | pidCalc j tg m dt =>
    have hcalc : NeverFaults (pidCalc s.cfg (getPid j s) tg m dt) := pidCalc_no_fault _ _ _ _ _
    exact NeverFaults.finish (.refuseUnless (.refuseUnless (hcalc.andThen fun _ _ => neverFaults_ok _))) f
  | cmdDispatch c => exact (neverFaults_dispatchCommand c s).finish f
  | cmdLiftSetDelta v => exact (neverFaults_liftSetDelta v s).finish f
  | liftUpdate dt => exact (neverFaults_liftUpdate dt s).finish f
  | encSample cnt dt => exact (neverFaults_encSample cnt dt s).finish f
  | mainStep now cnt => exact (neverFaults_mainStep h now cnt).finish f
  | tickService now cnt => exact (neverFaults_tickService now cnt s).finish f
  | notify => exact nofun
  | cmdLiftManual d => exact nofun
  | cmdLiftStop => exact nofun
  | cmdGripperOpen => exact nofun
  | cmdGripperClose => exact nofun
  | cmdGripperSetPosition p => exact nofun
  | fsmEval x => exact nofun
  | tickIrq => exact nofun
  | reset => exact nofun

/-- Settles O4: the scheduled event's operation, one clause per agent, and the free pass. -/
theorem stepRunsTheScheduledOperation : Obligations.StepRunsTheScheduledOperation :=
  ⟨fun _ _ _ => step_of_sched_cons, fun _ _ => step_of_sched_cons, fun _ _ _ _ => step_of_sched_cons,
    fun _ _ _ _ _ _ _ _ _ _ _ _ => step_of_sched_cons, fun _ _ _ _ _ _ => step_of_sched_cons,
    fun _ => step_of_sched_nil⟩

/-- Settles O7, by whether the ring is full. -/
theorem pushStoresThenPublishes : Obligations.PushStoresThenPublishes := by
  intro s b hs hh hw
  refine ⟨fun hfull => ?_, fun hroom => ⟨?_, memRead_memWrite_same hw _ b, fun a ha =>
    memRead_memWrite_other _ b ha⟩⟩
  · rw [exec_rxqPush, pushByte_of_ok hs (rxqPush_of_full hfull b), setRxq_self, finish_ok]
  · rw [exec_rxqPush, pushByte_of_ok hs (rxqPush_of_room hh hroom b), finish_ok]
    rfl

/-- Settles O8, by whether the ring is empty. -/
theorem popReturnsTheByteAtTheTail : Obligations.PopReturnsTheByteAtTheTail := by
  intro s hs ht
  refine ⟨fun he => ?_, fun hne => ?_⟩
  · rw [exec_rxqPop, popByte_of_ok hs (rxqPop_of_empty he), andThen_ok, finish_ok, setRxq_self]
  · rw [exec_rxqPop, popByte_of_ok hs (rxqPop_of_waiting ht hne), andThen_ok, finish_ok]
    rfl

/-- Settles O20: the NUL stands after the body, and outside both every byte reads as before. -/
theorem frameBufferAfterAFrame : Obligations.FrameBufferAfterAFrame := by
  intro c body k hw
  refine ⟨?_, ?_, rfl, rfl⟩
  · unfold afterFrame
    split_ifs with hbody hnul
    · have hread := memRead_memWriteList_at hw 0 body hbody
      rw [Nat.zero_add] at hread
      rw [memRead_memWrite_other _ _ hbody.ne, hread]
    · rw [hnul, memRead_memWrite_same (memWf_memWriteList 0 body hw)]
    · rw [memRead_memWrite_other _ _ hnul, memRead_memWriteList_other _ _ (by omega)]
  · rw [afterFrame, memSlice_memWrite _ _ le_rfl, memSlice_memWriteList hw]

end Sys2Proof.Machine
end

section
/-! SUPPORT. The wire decoder and the encoder: what ends a frame, which instruction a body is, what a first
byte decodes to, and everything `decode` can answer. -/

namespace Sys2Proof.Machine

/-! ### Frames -/

theorem bodyClean_cons {b : Byte} {bs : List Byte} :
    bodyClean (b :: bs) = true ↔ b ≠ chSof ∧ b ≠ chEof ∧ bodyClean bs = true := by
  simp [bodyClean, and_assoc]

/-- R62: a clean body is read up to its terminator. -/
theorem splitFrame_of_bodyClean {body : List Byte} (h : bodyClean body = true) (rest : List Byte) :
    splitFrame (body ++ chEof :: rest) = some (body, rest) := by
  induction body with
  | nil => simp [splitFrame]
  | cons b body ih =>
    obtain ⟨hsof, heof, hbody⟩ := bodyClean_cons.1 h
    simp [splitFrame, hsof, heof, ih hbody]

/-- R68: what is read up to a terminator is a clean body, its terminator and the rest. -/
theorem splitFrame_eq_some {bs body rest : List Byte} (h : splitFrame bs = some (body, rest)) :
    bodyClean body = true ∧ bs = body ++ chEof :: rest := by
  induction bs generalizing body with
  | nil => cases h
  | cons b bs ih =>
    unfold splitFrame at h
    split_ifs at h with heof hsof
    · cases h
      exact ⟨rfl, by rw [heof]; rfl⟩
    · split at h
      · rename_i tail after hs
        cases h
        obtain ⟨hclean, rfl⟩ := ih hs
        exact ⟨bodyClean_cons.2 ⟨hsof, heof, hclean⟩, rfl⟩
      · cases h

/-- A frame's bytes before others: the start delimiter, the body, the terminator, the others. -/
theorem frameBytes_append (body rest : List Byte) :
    frameBytes body ++ rest = chSof :: (body ++ chEof :: rest) := by
  simp [frameBytes]

/-! ### Literals -/

/-- A body that begins with one literal does not begin with another, where neither literal begins the other;
among R63's four none does. -/
theorem stripLit_append_eq_none {p q : List Byte} (hpq : ¬ p <+: q) (hqp : ¬ q <+: p) (r : List Byte) :
    stripLit p (q ++ r) = none := by
  rw [Option.eq_none_iff_forall_ne_some]
  intro t ht
  obtain ⟨a, hq, _⟩ | ⟨a, hp, _⟩ :=
    List.append_eq_append_iff.1 ((stripLit_eq_some_iff _ _ _).1 ht).symm
  · exact hpq ⟨a, hq.symm⟩
  · exact hqp ⟨a, hp.symm⟩

@[simp] theorem stripLit_append_self (lit r : List Byte) : stripLit lit (lit ++ r) = some r :=
  (stripLit_eq_some_iff _ _ _).2 rfl

/-- Taking a literal off has no answer exactly where the literal does not begin the body. -/
theorem stripLit_eq_none_iff {lit s : List Byte} : stripLit lit s = none ↔ ∀ r, s ≠ lit ++ r := by
  simp [Option.eq_none_iff_forall_ne_some, stripLit_eq_some_iff]

/-! ### Frame instructions -/

/-- A body is the body of the instruction it is read as, and of no other. -/
theorem frameOf_eq_some_iff {i : Instr} {body : List Byte} :
    frameOf body = some i ↔ frameBody i = some body := by
  refine ⟨frameBody_of_frameOf, fun h => ?_⟩
  obtain ⟨r, ⟨rfl, rfl⟩ | ⟨rfl, rfl⟩ | ⟨rfl, rfl⟩ | ⟨rfl, rfl⟩⟩ := frameBody_cases h
  all_goals simp (disch := decide) only [frameOf, stripLit_append_eq_none, stripLit_append_self]

/-- R99: a body is no frame instruction's exactly when none of the four literals begins it. -/
theorem frameOf_eq_none_iff {body : List Byte} :
    frameOf body = none ↔
      ∀ lit ∈ [litLifter, litGripOpen, litGripClose, litGripPos], ∀ r, body ≠ lit ++ r := by
  constructor
  · rintro h lit hlit r rfl
    have hbody (i : Instr) : frameBody i ≠ some (lit ++ r) := fun hi => by
      rw [frameOf_eq_some_iff.2 hi] at h; cases h
    simp only [List.mem_cons, List.not_mem_nil, or_false] at hlit
    obtain rfl | rfl | rfl | rfl := hlit
    · exact hbody (.fLifter r) rfl
    · exact hbody (.fGripOpen r) rfl
    · exact hbody (.fGripClose r) rfl
    · exact hbody (.fGripPos r) rfl
  · intro h
    rw [Option.eq_none_iff_forall_ne_some]
    intro i hi
    obtain ⟨r, ⟨_, hbody⟩ | ⟨_, hbody⟩ | ⟨_, hbody⟩ | ⟨_, hbody⟩⟩ :=
      frameBody_cases (frameOf_eq_some_iff.1 hi)
    all_goals exact h _ (by simp) r hbody

/-- R62: a frame instruction is written as its body between the delimiters, and read in both parser
states. -/
theorem encode_of_frameBody {i : Instr} {body : List Byte} (h : frameBody i = some body) (st : CfpState) :
    encode i = some (frameBytes body) ∧ decodableIn st i = true := by
  obtain ⟨r, ⟨rfl, rfl⟩ | ⟨rfl, rfl⟩ | ⟨rfl, rfl⟩ | ⟨rfl, rfl⟩⟩ := frameBody_cases h
  all_goals exact ⟨rfl, rfl⟩

/-- R60: a frame instruction whose body is clean and fits the frame buffer is well formed. -/
theorem wellFormed_of_bodyClean {cfg : Params} {i : Instr} {body : List Byte}
    (h : frameBody i = some body) (hclean : bodyClean body = true) (hlen : body.length ≤ maxBody cfg) :
    wellFormed cfg i = true := by
  have fits {lit r : List Byte} (hc : bodyClean (lit ++ r) = true)
      (hl : (lit ++ r).length ≤ maxBody cfg) : operandFits (maxBody cfg) lit r = true := by
    rw [bodyClean_append, Bool.and_eq_true] at hc
    rw [operandFits, hc.2, Bool.true_and, decide_eq_true hl]
  obtain ⟨r, ⟨rfl, rfl⟩ | ⟨rfl, rfl⟩ | ⟨rfl, rfl⟩ | ⟨rfl, rfl⟩⟩ := frameBody_cases h
  all_goals exact fits hclean hlen

/-! ### Single bytes -/

/-- What a byte decodes to where nothing is captured: the instructions written as one byte, each in the
parser states that admit it (R61, R64). -/
theorem decodeAt_eq_ok {st : CfpState} {b : Byte} {i : Instr} (h : decodeAt st [] b = .ok i) :
    encode i = some [b] ∧ decodableIn st i = true ∧ ∀ cfg, wellFormed cfg i = true := by
  cases st with
  | idle =>
    simp only [decodeAt] at h
    split_ifs at h with hsof hstop hup hdown
    · cases h; exact ⟨by rw [hsof]; rfl, rfl, fun _ => rfl⟩
    · cases h; exact ⟨by rw [hstop]; rfl, rfl, fun _ => rfl⟩
    · cases h; exact ⟨by rw [hup]; rfl, rfl, fun _ => rfl⟩
    · cases h; exact ⟨by rw [hdown]; rfl, rfl, fun _ => rfl⟩
  | capturing =>
    simp only [decodeAt, show frameOf [] = none from rfl] at h
    split_ifs at h with hsof heof
    · cases h; exact ⟨by rw [hsof]; rfl, rfl, fun _ => rfl⟩
    · cases h; exact ⟨by rw [heof]; rfl, rfl, fun _ => rfl⟩

/-- The instructions a parser state admits: a whole frame, the start delimiter, or another byte that
decodes to it (R61, R62, R64). -/
theorem decodableIn_cases {st : CfpState} {i : Instr} (h : decodableIn st i = true) :
    (∃ body, frameBody i = some body) ∨ i = .sof ∨
      ∃ b, b ≠ chSof ∧ encode i = some [b] ∧ decodeAt st [] b = .ok i := by
  cases i with
  | fLifter r => exact .inl ⟨_, rfl⟩
  | fGripOpen r => exact .inl ⟨_, rfl⟩
  | fGripClose r => exact .inl ⟨_, rfl⟩
  | fGripPos r => exact .inl ⟨_, rfl⟩
  | sof => exact .inr (.inl rfl)
  | legStop => obtain rfl := of_decide_eq_true h; exact .inr (.inr ⟨opStop, by decide, rfl, rfl⟩)
  | legUp => obtain rfl := of_decide_eq_true h; exact .inr (.inr ⟨opUp, by decide, rfl, rfl⟩)
  | legDown => obtain rfl := of_decide_eq_true h; exact .inr (.inr ⟨opDown, by decide, rfl, rfl⟩)
  | eof => obtain rfl := of_decide_eq_true h; exact .inr (.inr ⟨chEof, by decide, rfl, rfl⟩)
  | _ => cases h

/-! ### Byte streams -/

/-- R62: a whole frame that fits decodes to the instruction its body is. -/
theorem decode_frame {n : Nat} {st : CfpState} {i : Instr} {body : List Byte}
    (h : frameBody i = some body) (hclean : bodyClean body = true) (hlen : body.length ≤ n)
    (rest : List Byte) : decode n st (frameBytes body ++ rest) = .ok (i, rest) := by
  rw [frameBytes_append]
  simp [decode, splitFrame_of_bodyClean hclean, hlen, frameOf_eq_some_iff.2 h]

/-- R64: a byte other than the start delimiter decodes by itself. -/
theorem decode_byte {n : Nat} {st : CfpState} {b : Byte} (hsof : b ≠ chSof) (rest : List Byte) :
    decode n st (b :: rest) = (decodeAt st [] b).map (·, rest) := by
  simp only [decode, if_neg hsof]
  cases decodeAt st [] b <;> rfl

/-- Everything `decode` can answer: a whole frame that fits, a lone start delimiter, or another byte. -/
theorem decode_cases {n : Nat} {st : CfpState} {i : Instr} {bs rest : List Byte}
    (h : decode n st bs = .ok (i, rest)) :
    (∃ body, frameBody i = some body ∧ bodyClean body = true ∧ body.length ≤ n ∧
      bs = frameBytes body ++ rest) ∨
    (i = .sof ∧ bs = chSof :: rest) ∨
    ∃ b, decodeAt st [] b = .ok i ∧ bs = b :: rest := by
  cases bs with
  | nil => cases h
  | cons b bs =>
    by_cases hsof : b = chSof
    · subst hsof
      simp only [decode, if_true] at h
      split at h
      · rename_i body after hs
        obtain ⟨hclean, rfl⟩ := splitFrame_eq_some hs
        split_ifs at h with hlen
        · split at h
          · rename_i hf
            cases h
            exact .inl ⟨body, frameOf_eq_some_iff.1 hf, hclean, hlen, (frameBytes_append _ _).symm⟩
          · cases h; exact .inr (.inl ⟨rfl, rfl⟩)
        · cases h; exact .inr (.inl ⟨rfl, rfl⟩)
      · cases h; exact .inr (.inl ⟨rfl, rfl⟩)
    · rw [decode_byte hsof] at h
      cases hd : decodeAt st [] b with
      | error e => rw [hd] at h; cases h
      | ok j => rw [hd] at h; cases h; exact .inr (.inr ⟨b, hd, rfl⟩)

end Sys2Proof.Machine
end

section
/-! SUPPORT. What a body matches (R90), and the byte that ends its capture. -/

namespace Sys2Proof.Machine

/-! ### The effective body -/

/-- R92: the effective body is the longest part from the start without a `00`. -/
theorem effBody_maximal (body : List Byte) :
    0x00 ∉ effBody body ∧
      ∃ hidden, body = effBody body ++ hidden ∧ (hidden = [] ∨ hidden.head? = some 0x00) := by
  refine ⟨fun h => ?_, body.dropWhile fun b => decide (b ≠ 0x00),
    List.takeWhile_append_dropWhile.symm, ?_⟩
  · simpa using List.mem_takeWhile_imp h
  · have hhead := List.head?_dropWhile_not (fun b : Byte => decide (b ≠ 0x00)) body
    cases hd : body.dropWhile fun b => decide (b ≠ 0x00) with
    | nil => exact .inl rfl
    | cons b bs =>
      rw [hd] at hhead
      exact .inr (congrArg some (not_not.1 (of_decide_eq_false hhead)))

/-! ### What a body matches -/

/-- R95, R96: what follows the literal decides only with `EXACT`. -/
theorem gripMatch_append (m : BodyMatch) (lit r : List Byte) :
    gripMatch m (lit ++ r) lit = decide (m = .byPrefix ∨ r = []) := by
  cases m <;> simp [gripMatch]

/-- A body that does not begin with the literal does not match it. -/
theorem gripMatch_eq_false {lit s : List Byte} (h : stripLit lit s = none) (m : BodyMatch) :
    gripMatch m s lit = false := by
  cases m with
  | byPrefix => simp [gripMatch, h]
  | byWhole => simpa [gripMatch] using stripLit_eq_none_iff.1 h []

theorem gripMatch_append_eq_false {p q : List Byte} (hpq : ¬ p <+: q) (hqp : ¬ q <+: p) (m : BodyMatch)
    (r : List Byte) : gripMatch m (q ++ r) p = false :=
  gripMatch_eq_false (stripLit_append_eq_none hpq hqp r) m

section Literals

variable (cfg : Params) (r : List Byte)

/-- R93: a lifter body gives the delta its numeral spells. -/
theorem matchBody_litLifter :
    matchBody cfg (litLifter ++ r) = (parseDec (effBody r)).map Command.liftSetDelta := by
  rw [matchBody, effBody_append (by decide), matchEff]
  simp only [stripLit_append_self]

/-- R95: an open body gives its command, with `EXACT` only where nothing visible follows. -/
theorem matchBody_litGripOpen :
    matchBody cfg (litGripOpen ++ r) =
      if cfg.bodyMatch = .byPrefix ∨ effBody r = [] then some .gripperOpen else none := by
  rw [matchBody, effBody_append (by decide), matchEff]
  simp (disch := decide) only [stripLit_append_eq_none, gripMatch_append, decide_eq_true_eq,
    gripMatch_append_eq_false, Bool.false_eq_true, if_false]

/-- R96: a close body likewise. -/
theorem matchBody_litGripClose :
    matchBody cfg (litGripClose ++ r) =
      if cfg.bodyMatch = .byPrefix ∨ effBody r = [] then some .gripperClose else none := by
  rw [matchBody, effBody_append (by decide), matchEff]
  simp (disch := decide) only [stripLit_append_eq_none, gripMatch_append, decide_eq_true_eq,
    gripMatch_append_eq_false, Bool.false_eq_true, if_false]

/-- R98: a position body gives the integer its numeral spells. -/
theorem matchBody_litGripPos :
    matchBody cfg (litGripPos ++ r) =
      (parseInt cfg.gripPosBits (effBody r)).map Command.gripperSetPosition := by
  rw [matchBody, effBody_append (by decide), matchEff]
  simp (disch := decide) only [stripLit_append_eq_none, gripMatch_append_eq_false, Bool.false_eq_true,
    if_false, stripLit_append_self]

end Literals

/-- R99: a body that begins with none of the four literals matches nothing, for its effective part begins
with none of them either. -/
theorem matchBody_eq_none (cfg : Params) {body : List Byte}
    (h : ∀ lit ∈ [litLifter, litGripOpen, litGripClose, litGripPos], ∀ r, body ≠ lit ++ r) :
    matchBody cfg body = none := by
  obtain ⟨_, hidden, hbody, _⟩ := effBody_maximal body
  have hstrip {lit : List Byte} (hlit : lit ∈ [litLifter, litGripOpen, litGripClose, litGripPos]) :
      stripLit lit (effBody body) = none :=
    stripLit_eq_none_iff.2 fun r hr =>
      h lit hlit (r ++ hidden) (by rw [← List.append_assoc, ← hr]; exact hbody)
  rw [matchBody, matchEff]
  simp only [hstrip (lit := litLifter) (by simp), hstrip (lit := litGripPos) (by simp),
    gripMatch_eq_false (hstrip (lit := litGripOpen) (by simp)),
    gripMatch_eq_false (hstrip (lit := litGripClose) (by simp)), Bool.false_eq_true, if_false]

/-! ### Where a command comes from -/

/-- R100: the parser answers a command for a legacy opcode while `Idle`, which leaves it as it is, and for
the terminator of a body that matches. -/
theorem cfpFeed_command {cfg : Params} {b : Byte} {c c' : Cfp} {cmd : Command}
    (h : cfpFeed cfg b c = .ok (some cmd, c')) :
    (c.st = .idle ∧ c' = c ∧
      ((b = 0x00 ∧ cmd = .liftStop) ∨ (b = 0x01 ∧ cmd = .liftManual .up) ∨
        (b = 0x02 ∧ cmd = .liftManual .down))) ∨
    (c.st = .capturing ∧ b = 0x23 ∧ c'.st = .idle ∧ c'.idx = 0 ∧
      matchBody cfg (memSlice c.buf c.idx) = some cmd) := by
  cases hst : c.st with
  | idle =>
    rw [cfpFeed_idle hst] at h
    split_ifs at h with hsof hstop hup hdown <;> cases h
    · exact .inl ⟨rfl, rfl, .inl ⟨hstop, rfl⟩⟩
    · exact .inl ⟨rfl, rfl, .inr (.inl ⟨hup, rfl⟩)⟩
    · exact .inl ⟨rfl, rfl, .inr (.inr ⟨hdown, rfl⟩)⟩
  | capturing =>
    rw [cfpFeed_capturing hst] at h
    split_ifs at h with hsof heof hidx hroom <;>
      simp only [Except.ok.injEq, Prod.mk.injEq, reduceCtorEq, false_and] at h
    obtain ⟨hmatch, rfl⟩ := h
    exact .inr ⟨rfl, heof, rfl, rfl, hmatch⟩

/-! ### The terminator -/

/-- The parser after a terminator while `Capturing`: the NUL stored, `Idle` at index 0 (R86). -/
def endCapture (c : Cfp) : Cfp := { st := .idle, buf := memWrite c.buf c.idx 0x00, idx := 0 }

/-- R86: the terminator answers what the captured body matches and ends the capture. -/
theorem cfpFeed_eof_capturing {cfg : Params} {c : Cfp} (hst : c.st = .capturing)
    (hidx : c.idx < cfg.frameCap) :
    cfpFeed cfg chEof c = .ok (matchBody cfg (memSlice c.buf c.idx), endCapture c) := by
  rw [cfpFeed_capturing hst, if_neg (by decide), if_pos rfl, if_pos hidx, endCapture]

section Terminator

variable {s : State} (hs : storageOk s.cfg = true)
include hs

/-- R89: the terminator while `Idle` is ignored. -/
theorem consumeByte_eof_idle (hst : s.cfp.st = .idle) : consumeByte chEof s = .ok s := by
  have hfeed : cfpFeed s.cfg chEof s.cfp = .ok (none, s.cfp) := by
    rw [cfpFeed_idle hst, if_neg (by decide), if_neg (by decide), if_neg (by decide), if_neg (by decide)]
  simp [consumeByte, feedByte, hs, hfeed, setCfp_self]

/-- R86, R203: the command of a body that matches is dispatched as the capture ends. -/
theorem consumeByte_eof_some (hst : s.cfp.st = .capturing) (hidx : s.cfp.idx < s.cfg.frameCap)
    {cmd : Command} (h : matchBody s.cfg (memSlice s.cfp.buf s.cfp.idx) = some cmd) :
    consumeByte chEof s = dispatchCommand cmd (setCfp (endCapture s.cfp) s) := by
  simp [consumeByte, feedByte, hs, cfpFeed_eof_capturing hst hidx, h]

/-- R86, R99: a body that matches nothing is dropped as the capture ends. -/
theorem consumeByte_eof_none (hst : s.cfp.st = .capturing) (hidx : s.cfp.idx < s.cfg.frameCap)
    (h : matchBody s.cfg (memSlice s.cfp.buf s.cfp.idx) = none) :
    consumeByte chEof s = .ok (setCfp (endCapture s.cfp) s) := by
  simp [consumeByte, feedByte, hs, cfpFeed_eof_capturing hst hidx, h]

/-- In both cases the terminator completes and leaves the parser as `endCapture` says: a command that a
body matches can be dispatched, and no dispatch writes the parser. -/
theorem consumeByte_eof_ok (hst : s.cfp.st = .capturing) (hidx : s.cfp.idx < s.cfg.frameCap) :
    ∃ t, consumeByte chEof s = .ok t ∧ t.cfp = endCapture s.cfp := by
  cases hm : matchBody s.cfg (memSlice s.cfp.buf s.cfp.idx) with
  | none => exact ⟨_, consumeByte_eof_none hs hst hidx hm, rfl⟩
  | some cmd =>
    obtain ⟨t, ht⟩ := dispatchCommand_ok (c := cmd) (s := setCfp (endCapture s.cfp) s)
      fun v hv => matchBody_finite (hv ▸ hm)
    refine ⟨t, (consumeByte_eof_some hs hst hidx hm).trans ht, ?_⟩
    rw [dispatchCommand_frame ht]
    rfl

end Terminator

end Sys2Proof.Machine
end

section
/-! SUPPORT. The numerals: their digits, their sign, and the `DEC` value they spell. -/

namespace Sys2Proof.Machine

/-! ### Digits -/

@[simp] theorem digitOf_asciiDigit (d : Fin 10) : digitOf (asciiDigit d) = some d.val := by
  revert d; decide

/-- A byte that spells a digit is that digit's byte. -/
theorem eq_asciiDigit_of_digitOf {b : Byte} {n : Nat} (h : digitOf b = some n) :
    ∃ d : Fin 10, b = asciiDigit d := by
  unfold digitOf at h
  split_ifs at h with hb
  refine ⟨⟨b.toNat - 0x30, by omega⟩, BitVec.eq_of_toNat_eq ?_⟩
  rw [asciiDigit, BitVec.toNat_ofNat]
  dsimp only
  omega

/-- No digit begins the byte string, so a run of digits before it ends there. -/
def BeginsWithNoDigit (t : List Byte) : Prop := t.head?.bind digitOf = none

theorem beginsWithNoDigit_nil : BeginsWithNoDigit [] := rfl

theorem beginsWithNoDigit_cons {b : Byte} {t : List Byte} :
    BeginsWithNoDigit (b :: t) ↔ digitOf b = none := Iff.rfl

/-- Every byte string is a run of digits and a rest that no digit begins. -/
theorem exists_digits_append (t : List Byte) :
    ∃ (ds : List (Fin 10)) (rest : List Byte),
      t = ds.map asciiDigit ++ rest ∧ BeginsWithNoDigit rest := by
  induction t with
  | nil => exact ⟨[], [], rfl, beginsWithNoDigit_nil⟩
  | cons b t ih =>
    cases hb : digitOf b with
    | none => exact ⟨[], b :: t, rfl, beginsWithNoDigit_cons.2 hb⟩
    | some n =>
      obtain ⟨d, rfl⟩ := eq_asciiDigit_of_digitOf hb
      obtain ⟨ds, rest, rfl, hrest⟩ := ih
      exact ⟨d :: ds, rest, rfl, hrest⟩

theorem digitsValue_append_singleton (ds : List (Fin 10)) (d : Fin 10) :
    digitsValue (ds ++ [d]) = digitsValue ds * 10 + d.val := List.foldl_append

/-- A run of digits is read to its end, on top of the digits `ds` that came before it. -/
theorem splitDigits_after (ds fs : List (Fin 10)) (k : Nat) {rest : List Byte}
    (h : BeginsWithNoDigit rest) :
    splitDigits (digitsValue ds, k) (fs.map asciiDigit ++ rest) =
      ((digitsValue (ds ++ fs), k + fs.length), rest) := by
  induction fs generalizing ds k with
  | nil =>
    cases rest with
    | nil => simp [splitDigits]
    | cons b rest => simp [splitDigits, beginsWithNoDigit_cons.1 h]
  | cons d fs ih =>
    have hnext := ih (ds ++ [d]) (k + 1)
    rw [digitsValue_append_singleton] at hnext
    simp [splitDigits, hnext, Nat.add_assoc, Nat.add_comm 1]

/-- A run of digits is read to its end. -/
theorem splitDigits_digits (ds : List (Fin 10)) {rest : List Byte} (h : BeginsWithNoDigit rest) :
    splitDigits (0, 0) (ds.map asciiDigit ++ rest) = ((digitsValue ds, ds.length), rest) :=
  (splitDigits_after [] ds 0 h).trans (by simp)

/-! ### Signs -/

/-- Every byte string is an optional sign and what `splitSign` leaves. -/
theorem exists_sign_append (t : List Byte) :
    ∃ (sg : Option Bool) (rest : List Byte),
      t = signBytes sg ++ rest ∧ splitSign t = (signNeg sg, rest) := by
  cases t with
  | nil => exact ⟨none, [], rfl, rfl⟩
  | cons b t =>
    simp only [splitSign]
    split_ifs with hminus hplus
    · exact ⟨some true, t, by rw [hminus]; rfl, rfl⟩
    · exact ⟨some false, t, by rw [hplus]; rfl, rfl⟩
    · exact ⟨none, b :: t, rfl, rfl⟩

theorem asciiDigit_ne_sign (d : Fin 10) : asciiDigit d ≠ 0x2D ∧ asciiDigit d ≠ 0x2B := by
  revert d; decide

/-- An optional sign before digits is taken off. -/
theorem splitSign_digits (sg : Option Bool) {ds : List (Fin 10)} (h : ds ≠ []) (rest : List Byte) :
    splitSign (signBytes sg ++ (ds.map asciiDigit ++ rest)) = (signNeg sg, ds.map asciiDigit ++ rest) := by
  match sg with
  | some true => rfl
  | some false => rfl
  | none =>
    obtain ⟨d, ds, rfl⟩ := List.exists_cons_of_ne_nil h
    obtain ⟨hminus, hplus⟩ := asciiDigit_ne_sign d
    simp only [signBytes, signNeg, List.nil_append, List.map_cons, List.cons_append, splitSign,
      if_neg hminus, if_neg hplus]

/-! ### The `DEC` value -/

/-- The bytes of a `DEC` numeral (R65): an optional sign, digits, and a point with fraction digits where
there are any. -/
def decNumeral (sg : Option Bool) (ds fs : List (Fin 10)) : List Byte :=
  signBytes sg ++ ds.map asciiDigit ++ (if fs = [] then [] else 0x2E :: fs.map asciiDigit)

/-- A `DEC` numeral has the value it spells. -/
theorem decValue_decNumeral (sg : Option Bool) {ds : List (Fin 10)} (hds : ds ≠ [])
    (fs : List (Fin 10)) :
    decValue (decNumeral sg ds fs) = some (signNeg sg, digitsValue (ds ++ fs), 10 ^ fs.length) := by
  have hlen : ds.length ≠ 0 := by simpa using hds
  unfold decNumeral decValue
  rw [List.append_assoc, splitSign_digits sg hds]
  by_cases hfs : fs = []
  · subst hfs
    simp only [if_true, splitDigits_digits ds beginsWithNoDigit_nil, if_neg hlen]
    rw [List.append_nil]
    rfl
  · have hflen : fs.length ≠ 0 := by simpa using hfs
    have hpoint : BeginsWithNoDigit (0x2E :: fs.map asciiDigit) := rfl
    have hfrac := splitDigits_after ds fs 0 beginsWithNoDigit_nil
    rw [List.append_nil, Nat.zero_add] at hfrac
    simp only [if_neg hfs, splitDigits_digits ds hpoint, if_neg hlen, if_true, hfrac, if_neg hflen]

/-- A byte string with a `DEC` value is a `DEC` numeral, and the value is what it spells. -/
theorem eq_decNumeral_of_decValue {t : List Byte} {neg : Bool} {n d : Nat}
    (h : decValue t = some (neg, n, d)) :
    ∃ (sg : Option Bool) (ds fs : List (Fin 10)), ds ≠ [] ∧ neg = signNeg sg ∧
      n = digitsValue (ds ++ fs) ∧ d = 10 ^ fs.length ∧ t = decNumeral sg ds fs := by
  obtain ⟨sg, t1, rfl, hsign⟩ := exists_sign_append t
  obtain ⟨ds, t2, rfl, ht2⟩ := exists_digits_append t1
  suffices hform : ds ≠ [] ∧ ∃ fs, t2 = (if fs = [] then [] else 0x2E :: fs.map asciiDigit) by
    obtain ⟨hds, fs, rfl⟩ := hform
    rw [← List.append_assoc, ← decNumeral, decValue_decNumeral sg hds] at h
    cases h
    exact ⟨sg, ds, fs, hds, rfl, rfl, rfl, by rw [← List.append_assoc]; rfl⟩
  simp only [decValue, hsign, splitDigits_digits ds ht2] at h
  split_ifs at h with hlen
  refine ⟨fun hds => hlen (by simp [hds]), ?_⟩
  split at h
  · exact ⟨[], rfl⟩
  · rename_i b t3
    obtain ⟨fs, t4, rfl, ht4⟩ := exists_digits_append t3
    simp only [splitDigits_after ds fs 0 ht4] at h
    split_ifs at h with hpoint hfrac hend
    have hfs : fs ≠ [] := fun hfs => hfrac (by simp [hfs])
    exact ⟨fs, by rw [if_neg hfs, hend, hpoint, List.append_nil]⟩

/-- R65: the byte strings with a `DEC` value are the `DEC` numerals. -/
theorem decValue_eq_some_iff {t : List Byte} {neg : Bool} {n d : Nat} :
    decValue t = some (neg, n, d) ↔
      ∃ (sg : Option Bool) (ds fs : List (Fin 10)), ds ≠ [] ∧ neg = signNeg sg ∧
        n = digitsValue (ds ++ fs) ∧ d = 10 ^ fs.length ∧ t = decNumeral sg ds fs := by
  refine ⟨eq_decNumeral_of_decValue, ?_⟩
  rintro ⟨sg, ds, fs, hds, rfl, rfl, rfl, rfl⟩
  exact decValue_decNumeral sg hds fs

/-! ### `PARSE_DEC` -/

theorem parseDec_of_no_value {t : List Byte} (h : decValue t = none) : parseDec t = none := by
  simp [parseDec, h]

/-- The rounded number has the rounded magnitude and the numeral's sign, zero included. -/
theorem numMag_dec2n (neg : Bool) (n d : Nat) : numMag (dec2n neg n d) = roundMag n d :=
  numMag_mkNum neg (roundMag_lt n d)

theorem numSign_dec2n (neg : Bool) (n d : Nat) : numSign (dec2n neg n d) = neg :=
  numSign_mkNum neg (roundMag_lt n d)

/-- R94: a value whose rounding is finite parses to it, and no other value parses. -/
theorem parseDec_of_value {t : List Byte} {neg : Bool} {n d : Nat} (h : decValue t = some (neg, n, d)) :
    parseDec t = if roundMag n d < infMag then some (dec2n neg n d) else none := by
  simp [parseDec, h, numIsFinite, numMag_dec2n]

end Sys2Proof.Machine
end

section
/-! The settled statements on the wire encoding, the parser's commands and the `DEC` numeral. -/

namespace Sys2Proof.Machine

/-- Settles O1, by the kind of encoding: a frame, the start delimiter alone, or another single byte. -/
theorem decodeOfEncode : Obligations.DecodeOfEncode := by
  intro cfg st i bs rest hw hst he hsof
  obtain ⟨body, hbody⟩ | rfl | ⟨b, hb, hbyte, hd⟩ := decodableIn_cases hst
  · obtain ⟨hclean, hlen⟩ := bodyClean_of_wellFormed hbody hw
    obtain rfl : frameBytes body = bs := by
      rw [(encode_of_frameBody hbody st).1] at he; exact Option.some.inj he
    exact decode_frame hbody hclean hlen rest
  · obtain rfl := hsof.resolve_left (not_not_intro rfl)
    obtain rfl : [chSof] = bs := Option.some.inj he
    rfl
  · obtain rfl : [b] = bs := by rw [hbyte] at he; exact Option.some.inj he
    exact (decode_byte hb rest).trans (by rw [hd]; rfl)

/-- Settles O2, by what `decode` can answer. -/
theorem encodeOfDecode : Obligations.EncodeOfDecode := by
  intro cfg st i bs rest h
  obtain ⟨body, hbody, hclean, hlen, rfl⟩ | ⟨rfl, rfl⟩ | ⟨b, hd, rfl⟩ := decode_cases h
  · obtain ⟨hencode, hst⟩ := encode_of_frameBody hbody st
    exact ⟨wellFormed_of_bodyClean hbody hclean hlen, hst, _, hencode, rfl⟩
  · exact ⟨rfl, rfl, [chSof], rfl, rfl⟩
  · obtain ⟨hencode, hst, hw⟩ := decodeAt_eq_ok hd
    exact ⟨hw cfg, hst, [b], hencode, rfl⟩

/-- Settles O14: `Idle` or `Capturing`, and there by whether the body matches; what begins with no literal
does not. -/
theorem terminatorEndsTheCapture : Obligations.TerminatorEndsTheCapture := by
  intro s hs
  refine ⟨fun hst => by rw [exec_eof, consumeByte_eof_idle hs hst, finish_ok], fun hst hle => ?_⟩
  have hidx : s.cfp.idx < s.cfg.frameCap := by
    have := sizes_of_storageOk hs
    rw [maxBody] at hle
    omega
  have hdrop (h : matchBody s.cfg (memSlice s.cfp.buf s.cfp.idx) = none) :
      exec .eof s = .next (setCfp (endCapture s.cfp) s) := by
    rw [exec_eof, consumeByte_eof_none hs hst hidx h, finish_ok]
  refine ⟨?_, fun c hc => ?_, hdrop, fun h => hdrop (matchBody_eq_none _ (frameOf_eq_none_iff.1 h)),
    frameOf_eq_none_iff⟩
  · obtain ⟨t, ht, hcfp⟩ := consumeByte_eof_ok hs hst hidx
    exact ⟨t, finish_eq_next.2 ht, by rw [hcfp]; rfl, by rw [hcfp]; rfl⟩
  · rw [exec_eof, consumeByte_eof_some hs hst hidx hc, exec_cmdDispatch]
    rfl

/-- Settles O22: the literals, the effective body and the matches by their lemmas; a command that
`CFP_FEED` returns is one the parser answered. -/
theorem commandsComeOnlyFromOpcodesAndTerminators :
    Obligations.CommandsComeOnlyFromOpcodesAndTerminators := by
  refine ⟨⟨rfl, rfl, rfl, rfl⟩, effBody_maximal, fun cfg r => ⟨matchBody_litLifter cfg r,
    matchBody_litGripOpen cfg r, matchBody_litGripClose cfg r, matchBody_litGripPos cfg r⟩,
    fun cfg _ => matchBody_eq_none cfg, fun s t b c h hret => ?_⟩
  rw [exec_cfpFeed, finish_eq_next, andThen_eq_ok] at h
  obtain ⟨p, hp, h⟩ := h
  obtain ⟨_, ⟨o, q⟩, hq, rfl⟩ := feedByte_eq_ok.1 hp
  cases h
  obtain rfl : o = some c := by simpa using hret
  exact cfpFeed_command hq

/-- Settles O23: the grammar by how the parser takes a numeral apart, the number by its rounding. -/
theorem decNumeralGrammar : Obligations.DecNumeralGrammar := by
  refine ⟨fun _ _ _ _ => decValue_eq_some_iff, fun _ => parseDec_of_no_value, fun t neg n d h =>
    ⟨fun hfin => ?_, fun hinf => ?_⟩⟩
  · exact ⟨dec2n neg n d, by rw [parseDec_of_value h, if_pos hfin], numMag_dec2n neg n d,
      numSign_dec2n neg n d⟩
  · rw [parseDec_of_value h, if_neg (not_lt.2 hinf)]

/-- Settles O3: the table's words by evaluation, the frames as encodings that decode back. -/
theorem decodedWordsOfTheSpec : Obligations.DecodedWordsOfTheSpec :=
  ⟨rfl, rfl, rfl, rfl, rfl,
    decodeOfEncode Config.defaults .idle (.fLifter [0x31, 0x32, 0x2E, 0x35]) _ [] rfl rfl rfl (.inl nofun),
    decodeOfEncode Config.defaults .idle (.fGripOpen []) _ [] rfl rfl rfl (.inl nofun),
    decodeOfEncode Config.defaults .capturing (.fGripClose []) _ [] rfl rfl rfl (.inl nofun),
    decodeOfEncode Config.defaults .idle (.fGripPos [0x39, 0x30]) _ [] rfl rfl rfl (.inl nofun)⟩

/-- Settles O29: the message is the literal of R69 with the build's line terminator. -/
theorem notifyEmitsTheArrivalBytes : Obligations.NotifyEmitsTheArrivalBytes :=
  ⟨rfl, fun s => by rw [exec_notify, notifyArrival, notifyBytes, litNotify, emit]⟩

end Sys2Proof.Machine
end

section
/-! SUPPORT. What the parser answers, carried to the whole state: a byte fed, a byte taken, and a whole frame
taken byte by byte. -/

namespace Sys2Proof.Machine

/-! ### From the parser's answer to the state -/

section Answer

variable {s : State} {b : Byte} {c : Cfp} (hs : storageOk s.cfg = true)
include hs

/-- R80: as a step of its own, `CFP_FEED` hands the parser's answer to the invoker. -/
theorem exec_cfpFeed_of_answer {o : Option Command} (h : cfpFeed s.cfg b s.cfp = .ok (o, c)) :
    exec (.cfpFeed b) s = .next (setRet (.command o) (setCfp c s)) := by
  rw [exec_cfpFeed, feedByte_eq_ok.2 ⟨hs, (o, c), h, rfl⟩, andThen_ok, finish_ok]

/-- R203: a command the parser answers is dispatched in the same step. -/
theorem consumeByte_of_some {cmd : Command} (h : cfpFeed s.cfg b s.cfp = .ok (some cmd, c)) :
    consumeByte b s = dispatchCommand cmd (setCfp c s) := by
  rw [consumeByte, feedByte_eq_ok.2 ⟨hs, (some cmd, c), h, rfl⟩, andThen_ok]

/-- R203: where the parser answers no command, only the parser moves. -/
theorem consumeByte_of_none (h : cfpFeed s.cfg b s.cfp = .ok (none, c)) :
    consumeByte b s = .ok (setCfp c s) := by
  rw [consumeByte, feedByte_eq_ok.2 ⟨hs, (none, c), h, rfl⟩, andThen_ok]

end Answer

/-! ### Legacy opcodes -/

section Legacy

variable {s : State} (hs : storageOk s.cfg = true) (hst : s.cfp.st = .idle)
include hs hst

/-- R82: `LEG_STOP` while `Idle` stops the lift and leaves the parser as it is. -/
theorem consumeByte_opStop_idle : consumeByte opStop s = .ok (liftStop s) := by
  have hfeed : cfpFeed s.cfg opStop s.cfp = .ok (some .liftStop, s.cfp) := by
    rw [cfpFeed_idle hst, if_neg (by decide), if_pos rfl]
  exact consumeByte_of_some hs hfeed

/-- R83: `LEG_UP` while `Idle` commands the direction up. -/
theorem consumeByte_opUp_idle : consumeByte opUp s = .ok (liftManual .up s) := by
  have hfeed : cfpFeed s.cfg opUp s.cfp = .ok (some (.liftManual .up), s.cfp) := by
    rw [cfpFeed_idle hst, if_neg (by decide), if_neg (by decide), if_pos rfl]
  exact consumeByte_of_some hs hfeed

/-- R84: `LEG_DOWN` while `Idle` commands the direction down. -/
theorem consumeByte_opDown_idle : consumeByte opDown s = .ok (liftManual .down s) := by
  have hfeed : cfpFeed s.cfg opDown s.cfp = .ok (some (.liftManual .down), s.cfp) := by
    rw [cfpFeed_idle hst, if_neg (by decide), if_neg (by decide), if_neg (by decide), if_pos rfl]
  exact consumeByte_of_some hs hfeed

end Legacy

/-- R144: the stop clears the manual direction, and both target flags where the build says so. -/
theorem liftStop_eq (s : State) :
    liftStop s = setLift
      { s.lift with
        man := .stop
        pending := if s.cfg.stopCancelsTarget then false else s.lift.pending
        active := if s.cfg.stopCancelsTarget then false else s.lift.active } s := by
  unfold liftStop
  cases s.cfg.stopCancelsTarget <;> rfl

/-! ### Body bytes -/

/-- R88: a body byte that does not fit abandons the frame. -/
theorem consumeByte_overflow {s : State} {b : Byte} (hs : storageOk s.cfg = true)
    (hst : s.cfp.st = .capturing) (hsof : b ≠ chSof) (heof : b ≠ chEof)
    (hi : maxBody s.cfg ≤ s.cfp.idx) :
    consumeByte b s = .ok (setCfp { s.cfp with st := .idle, idx := 0 } s) :=
  consumeByte_of_none hs
    (by rw [cfpFeed_capturing hst, if_neg hsof, if_neg heof, if_neg (Nat.not_lt.2 hi)])

/-- R87: body bytes that fit are stored one after another from the write index on. -/
theorem consumeBytes_content {s : State} {body : List Byte} (hs : storageOk s.cfg = true)
    (hclean : bodyClean body = true) (m : Memory) {n : Nat} (hn : n + body.length ≤ maxBody s.cfg) :
    consumeBytes body (setCfp { st := .capturing, buf := m, idx := n } s) =
      .ok (setCfp { st := .capturing, buf := memWriteList m n body, idx := n + body.length } s) := by
  induction body generalizing m n with
  | nil => rfl
  | cons b body ih =>
    obtain ⟨hsof, heof, hbody⟩ := bodyClean_cons.1 hclean
    rw [List.length_cons] at hn
    have hfirst := consumeByte_content (s := setCfp { st := .capturing, buf := m, idx := n } s) hs rfl
      hsof heof (show n < maxBody s.cfg by omega)
    have hrest := ih hbody (memWrite m n b) (n := n + 1) (by omega)
    rw [Nat.add_right_comm, Nat.add_assoc] at hrest
    rw [consumeBytes_cons, hfirst, andThen_ok]
    exact hrest

/-- R85, R87: a start delimiter and body bytes that fit are captured from index 0, whatever the parser was
doing. -/
theorem consumeBytes_sof_content {s : State} {body : List Byte} (hs : storageOk s.cfg = true)
    (hclean : bodyClean body = true) (hlen : body.length ≤ maxBody s.cfg) :
    consumeBytes (chSof :: body) s = .ok (setCfp (fetchPlace.captured s.cfp body) s) := by
  have hbody := consumeBytes_content hs hclean s.cfp.buf (n := 0) (by omega)
  rw [Nat.zero_add] at hbody
  rw [consumeBytes_cons, consumeByte_sof hs, andThen_ok]
  exact hbody

/-- R88: after a start delimiter and one body byte more than fits, the capture is abandoned. -/
theorem consumeBytes_sof_overflow {s : State} {body : List Byte} {b : Byte} (hs : storageOk s.cfg = true)
    (hclean : bodyClean (body ++ [b]) = true) (hlen : body.length = maxBody s.cfg) :
    consumeBytes (chSof :: (body ++ [b])) s =
      .ok (setCfp { st := .idle, buf := memWriteList s.cfp.buf 0 body, idx := 0 } s) := by
  rw [bodyClean_append, Bool.and_eq_true] at hclean
  obtain ⟨hbody, hb⟩ := hclean
  obtain ⟨hsof, heof, _⟩ := bodyClean_cons.1 hb
  rw [← List.cons_append, consumeBytes_append, consumeBytes_sof_content hs hbody hlen.le, andThen_ok,
    consumeBytes_singleton]
  exact consumeByte_overflow (s := setCfp (fetchPlace.captured s.cfp body) s) hs rfl hsof heof hlen.ge

/-! ### Whole frames -/

section Frame

variable {s : State} {i : Instr} {body : List Byte} (hs : storageOk s.cfg = true)
  (hbody : frameBody i = some body) (hw : wellFormed s.cfg i = true)
include hs hbody hw

/-- A whole frame is its terminator taken where the body is captured. -/
theorem exec_frame :
    exec i s = finish (consumeByte chEof (setCfp (fetchPlace.captured s.cfp body) s)) := by
  obtain ⟨hclean, hlen⟩ := bodyClean_of_wellFormed hbody hw
  rw [exec_of_frameBody hbody, frameBytes, ← List.cons_append, consumeBytes_append,
    consumeBytes_sof_content hs hclean hlen, andThen_ok, consumeBytes_singleton]

/-- R47: the NUL after a frame's body is inside the buffer. -/
theorem frameBody_length_lt : body.length < s.cfg.frameCap := by
  obtain ⟨_, hlen⟩ := bodyClean_of_wellFormed hbody hw
  have hcap := sizes_of_storageOk hs
  unfold maxBody at hlen
  omega

/-- R86, R203: a frame whose body matches dispatches its command with the parser after the frame. -/
theorem exec_frame_some (hm : memWf s.cfp.buf = true) {cmd : Command}
    (h : matchBody s.cfg body = some cmd) :
    exec i s = finish (dispatchCommand cmd (setCfp (afterFrame body s.cfp) s)) := by
  have hidx := frameBody_length_lt hs hbody hw
  rw [← memSlice_memWriteList hm body] at h
  exact (exec_frame hs hbody hw).trans (congrArg finish
    (consumeByte_eof_some (s := setCfp (fetchPlace.captured s.cfp body) s) hs rfl hidx h))

/-- R86, R99: a frame whose body matches nothing changes the parser alone. -/
theorem exec_frame_none (hm : memWf s.cfp.buf = true) (h : matchBody s.cfg body = none) :
    exec i s = .next (setCfp (afterFrame body s.cfp) s) := by
  have hidx := frameBody_length_lt hs hbody hw
  rw [← memSlice_memWriteList hm body] at h
  exact (exec_frame hs hbody hw).trans (congrArg finish
    (consumeByte_eof_none (s := setCfp (fetchPlace.captured s.cfp body) s) hs rfl hidx h))

/-- R95, R96: a frame whose command is one event emits it where its body matches, and nothing elsewhere. -/
theorem exec_frame_emit (hm : memWf s.cfp.buf = true) {p : Prop} [Decidable p] {cmd : Command}
    {e : OutEvent} (h : matchBody s.cfg body = if p then some cmd else none)
    (hcmd : ∀ t, dispatchCommand cmd t = .ok (emit e t)) :
    exec i s = .next (if p then emit e (setCfp (afterFrame body s.cfp) s)
      else setCfp (afterFrame body s.cfp) s) := by
  split_ifs at h ⊢ with hp
  · rw [exec_frame_some hs hbody hw hm h, hcmd, finish_ok]
  · exact exec_frame_none hs hbody hw hm h

end Frame

end Sys2Proof.Machine
end

section
/-! SUPPORT. The `INT` numeral: the integer it spells, and the range of `PARSE_INT`. -/

namespace Sys2Proof.Machine

/-- The integer an optional sign and digits spell (R66). -/
def intNumeralValue (sg : Option Bool) (ds : List (Fin 10)) : Int :=
  if signNeg sg then -(digitsValue ds : Int) else (digitsValue ds : Int)

/-- An `INT` numeral has the value it spells. -/
theorem intValue_numeral (sg : Option Bool) {ds : List (Fin 10)} (hds : ds ≠ []) :
    intValue (signBytes sg ++ ds.map asciiDigit) = some (intNumeralValue sg ds) := by
  have hlen : ds.length ≠ 0 := by simpa using hds
  have hsign := splitSign_digits sg hds []
  have hdigits := splitDigits_digits ds beginsWithNoDigit_nil
  rw [List.append_nil] at hsign hdigits
  simp only [intValue, hsign, hdigits, if_neg hlen, if_true, intNumeralValue]

/-- R66: the byte strings with an `INT` value are an optional sign and one or more digits. -/
theorem intValue_eq_some_iff {t : List Byte} {p : Int} :
    intValue t = some p ↔
      ∃ (sg : Option Bool) (ds : List (Fin 10)), ds ≠ [] ∧ t = signBytes sg ++ ds.map asciiDigit ∧
        p = intNumeralValue sg ds := by
  constructor
  · intro h
    obtain ⟨sg, t1, rfl, hsign⟩ := exists_sign_append t
    obtain ⟨ds, rest, rfl, hrest⟩ := exists_digits_append t1
    simp only [intValue, hsign, splitDigits_digits ds hrest] at h
    split_ifs at h with hlen hend hneg
    all_goals
      refine ⟨sg, ds, fun hds => hlen (by simp [hds]), by rw [hend, List.append_nil], ?_⟩
      simpa [intNumeralValue, hneg] using h.symm
  · rintro ⟨sg, ds, hds, rfl, rfl⟩
    exact intValue_numeral sg hds

/-- R97: an `INT` value parses exactly where it fits the width. -/
theorem parseInt_eq_some_iff {w : Nat} {t : List Byte} {p : Int} :
    parseInt w t = some p ↔ inSigned w p = true ∧ intValue t = some p := by
  unfold parseInt
  cases intValue t with
  | none => simp
  | some k =>
    simp only [Option.ite_none_right_eq_some, Option.some.injEq]
    exact and_congr_left fun hk => by rw [hk]

end Sys2Proof.Machine
end

section
/-! The settled statements on the parser's arms, whole frames and the `INT` numeral. -/

namespace Sys2Proof.Machine

/-- Settles O17: the body matches exactly where its numeral parses, and that numeral is finite. -/
theorem lifterFrameSetsTheDelta : Obligations.LifterFrameSetsTheDelta := by
  intro s operand hs hm hfits
  have hmatch := matchBody_litLifter s.cfg operand
  cases hv : parseDec (effBody operand) with
  | none =>
    rw [hv] at hmatch
    exact exec_frame_none hs rfl hfits hm hmatch
  | some v =>
    rw [hv] at hmatch
    rw [exec_frame_some (i := .fLifter operand) hs rfl hfits hm hmatch, dispatchCommand, liftSetDelta,
      matchBody_finite hmatch, refuseUnless_true, finish_ok]
    rfl

/-- Settles O18: both frames emit where their body matches. -/
theorem gripperFramesWithoutOperand : Obligations.GripperFramesWithoutOperand := fun s trailing hs hm =>
  ⟨fun hfits => exec_frame_emit (i := .fGripOpen trailing) hs rfl hfits hm
      (matchBody_litGripOpen s.cfg trailing) fun _ => rfl,
    fun hfits => exec_frame_emit (i := .fGripClose trailing) hs rfl hfits hm
      (matchBody_litGripClose s.cfg trailing) fun _ => rfl⟩

/-- Settles O19: the body matches exactly where its integer parses, and that integer fits its width. -/
theorem gripperPositionFrame : Obligations.GripperPositionFrame := by
  intro s operand hs hm hfits
  have hmatch := matchBody_litGripPos s.cfg operand
  cases hp : parseInt s.cfg.gripPosBits (effBody operand) with
  | none =>
    rw [hp] at hmatch
    exact exec_frame_none hs rfl hfits hm hmatch
  | some p =>
    rw [hp] at hmatch
    obtain ⟨hrange, _⟩ := parseInt_eq_some_iff.1 hp
    rw [exec_frame_some (i := .fGripPos operand) hs rfl hfits hm hmatch, dispatchCommand, finish_ok]
    exact congrArg _ (gripSetPosition_of_inSigned hrange)

/-- Settles O21: all bytes but the last are captured, and the last overflows. -/
theorem oversizedFrameIsAbandoned : Obligations.OversizedFrameIsAbandoned := by
  intro s body hs hclean hlen
  obtain ⟨front, b, rfl⟩ :=
    (List.eq_nil_or_concat' body).resolve_left (List.ne_nil_of_length_eq_add_one hlen)
  have hfront : front.length = maxBody s.cfg := by simpa using hlen
  have hover := consumeBytes_sof_overflow hs hclean hfront
  refine ⟨_, hover, rfl, rfl, fun rest => ?_⟩
  rw [← List.cons_append, consumeBytes_append, hover, andThen_ok]

/-- Settles O24: the range by `PARSE_INT`'s check, the grammar by how the parser takes a numeral apart. -/
theorem intNumeralGrammarAndRange : Obligations.IntNumeralGrammarAndRange := by
  intro w t p hw
  rw [parseInt_eq_some_iff, inSigned_iff_bounds hw, intValue_eq_some_iff]
  rfl

/-- Settles O12: each arm is the parser's answer in that arm, carried to the state. -/
theorem cfpFeedInFull : Obligations.CfpFeedInFull := by
  intro s b hs
  refine ⟨fun hst => ?_, fun hst hle => ?_⟩
  · have hfeed := cfpFeed_idle (cfg := s.cfg) (b := b) hst
    unfold chSof opStop opUp opDown at hfeed
    split_ifs with hsof hstop hup hdown
    · exact exec_cfpFeed_of_answer hs (by rw [hfeed, if_pos hsof])
    · exact exec_cfpFeed_of_answer hs (by rw [hfeed, if_neg hsof, if_pos hstop])
    · exact exec_cfpFeed_of_answer hs (by rw [hfeed, if_neg hsof, if_neg hstop, if_pos hup])
    · exact exec_cfpFeed_of_answer hs
        (by rw [hfeed, if_neg hsof, if_neg hstop, if_neg hup, if_pos hdown])
    · exact exec_cfpFeed_of_answer (c := s.cfp) hs
        (by rw [hfeed, if_neg hsof, if_neg hstop, if_neg hup, if_neg hdown])
  · have hidx : s.cfp.idx < s.cfg.frameCap := by
      have hcap := sizes_of_storageOk hs
      omega
    have hfeed := cfpFeed_capturing (cfg := s.cfg) (b := b) hst
    unfold chSof chEof maxBody at hfeed
    split_ifs with hsof heof hroom
    · exact exec_cfpFeed_of_answer hs (by rw [hfeed, if_pos hsof])
    · exact exec_cfpFeed_of_answer hs (by rw [hfeed, if_neg hsof, if_pos heof, if_pos hidx])
    · exact exec_cfpFeed_of_answer hs (by rw [hfeed, if_neg hsof, if_neg heof, if_pos hroom])
    · exact exec_cfpFeed_of_answer hs (by rw [hfeed, if_neg hsof, if_neg heof, if_neg hroom])

/-- Settles O13: the start delimiter's one arm. -/
theorem startDelimiterRestartsTheCapture : Obligations.StartDelimiterRestartsTheCapture := fun s hs => by
  rw [exec_sof, consumeByte_sof hs, finish_ok]

/-- Settles O15: each opcode's command, dispatched as it is read. -/
theorem legacyOpcodesActWhileIdle : Obligations.LegacyOpcodesActWhileIdle := by
  intro s hs hst
  refine ⟨?_, ?_, ?_⟩
  · rw [exec_legUp, consumeByte_opUp_idle hs hst, finish_ok]
    rfl
  · rw [exec_legDown, consumeByte_opDown_idle hs hst, finish_ok]
    rfl
  · rw [exec_legStop, consumeByte_opStop_idle hs hst, finish_ok, liftStop_eq]

/-- Settles O16: no legacy byte is a delimiter, so the parser stores it or abandons the frame. -/
theorem legacyBytesInsideAFrameAreContent : Obligations.LegacyBytesInsideAFrameAreContent := by
  intro s b i hs hst hi
  have ⟨hexec, hsof, heof⟩ : exec i s = finish (consumeByte b s) ∧ b ≠ chSof ∧ b ≠ chEof := by
    obtain ⟨rfl, rfl⟩ | ⟨rfl, rfl⟩ | ⟨rfl, rfl⟩ := hi
    · exact ⟨exec_legStop s, by decide, by decide⟩
    · exact ⟨exec_legUp s, by decide, by decide⟩
    · exact ⟨exec_legDown s, by decide, by decide⟩
  refine ⟨fun hroom => ?_, fun hfull => ?_⟩
  · rw [hexec, consumeByte_content hs hst hsof heof hroom, finish_ok]
  · rw [hexec, consumeByte_overflow hs hst hsof heof hfull, finish_ok]

end Sys2Proof.Machine
end

section
/-! SUPPORT. The PID operations where they complete: `PID_INIT` on legal operands, `PID_CALC` on either side
of the dead zone, the output clamp, and a client's call on the whole state. -/

namespace Sys2Proof.Machine

/-! ### One PID -/

/-- R112: on legal operands `PID_INIT` makes a PID of them, its accumulators zero. -/
theorem pidInit_of_legal {kp ki kd ol il al it dz : Num32}
    (hf : pidOperandsFinite kp ki kd ol il al it dz = true) (hr : pidRangesLegal ol il al it dz = true) :
    pidInit kp ki kd ol il al it dz = .ok
      { kp := kp, ki := ki, kd := kd, outLimit := ol, intLimit := il, alpha := al, intThreshold := it
        deadZone := dz, integral := numZero, lastMeasured := numZero, lastFiltered := numZero
        inited := true } := by
  rw [pidInit, hf, refuseUnless_true, hr, refuseUnless_true]

/-- S8 (R120): the separation is off where the threshold is zero. -/
theorem pidSeparate_eq_ite (p : Pid) (e acc : Num32) :
    pidSeparate p e acc =
      if numEq p.intThreshold numZero = false ∧ numLt p.intThreshold (numAbs e) = true then numZero
      else acc := by
  simp only [pidSeparate, Bool.and_eq_true, Bool.not_eq_true']

/-- R114: outside the dead zone the result is the clamped sum, and the accumulators are committed. -/
theorem pidStages_of_outside {cfg : Params} {p : Pid} {t m dt e acc filt : Num32} (he : e = numSub t m)
    (hz : numLt (numAbs e) p.deadZone = false)
    (hacc : acc = pidSeparate p e (pidAccum p e (clampDt cfg dt)))
    (hfilt : filt = pidFilt p (pidRaw p m (clampDt cfg dt))) :
    pidStages cfg p t m dt =
      (pidOut p (pidSum p e acc filt),
        { p with integral := acc, lastMeasured := m, lastFiltered := filt }) := by
  subst he hacc hfilt
  simp [pidStages, hz]

/-- S10 (R121): a sum that is no NaN is clamped into the output limits. -/
theorem pidOut_between {p : Pid} {u : Num32} (hp : pidConfigLegal p = true) (hu : numIsNaN u = false) :
    numLe (numNeg p.outLimit) (pidOut p u) = true ∧ numLe (pidOut p u) p.outLimit = true := by
  obtain ⟨hl, hl0⟩ := outLimit_of_legal hp
  exact numClamp_between (numLe_neg_self hl hl0) hu

/-- Both comparisons of `clamp` are false of a NaN, so it passes. -/
theorem numClamp_of_NaN {x : Num32} (hx : numIsNaN x = true) (lo hi : Num32) : numClamp x lo hi = x := by
  simp [numClamp, numLt, hx]

/-! ### A client's call on the whole state -/

/-- R111, R114: a client's call completes exactly where the PID exists, LIFT does not own it and `PID_CALC`
completes; it then writes that PID and the value returned. -/
theorem exec_pidCalc_eq_next {i : Nat} {t m dt : Num32} {s u : State} :
    exec (.pidCalc i t m dt) s = .next u ↔
      hasPid i s = true ∧ ownedByLift s.cfg.cascade i = false ∧
        ∃ r, pidCalc s.cfg (getPid i s) t m dt = .ok r ∧ setRet (.num r.1) (setPid i r.2 s) = u := by
  rw [exec_pidCalc, finish_eq_next, refuseUnless_eq_ok, refuseUnless_eq_ok, andThen_eq_ok,
    mayInvoke_client, Bool.not_eq_true']
  simp only [Except.ok.injEq]

/-- R116: a scheduled call in the dead zone leaves the schedule behind it and returns zero. -/
theorem step_of_pidCalc_deadZone {i : Nat} {t m dt : Num32} {es : List Event} {s : State}
    (hi : hasPid i s = true) (ho : ownedByLift s.cfg.cascade i = false)
    (hcalc : pidCalc s.cfg (getPid i s) t m dt = .ok (numZero, getPid i s))
    (hsched : s.sched = .pidCalc i t m dt :: es) :
    step s = .next (setRet (.num numZero) (setSched es s)) := by
  rw [step_of_sched_cons hsched]
  refine exec_pidCalc_eq_next.2 ⟨hi, ho, _, hcalc, ?_⟩
  rw [← getPid_setSched i es s, setPid_self]

/-- R116, R125: repeated calls in the dead zone consume their schedule one by one; each meets the PID the
first one met. -/
theorem run_pidCalcs_deadZone {i : Nat} {t m dt : Num32} {es : List Event} (n : Nat) {s : State}
    (hi : hasPid i s = true) (ho : ownedByLift s.cfg.cascade i = false)
    (hcalc : pidCalc s.cfg (getPid i s) t m dt = .ok (numZero, getPid i s))
    (hsched : s.sched = List.replicate (n + 1) (.pidCalc i t m dt) ++ es) :
    Host.Core.run core (n + 1) s = .next (setRet (.num numZero) (setSched es s)) := by
  induction n generalizing s with
  | zero => exact run_succ_of_next (M := core) 0 (step_of_pidCalc_deadZone hi ho hcalc hsched)
  | succ n ih =>
    rw [List.replicate_succ, List.cons_append] at hsched
    have hstep := step_of_pidCalc_deadZone hi ho hcalc hsched
    exact (run_succ_of_next (M := core) _ hstep).trans (ih hi ho hcalc rfl)

end Sys2Proof.Machine
end

section
/-! The settled statements on the PID. -/

namespace Sys2Proof.Machine

/-- Settles O30: the one PID written reads as `PID_INIT` makes it, every other as before. -/
theorem pidInitWritesItsInstance : Obligations.PidInitWritesItsInstance := by
  intro s who i kp ki kd ol il al it dz hi hf hr hw
  have hp := hasPid_iff.2 hi
  refine ⟨setPid i _ s, ?_, rfl, getPid_setPid_same hp _, List.length_set, fun j hj =>
    getPid_setPid_other hj _ s⟩
  rw [exec_pidInit, hp, refuseUnless_true, mayInvoke_of_owner_or_free hw, refuseUnless_true,
    pidInit_of_legal hf hr, andThen_ok, finish_ok]

/-- Settles O32: the stages outside the dead zone, carried to the state by the client's call. -/
theorem pidCalcInFull : Obligations.PidCalcInFull := by
  intro s i p t m dt dtc e raw filt acc1 acc u hi hp ho hn hlegal hb ht hm hdt ha hdtc he hz hraw hfilt
    hacc1 hacc hu
  have hsep : pidSeparate p e acc1 = acc := (pidSeparate_eq_ite p e acc1).trans hacc.symm
  subst hp hdtc hraw hfilt hacc1 hu
  have hstages := pidStages_of_outside (cfg := s.cfg) (dt := dt) he hz hsep.symm rfl
  have hcalc := pidCalc_eq_ok.2 ⟨hn, hlegal, hb, ⟨ht, hm, hdt⟩, ha, hstages⟩
  exact ⟨exec_pidCalc_eq_next.2 ⟨hasPid_iff.2 hi, ho, _, hcalc, rfl⟩, hstages, rfl, rfl, rfl, hsep, rfl⟩

/-- Settles O33, by induction on the number of calls. -/
theorem pidDeadZoneChangesNothing : Obligations.PidDeadZoneChangesNothing := by
  intro s i t m dt es n hi ho hn hlegal hb ht hm hdt ha hz hsched
  have hstages := pidStages_of_deadZone (cfg := s.cfg) (dt := dt) hz
  exact ⟨run_pidCalcs_deadZone n (hasPid_iff.2 hi) ho
    (pidCalc_eq_ok.2 ⟨hn, hlegal, hb, ⟨ht, hm, hdt⟩, ha, hstages⟩) hsched, hstages⟩

/-- Settles O35, by the dead zone: zero inside it, and outside it the clamped sum. -/
theorem pidOutputStaysWithinItsLimits : Obligations.PidOutputStaysWithinItsLimits := by
  intro s t i p target m dt dtc e filt acc hs hp hdtc he hfilt hacc
  obtain ⟨_, _, r, hr, rfl⟩ := exec_pidCalc_eq_next.1 hs
  rw [← hp] at hr
  obtain ⟨_, hlegal, _, _, _, hstages⟩ := pidCalc_eq_ok.1 hr
  subst hdtc
  refine ⟨r.1, rfl, ?_⟩
  cases hz : numLt (numAbs e) p.deadZone with
  | true =>
    rw [pidStages_of_deadZone (he ▸ hz)] at hstages
    obtain ⟨hl, hl0⟩ := outLimit_of_legal hlegal
    subst hstages
    exact ⟨fun _ => numZero_between hl hl0, nofun⟩
  | false =>
    rw [pidStages_of_outside he hz hacc hfilt] at hstages
    subst hstages
    refine ⟨fun h => pidOut_between hlegal (h.resolve_left nofun), fun _ hnan => ?_⟩
    rwa [pidOut, numClamp_of_NaN hnan]

end Sys2Proof.Machine
end

section
/-! SUPPORT. The commands' effects, and what a lift update gives in each branch of R146 where its inputs are
legal. -/

namespace Sys2Proof.Machine

/-! ### Commands -/

/-- R142: a finite delta is captured. -/
theorem liftSetDelta_of_finite {v : Num32} (h : numIsFinite v = true) (s : State) :
    liftSetDelta v s = .ok (setLift (pendTarget v s.lift) s) := by
  rw [liftSetDelta, h, refuseUnless_true]

/-- R70: a command that is well formed completes. -/
theorem dispatchCommand_of_wellFormed {c : Command} {s : State}
    (h : commandWellFormed s.cfg c = true) : ∃ t, dispatchCommand c s = .ok t :=
  dispatchCommand_ok (fun v hv => by subst hv; exact h) s

/-! ### The sample -/

theorem liftSample_of_pending {s : State} (h : s.lift.pending = true) :
    liftSample s = setLift
      { pos := s.enc.pos, delta := numZero, pending := false
        target := numAdd s.enc.pos s.lift.delta, active := true, man := s.lift.man } s := by
  rw [liftSample, convertTarget, if_pos h]

theorem liftSample_of_not_pending {s : State} (h : s.lift.pending = false) :
    liftSample s = setLift { s.lift with pos := s.enc.pos } s := by
  rw [liftSample, convertTarget, if_neg (by simp [h])]

theorem liftError_liftSample (s : State) :
    liftError (liftSample s).lift = numSub (liftSample s).lift.target s.enc.pos := by
  rw [liftError, liftSample_pos]

/-! ### The decision -/

/-- R151: without a commanded direction, an active target within the band is reached. -/
theorem liftDecide_arrive {dt : Num32} {s : State} (hm : s.lift.man = .stop)
    (ha : s.lift.active = true) (hb : numLt s.cfg.tol (numAbs (liftError s.lift)) = false) :
    liftDecide dt s = .ok (liftArrive s) := by
  simp [liftDecide, hm, ha, hb]

/-- R150: without a commanded direction and without a target the lift is held. -/
theorem liftDecide_hold {dt : Num32} {s : State} (hm : s.lift.man = .stop)
    (ha : s.lift.active = false) : liftDecide dt s = .ok (liftHold s) := by
  simp [liftDecide, hm, ha]

/-! ### Seeking, by cascade mode -/

/-- LIFT's invocation where its preconditions hold, the PID read and the stages' result by name. -/
theorem liftPid_of_stages {i : Nat} {t m dt : Num32} {s : State} {p : Pid} {q : Num32 × Pid}
    (hi : i < s.pid.length) (hp : p = getPid i s) (hn : p.inited = true)
    (hc : pidConfigLegal p = true) (hb : dtBoundsFinite s.cfg = true)
    (hf : numIsFinite t = true ∧ numIsFinite m = true ∧ numIsFinite dt = true)
    (ha : pidAccumulatorsFinite p = true) (hq : q = pidStages s.cfg p t m dt) :
    liftPid i t m dt s = .ok (q.1, setPid i q.2 s) := by
  subst hp hq
  exact liftPid_of_legal hi hn hc hb hf ha

theorem seek_off {err dt : Num32} {s : State} (hc : s.cfg.cascade = .off) :
    seek err dt s = .ok (if numLt numZero err then .forward else .reverse, s) := by
  simp [seek, hc]

theorem seek_pos {err dt : Num32} {s : State} {r : Num32 × State} (hc : s.cfg.cascade = .pos)
    (hr : liftPid pidPos s.lift.target s.lift.pos dt s = .ok r) :
    seek err dt s = .ok (sign3 r.1, r.2) := by
  simp [seek, hc, hr]

theorem seek_posSpd {err dt : Num32} {s : State} {r q : Num32 × State}
    (hc : s.cfg.cascade = .posSpd) (hr : liftPid pidPos s.lift.target s.lift.pos dt s = .ok r)
    (hq : liftPid pidSpd r.1 s.enc.spd dt r.2 = .ok q) :
    seek err dt s = .ok (sign3 q.1, q.2) := by
  simp [seek, hc, hr, hq]

/-! ### The tick on the whole state -/

section Tick

variable {dt : Num32} {s : State} (ht : tolOk s.cfg = true) (hf : liftInputsFinite dt s = true)
  (hm : s.lift.man = .stop)
include ht hf hm

/-- A tick that seeks ends where its seek does, with the direction emitted. -/
theorem exec_liftUpdate_seek {d : Dir} {t : State} (ha : (liftSample s).lift.active = true)
    (hb : numLt s.cfg.tol (numAbs (numSub (liftSample s).lift.target s.enc.pos)) = true)
    (h : seek (numSub (liftSample s).lift.target s.enc.pos) dt (fsmEval true (liftSample s)) =
      .ok (d, t)) :
    exec (.liftUpdate dt) s = .next (emit (.actDir d) t) := by
  rw [← liftError_liftSample] at hb h
  rw [exec_liftUpdate, liftUpdate_of_legal ht hf, liftDecide_seek (by simpa using hm) ha hb, liftSeek,
    h, andThen_ok, finish_ok]

theorem exec_liftUpdate_arrive (ha : (liftSample s).lift.active = true)
    (hb : numLt s.cfg.tol (numAbs (numSub (liftSample s).lift.target s.enc.pos)) = false) :
    exec (.liftUpdate dt) s = .next (liftArrive (liftSample s)) := by
  rw [← liftError_liftSample] at hb
  rw [exec_liftUpdate, liftUpdate_of_legal ht hf, liftDecide_arrive (by simpa using hm) ha hb, finish_ok]

theorem exec_liftUpdate_hold (ha : (liftSample s).lift.active = false) :
    exec (.liftUpdate dt) s = .next (liftHold (liftSample s)) := by
  rw [exec_liftUpdate, liftUpdate_of_legal ht hf, liftDecide_hold (by simpa using hm) ha, finish_ok]

end Tick

end Sys2Proof.Machine
end

section
/-! SUPPORT. Lift updates on a list of samples: what they emit beside hooks, and what a state must hold
between them for the target to be sought, and then for the actuator to be held. -/

namespace Sys2Proof.Machine

/-! ### Events beside hooks -/

/-- From `s` to `t` the trace grows by these events, hooks left aside. -/
def EmitsBesideHooks (s : State) (evs : List OutEvent) (t : State) : Prop :=
  ∃ all : List OutEvent, t.trace = s.trace ++ all ∧ all.filter (fun e => !isHook e) = evs

theorem EmitsBesideHooks.refl (s : State) : EmitsBesideHooks s [] s := ⟨[], by simp, rfl⟩

theorem EmitsBesideHooks.trans {s t u : State} {xs ys : List OutEvent} (h : EmitsBesideHooks s xs t)
    (h' : EmitsBesideHooks t ys u) : EmitsBesideHooks s (xs ++ ys) u := by
  obtain ⟨as, ht, rfl⟩ := h
  obtain ⟨bs, hu, rfl⟩ := h'
  exact ⟨as ++ bs, by rw [hu, ht, List.append_assoc], List.filter_append ..⟩

/-- An FSM evaluation emits hooks only. -/
theorem filter_fsmHooks (x : Bool) (f : FsmState) :
    (fsmHooks x f).filter (fun e => !isHook e) = [] := by
  obtain ⟨h, _⟩ | ⟨h, _⟩ := fsmHooks_cases x f <;> rw [h] <;> rfl

/-- Events without a hook, emitted after an FSM evaluation. -/
theorem emitsBesideHooks_of_trace {s t : State} {x : Bool} {evs : List OutEvent}
    (ht : t.trace = s.trace ++ (fsmHooks x s.fsm ++ evs))
    (hevs : evs.filter (fun e => !isHook e) = evs) : EmitsBesideHooks s evs t :=
  ⟨_, ht, by rw [List.filter_append, filter_fsmHooks, hevs, List.nil_append]⟩

/-! ### Lists of samples -/

@[simp] theorem ticksAt_nil (dt : Num32) (s : State) : ticksAt dt [] s = .next s := rfl

theorem ticksAt_cons_of_next {dt p : Num32} {s t : State} (h : tickAt p dt s = .next t)
    (ps : List Num32) : ticksAt dt (p :: ps) s = ticksAt dt ps t := by
  simp only [ticksAt, h]

theorem ticksAt_append_of_next {dt : Num32} {ps : List Num32} {s t : State}
    (h : ticksAt dt ps s = .next t) (qs : List Num32) :
    ticksAt dt (ps ++ qs) s = ticksAt dt qs t := by
  induction ps generalizing s with
  | nil => cases h; rfl
  | cons p ps ih =>
    cases hp : tickAt p dt s with
    | next u =>
      rw [ticksAt_cons_of_next hp] at h
      rw [List.cons_append, ticksAt_cons_of_next hp, ih h]
    | fault f => simp [ticksAt, hp] at h
    | refused r => simp [ticksAt, hp] at h

/-! ### Between the ticks -/

/-- Nothing is commanded and this target is outstanding. -/
structure Seeking (cfg : Params) (target : Num32) (s : State) : Prop where
  cfg : s.cfg = cfg
  man : s.lift.man = .stop
  pending : s.lift.pending = false
  active : s.lift.active = true
  target : s.lift.target = target

/-- Nothing is commanded and no target is outstanding. -/
structure Holding (cfg : Params) (s : State) : Prop where
  cfg : s.cfg = cfg
  man : s.lift.man = .stop
  pending : s.lift.pending = false
  active : s.lift.active = false
  fsm : s.fsm = .idle

/-- The state of a tick whose position sample the environment supplies. -/
theorem liftSample_setEnc {s : State} (h : s.lift.pending = false) (p : Num32) :
    liftSample (setEnc { s.enc with pos := p } s) =
      setLift { s.lift with pos := p } (setEnc { s.enc with pos := p } s) :=
  liftSample_of_not_pending (s := setEnc { s.enc with pos := p } s) h

/-- With no delta pending, what a finite sample leaves to ask is a finite target, where one is outstanding. -/
theorem liftInputsFinite_setEnc {dt p : Num32} {s : State} (hdt : numIsFinite dt = true)
    (hp : numIsFinite p = true) (hpend : s.lift.pending = false)
    (htarget : s.lift.active = true → numIsFinite s.lift.target = true) :
    liftInputsFinite dt (setEnc { s.enc with pos := p } s) = true :=
  liftInputsFinite_iff.2 ⟨hdt, hp, by simp [hpend], fun _ ha _ => htarget ha⟩

section Ticks

variable {cfg : Params} {dt target : Num32} (ht : tolOk cfg = true) (hdt : numIsFinite dt = true)
include ht hdt

section Active

variable (htarget : numIsFinite target = true)
include htarget

/-- R148: a tick beyond the band drives toward the target and keeps it. -/
theorem tickAt_seeking (hc : cfg.cascade = .off) {s : State} (h : Seeking cfg target s) {p : Num32}
    (hp : numIsFinite p = true) (hb : numLt cfg.tol (numAbs (numSub target p)) = true) :
    ∃ t, tickAt p dt s = .next t ∧ Seeking cfg target t ∧ EmitsBesideHooks s
      [.actDir (if numLt numZero (numSub target p) = true then .forward else .reverse)] t := by
  obtain ⟨rfl, hman, hpend, hact, rfl⟩ := h
  have hsample := liftSample_setEnc hpend p
  have hf := liftInputsFinite_setEnc hdt hp hpend fun _ => htarget
  refine ⟨_, exec_liftUpdate_seek (s := setEnc { s.enc with pos := p } s) ht hf hman
    (by simpa [hsample] using hact) (by simpa [hsample] using hb) (seek_off (by simpa using hc)), ?_, ?_⟩
  · constructor <;> simp [hsample, hman, hpend, hact]
  · exact emitsBesideHooks_of_trace (x := true) (by simp [hsample]) rfl

/-- R151: a tick within the band stops, notifies and clears the target. -/
theorem tickAt_arriving {s : State} (h : Seeking cfg target s) {p : Num32} (hp : numIsFinite p = true)
    (hb : numLt cfg.tol (numAbs (numSub target p)) = false) :
    ∃ t, tickAt p dt s = .next t ∧ Holding cfg t ∧
      EmitsBesideHooks s [.actDir .stop, .notify (notifyBytes cfg.lineTerm)] t := by
  obtain ⟨rfl, hman, hpend, hact, rfl⟩ := h
  have hsample := liftSample_setEnc hpend p
  have hf := liftInputsFinite_setEnc hdt hp hpend fun _ => htarget
  refine ⟨_, exec_liftUpdate_arrive ht hf hman (by simpa [hsample] using hact)
    (by simpa [hsample] using hb), ?_, ?_⟩
  · constructor <;> simp [liftArrive, notifyArrival, clearTarget, hsample, hman, hpend]
  · exact emitsBesideHooks_of_trace (x := false) (by simp) rfl

/-- Ticks beyond the band, one after another. -/
theorem ticksAt_seeking (hc : cfg.cascade = .off) (ps : List Num32) {s : State}
    (h : Seeking cfg target s)
    (hps : ∀ p ∈ ps, numIsFinite p = true ∧ numLt cfg.tol (numAbs (numSub target p)) = true) :
    ∃ t, ticksAt dt ps s = .next t ∧ Seeking cfg target t ∧ EmitsBesideHooks s
      (ps.map fun p => .actDir (if numLt numZero (numSub target p) = true then .forward else .reverse))
      t := by
  induction ps generalizing s with
  | nil => exact ⟨s, rfl, h, .refl s⟩
  | cons p ps ih =>
    obtain ⟨⟨hp, hb⟩, hps⟩ := List.forall_mem_cons.1 hps
    obtain ⟨u, hu, hseek, hev⟩ := tickAt_seeking ht hdt htarget hc h hp hb
    obtain ⟨t, hrun, hlast, hevs⟩ := ih hseek hps
    exact ⟨t, (ticksAt_cons_of_next hu ps).trans hrun, hlast, hev.trans hevs⟩

end Active

/-- R150: a tick with nothing commanded stops, and the next one finds the same. -/
theorem tickAt_holding {s : State} (h : Holding cfg s) {p : Num32} (hp : numIsFinite p = true) :
    ∃ t, tickAt p dt s = .next t ∧ Holding cfg t ∧ EmitsBesideHooks s [.actDir .stop] t := by
  obtain ⟨rfl, hman, hpend, hact, _⟩ := h
  have hsample := liftSample_setEnc hpend p
  have hf := liftInputsFinite_setEnc hdt hp hpend fun h => absurd h (by simp [hact])
  refine ⟨_, exec_liftUpdate_hold ht hf hman (by simpa [hsample] using hact), ?_, ?_⟩
  · constructor <;> simp [liftHold, hsample, hman, hpend, hact]
  · exact emitsBesideHooks_of_trace (x := false) (by simp) rfl

/-- Ticks with nothing commanded, one after another. -/
theorem ticksAt_holding (ps : List Num32) {s : State} (h : Holding cfg s)
    (hps : ∀ p ∈ ps, numIsFinite p = true) :
    ∃ t, ticksAt dt ps s = .next t ∧ Holding cfg t ∧
      EmitsBesideHooks s (List.replicate ps.length (.actDir .stop)) t := by
  induction ps generalizing s with
  | nil => exact ⟨s, rfl, h, .refl s⟩
  | cons p ps ih =>
    obtain ⟨hp, hps⟩ := List.forall_mem_cons.1 hps
    obtain ⟨u, hu, hhold, hev⟩ := tickAt_holding ht hdt h hp
    obtain ⟨t, hrun, hlast, hevs⟩ := ih hhold hps
    exact ⟨t, (ticksAt_cons_of_next hu ps).trans hrun, hlast, hev.trans hevs⟩

end Ticks

end Sys2Proof.Machine
end

section
/-! The settled statements on the commands and the lift update. -/

namespace Sys2Proof.Machine

/-- Settles O45: the ticks beyond the band, the one within it, and the ones after it, joined. -/
theorem seekUntilTheBandThenHold : Obligations.SeekUntilTheBandThenHold := by
  intro s dt before arrive after ht hc hdt hman hpend hact htarget hbefore ⟨hfin, hband⟩ hafter
  obtain ⟨u, hu, hseek, hev⟩ :=
    ticksAt_seeking ht hdt htarget hc before ⟨rfl, hman, hpend, hact, rfl⟩ hbefore
  obtain ⟨v, hv, hhold, hev'⟩ := tickAt_arriving ht hdt htarget hseek hfin hband
  obtain ⟨t, hrun, hlast, hev''⟩ := ticksAt_holding ht hdt after hhold hafter
  obtain ⟨evs, htrace, hevs⟩ := (hev.trans hev').trans hev''
  have hall : ticksAt dt (before ++ arrive :: after) s = .next t := by
    rw [ticksAt_append_of_next hu, ticksAt_cons_of_next hv, hrun]
  exact ⟨t, evs, hall, htrace, hevs, hlast.active, hlast.pending, hlast.fsm⟩

/-- Settles O25: each command's arm of the dispatch is its operation. -/
theorem dispatchRoutesEachCommand : Obligations.DispatchRoutesEachCommand := by
  refine fun s d v p c => ⟨rfl, rfl, rfl, rfl, rfl, rfl, fun hc => ?_⟩
  obtain ⟨t, h⟩ := dispatchCommand_of_wellFormed hc
  exact ⟨t, by rw [exec_cmdDispatch, h, finish_ok]⟩

/-- Settles O26: a finite delta is not refused, and capturing it writes two registers. -/
theorem setDeltaRaisesTargetPending : Obligations.SetDeltaRaisesTargetPending := fun s v hv => by
  rw [exec_cmdLiftSetDelta, liftSetDelta_of_finite hv, finish_ok, pendTarget]

/-- Settles O27: the manual commands by their definition, the stop by what `STOP_CANCELS_TARGET` says. -/
theorem manualAndStopCommands : Obligations.ManualAndStopCommands :=
  fun s => ⟨rfl, rfl, fun h => by simp [liftStop_eq, h], fun h => by simp [liftStop_eq, h]⟩

/-- Settles O28: a position in its range is its own low bits' sign extension. -/
theorem gripperCommandsPassThrough : Obligations.GripperCommandsPassThrough := fun s p hp =>
  ⟨rfl, rfl, by rw [exec_cmdGripperSetPosition, gripSetPosition_of_inSigned hp, emit]⟩

/-- Settles O37, by whether a delta is pending. -/
theorem pendingDeltaBecomesTheTarget : Obligations.PendingDeltaBecomesTheTarget :=
  fun _ => ⟨liftSample_of_pending, liftSample_of_not_pending⟩

/-- Settles O39: the tick seeks, and without the PID layer the seek is the error's sign. -/
theorem seekingDrivesTowardTheTarget : Obligations.SeekingDrivesTowardTheTarget := by
  intro s dt err ht hdt hpos hdelta htarget hc hm ha herr hb
  subst herr
  have hf : liftInputsFinite dt s = true :=
    liftInputsFinite_iff.2 ⟨hdt, hpos, hdelta, fun h _ _ => htarget h⟩
  exact exec_liftUpdate_seek ht hf hm ha hb (seek_off (by simpa using hc))

/-- Settles O40: the seek runs the position loop and, in `POS_SPD`, the speed loop on its output; both
complete because their preconditions hold, and the position loop's write leaves the speed loop's PID
as it was. -/
theorem seekingThroughThePidLayer : Obligations.SeekingThroughThePidLayer := by
  intro s dt p0 p1 q r ht hbounds hdt hpos hdelta hm ha hb htarget hlen hp0 hn hlegal hacc hq
  have hf : liftInputsFinite dt s = true := by
    refine liftInputsFinite_iff.2 ⟨hdt, hpos, hdelta, fun hp _ _ => ?_⟩
    simpa [liftSample_of_not_pending hp] using htarget
  have hposition : liftPid pidPos (liftSample s).lift.target s.enc.pos dt (fsmEval true (liftSample s)) =
      .ok (q.1, setPid pidPos q.2 (fsmEval true (liftSample s))) :=
    liftPid_of_stages (by simpa using hlen) (by simpa using hp0) hn hlegal (by simpa using hbounds)
      ⟨htarget, hpos, hdt⟩ hacc (by simpa using hq)
  refine ⟨fun hc => ?_, fun hc hout hspd hlen1 hp1 hn1 hlegal1 hacc1 hr => ?_⟩
  · have hseek := seek_pos (err := numSub (liftSample s).lift.target s.enc.pos)
      (s := fsmEval true (liftSample s)) (by simpa using hc) (by simpa using hposition)
    exact exec_liftUpdate_seek ht hf hm ha hb hseek
  · have hother : p1 = getPid pidSpd (setPid pidPos q.2 (fsmEval true (liftSample s))) := by
      rw [getPid_setPid_other (by decide)]
      simpa using hp1
    have hspeed := liftPid_of_stages (t := q.1) (m := s.enc.spd) (dt := dt) (by simpa using hlen1) hother
      hn1 hlegal1 (by simpa using hbounds) ⟨hout, hspd, hdt⟩ hacc1 (by simpa using hr)
    have hseek := seek_posSpd (err := numSub (liftSample s).lift.target s.enc.pos)
      (s := fsmEval true (liftSample s)) (by simpa using hc) (by simpa using hposition)
      (by simpa using hspeed)
    exact exec_liftUpdate_seek ht hf hm ha hb hseek

/-- Settles O41: the tick arrives, and arrival is the stop, the message and the cleared target. -/
theorem arrivalStopsAndNotifies : Obligations.ArrivalStopsAndNotifies := by
  intro s dt ht hdt hpos hdelta htarget hm ha hb
  have hf : liftInputsFinite dt s = true :=
    liftInputsFinite_iff.2 ⟨hdt, hpos, hdelta, fun h _ _ => htarget h⟩
  rw [exec_liftUpdate_arrive ht hf hm ha hb]
  simp [liftArrive, notifyArrival, clearTarget, notifyBytes]

/-- Settles O42: the tick holds, on a sample that leaves the target's registers alone. -/
theorem idleHoldStops : Obligations.IdleHoldStops := by
  intro s dt ht hdt hpos hm hp ha
  have hf : liftInputsFinite dt s = true :=
    liftInputsFinite_iff.2 ⟨hdt, hpos, by simp [hp], by simp [ha]⟩
  have hsample := liftSample_of_not_pending hp
  rw [exec_liftUpdate_hold ht hf hm (by simpa [hsample] using ha), hsample, liftHold]

end Sys2Proof.Machine
end

section
/-! The FSM's evaluation where the table switches and where it stays, and the settled statement on it. -/

namespace Sys2Proof.Machine

/-- R171: where the table gives another state, the switch stands between its two hooks. -/
theorem fsmEval_of_switch {s : State} {x : Bool} {f g : FsmState} (hf : s.fsm = f)
    (hg : fsmNext f x = g) (hne : g ≠ f) :
    fsmEval x s = { s with fsm := g, trace := s.trace ++ [.hook .exit f, .hook .entry g] } := by
  subst hf hg
  rw [fsmEval_eq, fsmHooks, if_neg hne]

/-- R171: where the table gives the same state, no hook runs and nothing is written. -/
theorem fsmEval_of_stay {s : State} {x : Bool} {f : FsmState} (hf : s.fsm = f)
    (hstay : fsmNext f x = f) : fsmEval x s = s := by
  subst hf
  rw [fsmEval_eq, fsmHooks, if_pos hstay, hstay, List.append_nil]

/-- Settles O46: `FSM_EVAL` is the lift update's evaluation, and of the table's four entries two switch
and two stay. -/
theorem fsmEvalFollowsTheTable : Obligations.FsmEvalFollowsTheTable := by
  intro s
  refine ⟨fun x => exec_fsmEval x s, fun hidle => ?_, fun hmoving => ?_, fun hidle => ?_,
    fun hmoving => ?_⟩ <;> rw [exec_fsmEval]
  · rw [fsmEval_of_switch hidle (fsmNext_true _) (by decide)]
  · rw [fsmEval_of_switch hmoving (fsmNext_false _) (by decide)]
  · rw [fsmEval_of_stay hidle (fsmNext_false _)]
  · rw [fsmEval_of_stay hmoving (fsmNext_true _)]

end Sys2Proof.Machine
end

section
/-! The encoder's registers as integers of a width, and the settled statements on a sample. -/

namespace Sys2Proof.Machine

/-- A sign-extended number is the number itself exactly when it fits the width. -/
theorem sextN_modPow_eq_self_iff {w : Nat} {k : Int} :
    sextN w (modPow w k) = k ↔ inSigned w k = true :=
  ⟨fun h => h ▸ inSigned_sextN w k, sextN_of_inSigned⟩

/-- R188: the delta is determined by its range and its residue. -/
theorem encDelta_eq {cfg : Params} {cntLast cnt : Nat} {d : Int} (hd : inSigned cfg.cntBits d = true)
    (hmod : ((cnt : Int) - cntLast - d) % 2 ^ cfg.cntBits = 0) : encDelta cfg cntLast cnt = d :=
  eq_sextN hd hmod

/-- R189: the accumulator is determined by its range and its residue. -/
theorem encAccum_eq {cfg : Params} {acc d acc' : Int} (hacc : inSigned cfg.accBits acc' = true)
    (hmod : (acc + d - acc') % 2 ^ cfg.accBits = 0) : encAccum cfg acc d = acc' :=
  eq_sextN hacc hmod

/-- R187: a legal sample completes, and writes ENC's registers alone. -/
theorem exec_encSample_of_legal {s : State} {cnt : Nat} {dt : Num32} (hp : pulseOk s.cfg = true)
    (hb : dtBoundsFinite s.cfg = true) (hdt : numIsFinite dt = true) :
    exec (.encSample cnt dt) s = .next (setEnc (encStages s.cfg cnt dt s.enc) s) := by
  rw [exec_encSample, encSample_eq_ok.2 ⟨hp, hb, hdt, rfl⟩, finish_ok]

/-- Between a counter's value and its value after a movement, the previous value drops out: the delta is
the movement's low bits, sign-extended. -/
theorem encDelta_of_movement {cfg : Params} {cntLast cnt : Nat} {move : Int}
    (hcnt : cnt = (((cntLast : Int) + move) % 2 ^ cfg.cntBits).toNat) :
    encDelta cfg cntLast cnt = sextN cfg.cntBits (modPow cfg.cntBits move) := by
  have hcast : (cnt : Int) = ((cntLast : Int) + move) % 2 ^ cfg.cntBits :=
    hcnt ▸ modPow_cast cfg.cntBits (cntLast + move)
  have hmod : ((cnt : Int) - cntLast) % 2 ^ cfg.cntBits = move % 2 ^ cfg.cntBits := by
    rw [hcast, Int.emod_sub_emod, add_sub_cancel_left]
  rw [encDelta, modPow, hmod, ← modPow]

/-- Settles O48: range and residue determine the delta and the accumulator, and the stages give the rest. -/
theorem encSampleInFull : Obligations.EncSampleInFull := by
  intro s cnt d acc dt hp hb hdt hcnt ⟨hdlo, hdhi, hdmod⟩ ⟨halo, hahi, hamod⟩
  have hdelta : encDelta s.cfg s.enc.cntLast cnt = d := encDelta_eq (inSigned_iff.2 ⟨hdlo, hdhi⟩) hdmod
  have haccum : encAccum s.cfg s.enc.acc d = acc := encAccum_eq (inSigned_iff.2 ⟨halo, hahi⟩) hamod
  rw [exec_encSample_of_legal hp hb hdt, encStages, hdelta, haccum, lowBits_of_lt hcnt, encPos, encSpd,
    clampDt]

/-- Settles O49: the delta is the movement's low bits, sign-extended, which are the movement exactly when it
fits, and have its residue in any case. -/
theorem encDeltaIsTheTrueMovement : Obligations.EncDeltaIsTheTrueMovement := by
  intro cfg cntLast cnt move hw hcnt
  rw [encDelta_of_movement hcnt]
  refine ⟨sextN_modPow_eq_self_iff.trans (inSigned_iff_bounds hw), ?_⟩
  obtain ⟨k, hk⟩ := Int.dvd_of_emod_eq_zero (sextN_modPow_emod cfg.cntBits move)
  exact ⟨-k, by linarith⟩

end Sys2Proof.Machine
end

section
/-! SUPPORT. The tick flag, what a lift update leaves alone and where it completes, and a tick service as a
sample and an update. -/

namespace Sys2Proof.Machine

/-! ### The tick flag -/

/-- R202: raising a flag that is up leaves SEQ's registers as they are. -/
theorem raiseTick_of_raised {q : SeqRegs} (h : q.tickFlag = true) : raiseTick q = q := by
  rw [raiseTick, ← h]

/-! ### The lift update -/

/-- A lift update writes LIFT, the FSM, the PID instances and the trace. -/
theorem liftUpdate_frame {dt : Num32} {s t : State} (h : liftUpdate dt s = .ok t) :
    t = { s with lift := t.lift, fsm := t.fsm, pid := t.pid, trace := t.trace } := by
  obtain ⟨_, _, h⟩ := liftUpdate_eq_ok.1 h
  obtain ⟨d, _, rfl⟩ | ⟨_, _, _, d, u, hu, rfl⟩ | ⟨_, _, _, rfl⟩ | ⟨_, _, rfl⟩ := liftDecide_cases h
  · rfl
  · rw [seek_frame hu, fsmEval_eq]; rfl
  · rw [liftArrive, fsmEval_eq]; rfl
  · rw [liftHold, fsmEval_eq]; rfl

/-- R146 step 3: no direction is commanded exactly where the manual override is off. -/
theorem dirOf_eq_none_iff {m : DirMap} {d : ManualDir} : dirOf m d = none ↔ d = .stop := by
  cases d with
  | stop => simp
  | up => cases m <;> simp [dirOf]
  | down => cases m <;> simp [dirOf]

/-- R148: without the PID layer every decision has a result; only the PID layer can stop a seek. -/
theorem liftDecide_ok_of_off {s : State} (hc : s.cfg.cascade = .off) (dt : Num32) :
    ∃ t, liftDecide dt s = .ok t := by
  cases hd : dirOf s.cfg.dirMap s.lift.man with
  | some d => exact ⟨_, liftDecide_manual hd⟩
  | none =>
    have hm : s.lift.man = .stop := dirOf_eq_none_iff.1 hd
    cases ha : s.lift.active with
    | false => exact ⟨_, liftDecide_hold hm ha⟩
    | true =>
      cases hb : numLt s.cfg.tol (numAbs (liftError s.lift)) with
      | false => exact ⟨_, liftDecide_arrive hm ha hb⟩
      | true =>
        rw [liftDecide_seek hm ha hb, liftSeek, seek_off (by simpa using hc)]
        exact ⟨_, rfl⟩

/-- Without the PID layer a lift update completes on legal inputs. -/
theorem liftUpdate_ok_of_off {dt : Num32} {s : State} (hc : s.cfg.cascade = .off)
    (ht : tolOk s.cfg = true) (hf : liftInputsFinite dt s = true) : ∃ t, liftUpdate dt s = .ok t := by
  rw [liftUpdate_of_legal ht hf]
  exact liftDecide_ok_of_off (by simpa using hc) dt

/-! ### The tick service -/

/-- R204: the elapsed time, on the remainder itself. -/
theorem tickDt_eq (cfg : Params) (tLast now : Nat) :
    tickDt cfg tLast now = numMul (i2n (((now : Int) - tLast) % 2 ^ cfg.tsBits)) cfg.tsUnitS := by
  rw [tickDt, modPow_cast]

/-- R204: a tick service whose sample completes is the update on the sampled state; the timestamp is kept as it
is where it fits its width. -/
theorem exec_tickService_of_encSample {s t : State} {now cnt : Nat} (hnow : now < 2 ^ s.cfg.tsBits)
    (h : exec (.encSample cnt (tickDt s.cfg s.seq.tLast now)) (setSeq { s.seq with tLast := now } s) =
      .next t) :
    exec (.tickService now cnt) s = exec (.liftUpdate (tickDt s.cfg s.seq.tLast now)) t := by
  rw [exec_encSample, finish_eq_next] at h
  rw [exec_tickService, tickService, lowBits_of_lt hnow, h, andThen_ok, exec_liftUpdate]

end Sys2Proof.Machine
end

section
/-! The settled statements on the tick. -/

namespace Sys2Proof.Machine

/-- Settles O50: the interrupt is one write, and of a raised flag it writes back what is there. -/
theorem tickIrqOnlySetsTheFlag : Obligations.TickIrqOnlySetsTheFlag :=
  fun s => ⟨rfl, fun h => by rw [exec_tickIrq, raiseTick_of_raised h, setSeq_self]⟩

/-- Settles O51: the sample completes on legal parameters, the update on the sampled state completes without
the PID layer, and it leaves the registers of SEQ and ENC alone. -/
theorem tickServiceSamplesThenUpdates : Obligations.TickServiceSamplesThenUpdates := by
  intro s now cnt dt hnow hdt
  obtain rfl : dt = tickDt s.cfg s.seq.tLast now := by rw [hdt, tickDt_eq]
  refine ⟨fun t h => exec_tickService_of_encSample hnow h, fun hbits hunit => tickDt_finite hbits hunit _ _,
    fun hpulse htol hbounds hoff hcnt hfin hpos hdelta htarget => ?_⟩
  have hservice := exec_tickService_of_encSample hnow
    (exec_encSample_of_legal (s := setSeq { s.seq with tLast := now } s) (cnt := cnt) hpulse hbounds hfin)
  obtain ⟨t, ht⟩ := liftUpdate_ok_of_off
    (s := setEnc (encStages s.cfg cnt (tickDt s.cfg s.seq.tLast now) s.enc)
      (setSeq { s.seq with tLast := now } s))
    hoff htol (liftInputsFinite_iff.2 ⟨hfin, hpos, hdelta, htarget⟩)
  refine ⟨t, hservice.trans (finish_eq_next.2 ht), ?_⟩
  rw [liftUpdate_frame ht]
  exact ⟨rfl, lowBits_of_lt hcnt⟩

end Sys2Proof.Machine
end

section
/-! SUPPORT. The interrupt steps write disjoint state: RXQ against the tick flag. -/

namespace Sys2Proof.Machine

theorem setRxq_setSeq (r : Rxq) (q : SeqRegs) (s : State) :
    setRxq r (setSeq q s) = setSeq q (setRxq r s) := rfl

/-- R44: a receive interrupt reads the parameters and the ring, and writes the ring alone. -/
theorem exec_rxqPush_of_ok {b : Byte} {s : State} {r : Rxq} (hs : storageOk s.cfg = true)
    (h : rxqPush s.cfg b s.rxq = .ok r) : exec (.rxqPush b) s = .next (setRxq r s) := by
  rw [exec_rxqPush, pushByte_of_ok hs h, finish_ok]

end Sys2Proof.Machine
end

section
/-! The settled statement on the interrupts. -/

namespace Sys2Proof.Machine

/-- Settles O11: the tick interrupt leaves what the push reads as it was, so both orders push onto the same ring,
and the two writes commute. -/
theorem interruptStepsCommute : Obligations.InterruptStepsCommute := by
  intro s b hs hh
  obtain ⟨r, hr⟩ := rxqPush_ok hh b
  have hpushAfterTick : exec (.rxqPush b) (setSeq (raiseTick s.seq) s) =
      .next (setRxq r (setSeq (raiseTick s.seq) s)) :=
    exec_rxqPush_of_ok (by simpa using hs) (by simpa using hr)
  refine ⟨_, _, _, exec_rxqPush_of_ok hs hr, exec_tickIrq _, exec_tickIrq s, ?_⟩
  rw [hpushAfterTick, setRxq_setSeq, setRxq_seq]

end Sys2Proof.Machine
end

section
/-! SUPPORT. The parameters are configuration (R247): what each operation writes is known, and they are not
among it. -/

namespace Sys2Proof.Machine

theorem dispatchCommand_cfg {c : Command} {s t : State} (h : dispatchCommand c s = .ok t) :
    t.cfg = s.cfg := by
  rw [dispatchCommand_frame h]

theorem consumeBytes_cfg {bs : List Byte} {s t : State} (h : consumeBytes bs s = .ok t) :
    t.cfg = s.cfg := by
  induction bs generalizing s with
  | nil => cases h; rfl
  | cons b bs ih =>
    rw [consumeBytes_cons, andThen_eq_ok] at h
    obtain ⟨u, hu, hbs⟩ := h
    exact (ih hbs).trans (consumeByte_cfg hu)

theorem liftUpdate_cfg {dt : Num32} {s t : State} (h : liftUpdate dt s = .ok t) : t.cfg = s.cfg := by
  rw [liftUpdate_frame h]

theorem encSample_cfg {cnt : Nat} {dt : Num32} {s t : State} (h : encSample cnt dt s = .ok t) :
    t.cfg = s.cfg := by
  obtain ⟨_, _, _, rfl⟩ := encSample_eq_ok.1 h
  exact setEnc_cfg _ s

theorem tickService_cfg {now cnt : Nat} {s t : State} (h : tickService now cnt s = .ok t) :
    t.cfg = s.cfg := by
  obtain ⟨u, hu, ht⟩ := tickService_eq_ok.1 h
  exact (liftUpdate_cfg ht).trans ((encSample_cfg hu).trans (setSeq_cfg _ s))

theorem mainStep_cfg {now cnt : Nat} {s t : State} (h : mainStep now cnt s = .ok t) :
    t.cfg = s.cfg := by
  obtain ⟨_, ⟨b, r, _, hb⟩ | ⟨_, _, ht⟩ | ⟨_, _, rfl⟩⟩ := mainStep_cases h
  · exact (consumeByte_cfg hb).trans (setRxq_cfg r s)
  · exact (tickService_cfg ht).trans (setSeq_cfg _ s)
  · rfl

@[simp] theorem resetState_cfg (s : State) : (resetState s).cfg = s.cfg := rfl

/-- R247: no instruction writes the parameters. -/
theorem exec_cfg {i : Instr} {s t : State} (h : exec i s = .next t) : t.cfg = s.cfg := by
  cases i with
  | legStop => exact consumeByte_cfg (finish_eq_next.1 h)
  | legUp => exact consumeByte_cfg (finish_eq_next.1 h)
  | legDown => exact consumeByte_cfg (finish_eq_next.1 h)
  | sof => exact consumeByte_cfg (finish_eq_next.1 h)
  | eof => exact consumeByte_cfg (finish_eq_next.1 h)
  | fLifter r => exact consumeBytes_cfg (finish_eq_next.1 h)
  | fGripOpen r => exact consumeBytes_cfg (finish_eq_next.1 h)
  | fGripClose r => exact consumeBytes_cfg (finish_eq_next.1 h)
  | fGripPos r => exact consumeBytes_cfg (finish_eq_next.1 h)
  | notify => cases h; exact emit_cfg _ s
  | rxqPush b =>
    obtain ⟨_, r, _, rfl⟩ := pushByte_eq_ok.1 (finish_eq_next.1 h)
    exact setRxq_cfg r s
  | rxqPop =>
    rw [exec_rxqPop, finish_eq_next, andThen_eq_ok] at h
    obtain ⟨p, hp, h⟩ := h
    obtain ⟨_, q, _, rfl⟩ := popByte_eq_ok.1 hp
    cases h
    rw [setRet_cfg, setRxq_cfg]
  | cfpFeed b =>
    rw [exec_cfpFeed, finish_eq_next, andThen_eq_ok] at h
    obtain ⟨p, hp, h⟩ := h
    obtain ⟨_, q, _, rfl⟩ := feedByte_eq_ok.1 hp
    cases h
    rw [setRet_cfg, setCfp_cfg]
  | pidInit who j kp ki kd ol il al it dz =>
    rw [exec_pidInit, finish_eq_next, refuseUnless_eq_ok, refuseUnless_eq_ok, andThen_eq_ok] at h
    obtain ⟨_, _, p, _, h⟩ := h
    cases h
    exact setPid_cfg j p s
  | pidCalc j tg m dt =>
    rw [exec_pidCalc, finish_eq_next, refuseUnless_eq_ok, refuseUnless_eq_ok, andThen_eq_ok] at h
    obtain ⟨_, _, q, _, h⟩ := h
    cases h
    rw [setRet_cfg, setPid_cfg]
  | cmdDispatch c => exact dispatchCommand_cfg (finish_eq_next.1 h)
  | cmdLiftSetDelta v => exact dispatchCommand_cfg (c := .liftSetDelta v) (finish_eq_next.1 h)
  | cmdLiftManual d => cases h; exact setLift_cfg _ s
  | cmdLiftStop => cases h; exact setLift_cfg _ s
  | cmdGripperOpen => cases h; exact emit_cfg _ s
  | cmdGripperClose => cases h; exact emit_cfg _ s
  | cmdGripperSetPosition p => cases h; exact emit_cfg _ s
  | liftUpdate dt => exact liftUpdate_cfg (finish_eq_next.1 h)
  | fsmEval x => cases h; exact fsmEval_cfg x s
  | encSample cnt dt => exact encSample_cfg (finish_eq_next.1 h)
  | tickIrq => cases h; exact setSeq_cfg _ s
  | mainStep now cnt => exact mainStep_cfg (finish_eq_next.1 h)
  | tickService now cnt => exact tickService_cfg (finish_eq_next.1 h)
  | reset => cases h; exact resetState_cfg s

/-- R50: taking the next operation from the schedule, or the next free inputs, is no write to the
parameters. -/
theorem nextOperation_cfg (s : State) : (nextOperation s).2.cfg = s.cfg := by
  unfold nextOperation
  split
  · exact setSched_cfg _ s
  · exact setInputN_cfg _ s

end Sys2Proof.Machine
end

section
/-! The settled statement on the parameters. -/

namespace Sys2Proof.Machine

/-- Settles O59: no instruction writes the parameters, and a step is an instruction on a state that differs in
the schedule or the count of free inputs alone. -/
theorem parametersNeverChange : Obligations.ParametersNeverChange :=
  ⟨fun _ _ _ => exec_cfg, fun s _ h => (exec_cfg h).trans (nextOperation_cfg s)⟩

end Sys2Proof.Machine
end
